-- ==== Sys2Proof/Word.lean ====
section
/-! DEFINITION. The word types of the block: 32-bit port words and 8-bit bytes. -/

namespace Sys2Proof

/-- A word of the host command port: W, A, B and R are 32 bits wide (10_state.md R15). -/
abbrev Word := BitVec 32

/-- A byte: an index or field code of a command word, an SPI byte, a STATUS code (30_encoding.md R56). -/
abbrev Byte := BitVec 8

end Sys2Proof
end

