-- ==== Sys2Proof/Syntax.lean ====
section
/-! DEFINITION. The commands of the host command port, one constructor per row of
spec/opcode_table.json (30_encoding.md R59), with the operands that stand in the command word W
(R58). The operand words A and B are port registers and are read from the state by the meanings. -/

namespace Sys2Proof

/-- The seven command formats (30_encoding.md R57). -/
inductive Format where
  | n
  | k
  | ka
  | kv
  | ab
  | kf
  | h
  deriving DecidableEq, Repr

/-- The 18 commands (30_encoding.md R59). `k` is a slot index and `p` an outbound pointer, both
W[23:16] and neither range-checked by the decoder; `f` is a record field code W[15:8]; `v` is W[0];
`hm` is W[0] and `he` is W[1] of `bd.start`. -/
inductive Instr where
  | teStart
  | teWr (k : Byte)
  | teRd (k : Byte)
  | teEn (k : Byte)
  | teDis (k : Byte)
  | teSpeed (k : Byte) (v : Bool)
  | teOneshot (k : Byte) (v : Bool)
  | bdStart (hm he : Bool)
  | bdFiltStd
  | bdFiltExt
  | bdFiltClr
  | bdPrep
  | bdFw (p f : Byte)
  | bdFr (p f : Byte)
  | bdCommit (p : Byte)
  | bdAck
  | ieSet
  | ieClr
  deriving DecidableEq, Repr

/-- The format of each command (30_encoding.md R57, R59). -/
def Instr.format : Instr → Format
  | .teStart => .n
  | .teWr _ => .ka
  | .teRd _ => .k
  | .teEn _ => .k
  | .teDis _ => .k
  | .teSpeed _ _ => .kv
  | .teOneshot _ _ => .kv
  | .bdStart _ _ => .h
  | .bdFiltStd => .ab
  | .bdFiltExt => .ab
  | .bdFiltClr => .n
  | .bdPrep => .n
  | .bdFw _ _ => .kf
  | .bdFr _ _ => .kf
  | .bdCommit _ => .k
  | .bdAck => .n
  | .ieSet => .n
  | .ieClr => .n

end Sys2Proof
end

