-- ==== Sys2Proof/Decode.lean ====
section
/-! DEFINITION. The command-word decoder, total on every 32-bit word and rejecting by name, then the
encoder, both from the encoding tables of 30_encoding.md R56 to R60. -/

namespace Sys2Proof

/-- The fields of a command word: OP, IDX, FLD and IMM (30_encoding.md R56). -/
def opField (w : Word) : Byte := w.extractLsb' 24 8
def idxField (w : Word) : Byte := w.extractLsb' 16 8
def fldField (w : Word) : Byte := w.extractLsb' 8 8
def immField (w : Word) : Byte := w.extractLsb' 0 8

/-- The bits of W that a format marks zero, below the opcode (30_encoding.md R57). -/
def Format.zeroMask : Format → Word
  | .n  => 0x00FFFFFF#32
  | .k  => 0x0000FFFF#32
  | .ka => 0x0000FFFF#32
  | .kv => 0x0000FFFE#32
  | .ab => 0x00FFFFFF#32
  | .kf => 0x000000FF#32
  | .h  => 0x00FFFFFC#32

/-- Why a command word is illegal (30_encoding.md R60). -/
inductive DecodeError where
  /-- OP is reserved. -/
  | reservedOpcode (op : Byte)
  /-- A field the format marks 0 is nonzero. -/
  | nonzeroField (f : Format)
  deriving DecidableEq, Repr

/-- The command `i` of opcode and fields of `w`, if the bits its format marks 0 are 0
(30_encoding.md R57, R60). -/
def checkFormat (w : Word) (i : Instr) : Except DecodeError Instr :=
  if w &&& i.format.zeroMask = 0 then .ok i else .error (.nonzeroField i.format)

/-- The opcode map (30_encoding.md R59) with the operand assembly of R58; every word is a command or
is illegal for a named reason (R60). -/
def decode (w : Word) : Except DecodeError Instr :=
  match (opField w).toNat with
  | 0x01 => checkFormat w .teStart
  | 0x02 => checkFormat w (.teWr (idxField w))
  | 0x03 => checkFormat w (.teRd (idxField w))
  | 0x04 => checkFormat w (.teEn (idxField w))
  | 0x05 => checkFormat w (.teDis (idxField w))
  | 0x06 => checkFormat w (.teSpeed (idxField w) (w.getLsbD 0))
  | 0x07 => checkFormat w (.teOneshot (idxField w) (w.getLsbD 0))
  | 0x10 => checkFormat w (.bdStart (w.getLsbD 0) (w.getLsbD 1))
  | 0x11 => checkFormat w .bdFiltStd
  | 0x12 => checkFormat w .bdFiltExt
  | 0x13 => checkFormat w .bdFiltClr
  | 0x14 => checkFormat w .bdPrep
  | 0x15 => checkFormat w (.bdFw (idxField w) (fldField w))
  | 0x16 => checkFormat w (.bdFr (idxField w) (fldField w))
  | 0x17 => checkFormat w (.bdCommit (idxField w))
  | 0x18 => checkFormat w .bdAck
  | 0x20 => checkFormat w .ieSet
  | 0x21 => checkFormat w .ieClr
  | _    => .error (.reservedOpcode (opField w))

/-- Assemble a command word from its four fields (30_encoding.md R56). -/
def commandWord (op idx fld imm : Byte) : Word :=
  op.setWidth 32 <<< 24 ||| idx.setWidth 32 <<< 16 ||| fld.setWidth 32 <<< 8 ||| imm.setWidth 32

/-- IMM with bits 0 and 1 given and the rest zero (30_encoding.md R57, formats KV and H). -/
def immBits (b0 b1 : Bool) : Byte :=
  (if b0 then 1#8 else 0#8) ||| (if b1 then 2#8 else 0#8)

/-- The command word of a command (30_encoding.md R56 to R59). -/
def encode : Instr → Word
  | .teStart       => commandWord 0x01#8 0#8 0#8 0#8
  | .teWr k        => commandWord 0x02#8 k 0#8 0#8
  | .teRd k        => commandWord 0x03#8 k 0#8 0#8
  | .teEn k        => commandWord 0x04#8 k 0#8 0#8
  | .teDis k       => commandWord 0x05#8 k 0#8 0#8
  | .teSpeed k v   => commandWord 0x06#8 k 0#8 (immBits v false)
  | .teOneshot k v => commandWord 0x07#8 k 0#8 (immBits v false)
  | .bdStart hm he => commandWord 0x10#8 0#8 0#8 (immBits hm he)
  | .bdFiltStd     => commandWord 0x11#8 0#8 0#8 0#8
  | .bdFiltExt     => commandWord 0x12#8 0#8 0#8 0#8
  | .bdFiltClr     => commandWord 0x13#8 0#8 0#8 0#8
  | .bdPrep        => commandWord 0x14#8 0#8 0#8 0#8
  | .bdFw p f      => commandWord 0x15#8 p f 0#8
  | .bdFr p f      => commandWord 0x16#8 p f 0#8
  | .bdCommit p    => commandWord 0x17#8 p 0#8 0#8
  | .bdAck         => commandWord 0x18#8 0#8 0#8 0#8
  | .ieSet         => commandWord 0x20#8 0#8 0#8 0#8
  | .ieClr         => commandWord 0x21#8 0#8 0#8 0#8

/-- The command word of a table row's bits: the low `nbits` bits of `w`, the rest zero. -/
def tableWord (nbits w : Nat) : Word :=
  BitVec.ofNat 32 (w % 2 ^ nbits)

/-- The command the decoder reads from a row of spec/opcode_table.json; `none` where it refuses. -/
def decodeTableWord (nbits w : Nat) : Option Instr :=
  match decode (tableWord nbits w) with
  | .ok i => some i
  | .error _ => none

end Sys2Proof
end

