-- ==== Sys2Proof/Config.lean ====
section
/-! DEFINITION. The implementation parameters of 00_scope.md R6 and R7, and the free values the
environment draws. A configuration is plain data carried in the machine's state and changed by no
step, so a statement about every state is a statement about every configuration. -/

namespace Sys2Proof

/-- Treatment of a Timing Engine slot index at or above N_SLOTS (00_scope.md R7 `SLOT_OOR_POLICY`,
20_memory.md R35). -/
inductive SlotPolicy where
  | ignore
  | clamp
  deriving DecidableEq, Repr

/-- The speed snapshot that scales PERIOD on the tick that loads a message (00_scope.md R7
`PERIOD_SPEED_SOURCE`, 41_te_sequencer.md R87). -/
inductive PeriodSpeedSource where
  | beforeLoad
  | afterLoad
  deriving DecidableEq, Repr

/-- What a second `bd.prep` does to the saved interrupt-enable bit (00_scope.md R7
`PREPARE_NEST_SAVE`, 42_bd_commands.md R101). -/
inductive PrepareNestSave where
  | overwrite
  | keepFirst
  deriving DecidableEq, Repr

/-- The edge of the physical FAULT pin that counts as rising (00_scope.md R7 `FAULT_ACTIVE_EDGE`). -/
inductive ActiveEdge where
  | rising
  | falling
  deriving DecidableEq, Repr

/-- Parameter `REGMAP`: the controller register addresses the block's sequences start at, the SPI
instruction codes and the mode values of REQOP and OPMOD (20_memory.md R38, 30_encoding.md R72).
A burst covers consecutive addresses, so RXF1, CNF2, CNF1 and EFLG follow from the first address. -/
structure RegMap where
  /-- SPI instruction bytes (30_encoding.md R72). -/
  instrReset      : Byte
  instrRead       : Byte
  instrWrite      : Byte
  instrRts0       : Byte
  instrReadStatus : Byte
  /-- First address of each register group (20_memory.md R38). -/
  rxf0    : Byte
  canstat : Byte
  canctrl : Byte
  rxm0    : Byte
  cnf3    : Byte
  caninte : Byte
  canintf : Byte
  txb0    : Byte
  rxb0    : Byte
  /-- Mode values of REQOP and OPMOD (20_memory.md R38). -/
  modeNormal     : BitVec 3
  modeSleep      : BitVec 3
  modeLoopback   : BitVec 3
  modeListenOnly : BitVec 3
  modeConfig     : BitVec 3
  deriving DecidableEq, Repr

/-- The configuration: every parameter of 00_scope.md R6 and every parameter of R7. -/
structure Config where
  nSlots : Nat
  mQueue : Nat
  eQueue : Nat
  /-- `SIGNAL_BITS`: signal bits per message, the low bits of its word. -/
  signalBits : Nat
  /-- `MAX_PAYLOAD`: payload bytes of a Message Event, DATA[0..MAX_PAYLOAD-1]. -/
  maxPayload : Nat
  /-- `STD_ID_BITS` and `EXT_ID_BITS`: the identifier widths. -/
  stdIdBits : Nat
  extIdBits : Nat
  unitTicks      : Nat
  longMarkTicks  : Nat
  shortMarkTicks : Nat
  gapUnits  : Nat
  waitUnits : Nat
  wgWidth   : Nat
  idleMsg   : Word
  idleSpeed : Bool
  addrInvalidCode : Byte
  slotOorPolicy     : SlotPolicy
  periodSpeedSource : PeriodSpeedSource
  prepareNestSave   : PrepareNestSave
  /-- `MODE_POLL_CAP`; `none` is the value INF. -/
  modePollCap : Option Nat
  cnf1Val : Byte
  cnf2Val : Byte
  cnf3Val : Byte
  canctrlAux : Byte
  regmap : RegMap
  /-- Electrical level of logical 1 on GO and of the mark on DATA, and the active edge of FAULT. -/
  goActiveLevel : Bool
  dataMarkLevel : Bool
  faultActiveEdge : ActiveEdge
  deriving DecidableEq, Repr

/-- A byte the CAN controller answers on SPI where the state scripts no answer: an environment
draw, any value 0x00..0xFF (43_bd_interrupt.md R107). No body: nothing can be proved of its value. -/
opaque Config.freeByte : Nat → Byte

/-- A sample of the TIME input where the state scripts none: an environment draw, any 32-bit value
(60_exceptions.md R125). No body: nothing can be proved of its value. -/
opaque Config.freeTime : Nat → Word

end Sys2Proof
end

