-- ==== Sys2Proof/WellFormed.lean ====
section
/-! DEFINITION. Well-formedness. Every term of `Instr` has an encoding: its operands are exactly as
wide as the fields of the command word, and the decoder checks no range (30_encoding.md R58), so an
instruction needs no check of its own. What can be ill-formed is a CONFIGURATION (00_scope.md R8: "A
model refuses a configuration that violates any of these"); `step` refuses one by name. -/

namespace Sys2Proof

/-- The two-bit group of `v` at bits 2j+1:2j is the symbol 10, which a trit never is (30_encoding.md
R63). -/
def hasTritTen (v : Byte) (j : Nat) : Bool :=
  v.getLsbD (2 * j + 1) && !v.getLsbD (2 * j)

/-- A byte of trit symbols: none of its four 2-bit groups is 10 (00_scope.md R7, R8). -/
def tritsOk (v : Byte) : Bool :=
  !hasTritTen v 0 && !hasTritTen v 1 && !hasTritTen v 2 && !hasTritTen v 3

namespace Config

/-- `SHORT_MARK_TICKS ≤ LONG_MARK_TICKS ≤ UNIT_TICKS` (00_scope.md R8). -/
def marksOk (c : Config) : Bool :=
  decide (c.shortMarkTicks ≤ c.longMarkTicks) && decide (c.longMarkTicks ≤ c.unitTicks)

/-- `2 × UNIT_TICKS < 2^WG_WIDTH` with the domains of UNIT_TICKS and WG_WIDTH (00_scope.md R7, R8). -/
def generatorOk (c : Config) : Bool :=
  decide (1 ≤ c.unitTicks) && decide (8 ≤ c.wgWidth) && decide (c.wgWidth ≤ 32)
    && decide (2 * c.unitTicks < 2 ^ c.wgWidth)

/-- The pause domains 0 .. 255 (00_scope.md R7). -/
def pausesOk (c : Config) : Bool :=
  decide (c.gapUnits ≤ 255) && decide (c.waitUnits ≤ 255)

/-- `N_SLOTS ≤ 255` (00_scope.md R8); at least one slot, DEDUCED from "CUR_SLOT, value
0..N_SLOTS-1" (10_state.md R22). -/
def slotsOk (c : Config) : Bool :=
  decide (1 ≤ c.nSlots) && decide (c.nSlots ≤ 255)

/-- `2 ≤ M_QUEUE ≤ 255` and `E_QUEUE ≥ 2` (00_scope.md R8); `E_QUEUE ≤ 256` is DEDUCED from "cursors
(each 8 bits, value 0..cap-1)" (10_state.md R28). -/
def queuesOk (c : Config) : Bool :=
  decide (2 ≤ c.mQueue) && decide (c.mQueue ≤ 255)
    && decide (2 ≤ c.eQueue) && decide (c.eQueue ≤ 256)

/-- The source's parameters of 00_scope.md R6 stay within the layouts the rules write, DEDUCED
(notes/assumptions/8.md): at least one signal bit and at most the 32 of a message word (10_state.md R20),
8 payload bytes (R27), identifiers of 11 and 29 bits (30_encoding.md R69), the extended at least as wide as the
standard. -/
def layoutOk (c : Config) : Bool :=
  decide (1 ≤ c.signalBits) && decide (c.signalBits ≤ 32) && decide (c.maxPayload ≤ 8)
    && decide (c.stdIdBits ≤ 11) && decide (c.extIdBits ≤ 29) && decide (c.stdIdBits ≤ c.extIdBits)

/-- `ADDR_INVALID_CODE` contains no 2-bit group equal to binary 10 (00_scope.md R8). -/
def addrOk (c : Config) : Bool :=
  tritsOk c.addrInvalidCode

/-- `MODE_POLL_CAP` is 1 .. ∞ and `CANCTRL_AUX` has bits 7:5 zero (00_scope.md R7). -/
def controllerOk (c : Config) : Bool :=
  (match c.modePollCap with
    | none => true
    | some n => decide (1 ≤ n))
    && decide (c.canctrlAux.extractLsb' 5 3 = 0)

/-- Well-formedness of a configuration (00_scope.md R6, R7 domains, R8). -/
def wf (c : Config) : Bool :=
  c.marksOk && c.generatorOk && c.pausesOk && c.slotsOk && c.queuesOk && c.layoutOk && c.addrOk
    && c.controllerOk

end Config

end Sys2Proof
end

