-- ==== Sys2Proof/Machine/Defaults.lean ====
section
/-! DEFINITION. The default register map of the CAN controller and the configuration the machine is
reset with. -/

namespace Sys2Proof

/-- The default of parameter `REGMAP`: the MCP2515 addresses, mode values and SPI instruction codes
(20_memory.md R38, 30_encoding.md R72). -/
def RegMap.mcp2515 : RegMap where
  instrReset      := 0xC0#8
  instrRead       := 0x03#8
  instrWrite      := 0x02#8
  instrRts0       := 0x81#8
  instrReadStatus := 0xA0#8
  rxf0    := 0x00#8
  canstat := 0x0E#8
  canctrl := 0x0F#8
  rxm0    := 0x20#8
  cnf3    := 0x28#8
  caninte := 0x2B#8
  canintf := 0x2C#8
  txb0    := 0x31#8
  rxb0    := 0x61#8
  modeNormal     := 0b000#3
  modeSleep      := 0b001#3
  modeLoopback   := 0b010#3
  modeListenOnly := 0b011#3
  modeConfig     := 0b100#3

/-- The source's values of 00_scope.md R6, the decided values of R7, and for each parameter R7 leaves
OPEN the value of its "vectors" column. DESIGN CHOICE (notes/assumptions/2.md), unsafe: the vector
values are "not a claim about the hardware"; where the column names no single value
(`PREPARE_NEST_SAVE`, `ADDR_INVALID_CODE`, the electrical levels) the value is this model's. -/
def Config.vectors : Config where
  nSlots := 8
  mQueue := 16
  eQueue := 4
  signalBits := 18
  maxPayload := 8
  stdIdBits := 11
  extIdBits := 29
  unitTicks      := 8
  longMarkTicks  := 7
  shortMarkTicks := 1
  gapUnits  := 2
  waitUnits := 4
  wgWidth   := 16
  idleMsg   := 0x00000055#32
  idleSpeed := false
  addrInvalidCode := 0x55#8
  slotOorPolicy     := .ignore
  periodSpeedSource := .beforeLoad
  prepareNestSave   := .overwrite
  modePollCap := some 3
  cnf1Val := 0x00#8
  cnf2Val := 0x00#8
  cnf3Val := 0x00#8
  canctrlAux := 0x00#8
  regmap := RegMap.mcp2515
  goActiveLevel := true
  dataMarkLevel := true
  faultActiveEdge := .rising

end Sys2Proof
end

