-- ==== Sys2Proof/Machine/State.lean ====
section
/-! DEFINITION. The machine's state: every element of 10_state.md R15 to R30, the environment as the
block sees it, and the observable trace. One context object per engine (R13). Plain data. -/

namespace Sys2Proof.Machine

/-- Reasons a step can stop the machine with a fault. There is none: "No exceptions/panics are used;
everything is either a return-value signal, a callback, or a documented silent drop"
(60_exceptions.md). No step answers with a fault; the type is empty. -/
inductive Fault where
  deriving DecidableEq, Repr

/-- Reasons a step refuses. -/
inductive Refusal where
  /-- A command that has no meaning in this model; raised by an arm of `exec` only. No arm raises it:
  every command of the table has its meaning. Safe. -/
  | notModelled (mnemonic : String)
  /-- The configuration violates a bound of 00_scope.md R7 or R8 ("A model refuses a configuration
  that violates any of these"); raised by `step`, before anything happens. Safe. -/
  | illFormedConfig
  deriving DecidableEq, Repr

/-- The three interrupt vectors (60_exceptions.md R120). -/
inductive Irq where
  /-- Vector 1: rising edge of FAULT while running. -/
  | fault
  /-- Vector 2: waveform generator period boundary. -/
  | tick
  /-- Vector 3: the controller's interrupt line. -/
  | can
  deriving DecidableEq, Repr

/-- The vector numbers (60_exceptions.md R120). -/
def Irq.number : Irq → Nat
  | .fault => 1
  | .tick => 2
  | .can => 3

/-- EVT_KIND: 0 is a Message Event, 1 an Error Event (10_state.md R30). The same two values name the
inbound queue with its drain and the error queue with its drain (43_bd_interrupt.md R112). -/
inductive EventKind where
  | message
  | error
  deriving DecidableEq, Repr

/-- DATA[0..7] of a Message Event record (10_state.md R27). -/
structure Payload where
  d0 : Byte
  d1 : Byte
  d2 : Byte
  d3 : Byte
  d4 : Byte
  d5 : Byte
  d6 : Byte
  d7 : Byte
  deriving DecidableEq, Repr

/-- A Message Event record, one slot of the outbound or inbound queue (10_state.md R27). -/
structure MessageEvent where
  ts   : Word
  id   : BitVec 29
  ext  : Bool
  rtr  : Bool
  len  : BitVec 4
  data : Payload
  deriving DecidableEq, Repr

/-- The record with every field 0 (70_reset_and_hazards.md R130). -/
def MessageEvent.zero : MessageEvent where
  ts := 0#32
  id := 0#29
  ext := false
  rtr := false
  len := 0#4
  data := ⟨0#8, 0#8, 0#8, 0#8, 0#8, 0#8, 0#8, 0#8⟩

/-- An Error Event record (10_state.md R27). -/
structure ErrorEvent where
  ts    : Word
  flags : Byte
  deriving DecidableEq, Repr

/-- The record with every field 0 (70_reset_and_hazards.md R130). -/
def ErrorEvent.zero : ErrorEvent where
  ts := 0#32
  flags := 0#8

/-- A record on the event delivery port, EVT_REC (10_state.md R30). -/
inductive EventRecord where
  | message (e : MessageEvent)
  | error (e : ErrorEvent)
  deriving DecidableEq, Repr

/-- The kind of a delivered record. -/
def EventRecord.kind : EventRecord → EventKind
  | .message _ => .message
  | .error _ => .error

/-- One step still to run of a multi-step command: the step position of 10_state.md R17 and R18 is the
list of these that a context has left. -/
inductive MicroStep where
  /-- STEP 2 of `te.start` (40_te_commands.md R77). -/
  | releaseGo
  /-- One SPI transaction whose answer is not used (42_bd_commands.md R96, R97). -/
  | transact (out : List Byte)
  /-- The WRITE of CANCTRL that opens `ModeChange(mode)` (42_bd_commands.md R95). -/
  | requestMode (mode : BitVec 3)
  /-- The next READ of CANSTAT of `ModeChange(mode)`, `polls` of them already done (R95). -/
  | pollMode (mode : BitVec 3) (polls : Nat)
  deriving DecidableEq, Repr

/-- What a foreground or handler context has left of its command; `[]` waits for the host's next
command. -/
abbrev Progress := List MicroStep

/-- Step position of an interrupt context (10_state.md R17; 43_bd_interrupt.md R110, R112). -/
inductive IsrPos where
  /-- Step 0: the handler's first step. -/
  | start
  /-- The drain's entry step, which tests and sets the re-entrancy guard. -/
  | guard (q : EventKind)
  /-- The head of the drain loop, which ends the drain or delivers. -/
  | check (q : EventKind)
  /-- The step that advances the queue's NEXT cursor. -/
  | advance (q : EventKind)
  deriving DecidableEq, Repr

/-- An entry of the context stack CTX above the foreground (10_state.md R17). A handler context keeps
the record it was opened with, so that the port can show it again when an inner delivery ends
(R30). -/
inductive Context where
  | isr (v : Irq) (pos : IsrPos)
  | handler (rec : EventRecord) (prog : Progress)
  deriving DecidableEq, Repr

/-- Model-fault names (60_exceptions.md R119). -/
inductive ModelFault where
  /-- MF_TE_RESTART_RUNNING: `te.start` while RUNNING = 1. -/
  | teRestartRunning
  deriving DecidableEq, Repr

/-- An entry of the trace (10_state.md R33; 41_te_sequencer.md R77, R89, R92; 43_bd_interrupt.md
R106). -/
inductive TraceEntry where
  | go (level : Bool)
  | period (p d : Nat)
  | overrun
  | spi (out : List Byte)
  deriving DecidableEq, Repr

/-- One move of the agents around the core. Which agent moves next is the environment's choice
(60_exceptions.md R121); the state carries that choice as a list. -/
inductive Move where
  /-- The innermost context runs its next step. -/
  | core
  /-- `@emit`: the generator reaches a period boundary (41_te_sequencer.md R89). -/
  | emit
  /-- `@fault`: FAULT changes to a logical level (41_te_sequencer.md R91). -/
  | fault (level : Bool)
  /-- The core takes an interrupt (60_exceptions.md R121, R122). -/
  | take (v : Irq)
  /-- The host writes operand word A or B (10_state.md R15). -/
  | writeA (x : Word)
  | writeB (x : Word)
  /-- The host writes W, which issues the command (30_encoding.md R56). -/
  | command (w : Word)
  deriving DecidableEq, Repr

/-- The Timing Engine's state (10_state.md R20 to R26). The programmed and latched generator registers
are WG_WIDTH bits each and are kept below 2^WG_WIDTH by the one operation that stores them. -/
@[ext]
structure TimingEngine where
  msg : List Word
  en  : List Bool
  spd : List Bool
  os  : List Bool
  curSlot : BitVec 8
  curBit  : BitVec 9
  curHalf : Bool
  curMsg  : Word
  curSpd  : Bool
  running : Bool
  go      : Bool
  wgPeriod  : Nat
  wgDuty    : Nat
  wgLPeriod : Nat
  wgLDuty   : Nat
  timerArmed : Bool
  tickPend  : Bool
  faultPend : Bool
  faultPrev : Bool
  deriving DecidableEq, Repr

/-- The Bus Driver's state (10_state.md R27 to R30). -/
@[ext]
structure BusDriver where
  sq : List MessageEvent
  rq : List MessageEvent
  eq : List ErrorEvent
  sqNext : BitVec 8
  sqFree : BitVec 8
  rqNext : BitVec 8
  rqFree : BitVec 8
  eqNext : BitVec 8
  eqFree : BitVec 8
  inFlight   : Bool
  resvValid  : Bool
  savedIe    : Bool
  mhPresent  : Bool
  ehPresent  : Bool
  intAttached : Bool
  eqDraining : Bool
  rqDraining : Bool
  evtValid : Bool
  evtKind  : EventKind
  evtRec   : EventRecord
  deriving DecidableEq, Repr

/-- The MODEL's own fields: the environment as data. `moves` is the order in which the agents move,
`spiAnswers` the bytes the controller answers and `times` the samples of TIME, each in the order
they are drawn; a draw past the end of its list is a free value, numbered by `draws`. `faultPin` is
the level of the FAULT input. -/
@[ext]
structure Environment where
  moves : List Move
  spiAnswers : List Byte
  times : List Word
  draws : Nat
  faultPin : Bool
  deriving DecidableEq, Repr

/-- The whole machine: the configuration (constant), the host port registers (10_state.md R15), the
interrupt-enable bit (R16), the context stack CTX (R17) as the foreground's progress `fg` under the
contexts `stack`, innermost first, the model-fault set MFAULT (R19), the two engines, the
environment, and the trace, newest entry first (R33). -/
@[ext]
structure State where
  cfg : Config
  w : Word
  a : Word
  b : Word
  r : Word
  status : Byte
  ie : Bool
  fg : Progress
  stack : List Context
  mfault : List ModelFault
  te : TimingEngine
  bd : BusDriver
  env : Environment
  trace : List TraceEntry
  deriving DecidableEq, Repr

/-- The Timing Engine after reset (70_reset_and_hazards.md R130). -/
def TimingEngine.reset (c : Config) : TimingEngine where
  msg := List.replicate c.nSlots 0#32
  en  := List.replicate c.nSlots false
  spd := List.replicate c.nSlots false
  os  := List.replicate c.nSlots false
  curSlot := 0#8
  curBit  := 0#9
  curHalf := false
  curMsg  := 0#32
  curSpd  := false
  running := false
  go      := false
  wgPeriod  := 0
  wgDuty    := 0
  wgLPeriod := 0
  wgLDuty   := 0
  timerArmed := false
  tickPend  := false
  faultPend := false
  faultPrev := false

/-- The Bus Driver after reset (70_reset_and_hazards.md R130). EVT_REC 0 is the zero Message Event,
since EVT_KIND 0 is a Message Event. -/
def BusDriver.reset (c : Config) : BusDriver where
  sq := List.replicate c.mQueue MessageEvent.zero
  rq := List.replicate c.mQueue MessageEvent.zero
  eq := List.replicate c.eQueue ErrorEvent.zero
  sqNext := 0#8
  sqFree := 0#8
  rqNext := 0#8
  rqFree := 0#8
  eqNext := 0#8
  eqFree := 0#8
  inFlight   := false
  resvValid  := false
  savedIe    := false
  mhPresent  := false
  ehPresent  := false
  intAttached := false
  eqDraining := false
  rqDraining := false
  evtValid := false
  evtKind  := .message
  evtRec   := .message MessageEvent.zero

/-- An environment with nothing scripted: no agent is due to move, every draw is a free value, FAULT
is low. DESIGN CHOICE (notes/assumptions/4.md). -/
def Environment.quiet : Environment where
  moves := []
  spiAnswers := []
  times := []
  draws := 0
  faultPin := false

/-- The machine right after reset in configuration `c` (70_reset_and_hazards.md R130). -/
def State.resetWith (c : Config) : State where
  cfg := c
  w := 0#32
  a := 0#32
  b := 0#32
  r := 0#32
  status := 0#8
  ie := false
  fg := []
  stack := []
  mfault := []
  te := TimingEngine.reset c
  bd := BusDriver.reset c
  env := Environment.quiet
  trace := []

/-- The machine right after reset (70_reset_and_hazards.md R130), in the configuration
`Config.vectors` (notes/assumptions/2.md). -/
def State.reset : State := State.resetWith Config.vectors

end Sys2Proof.Machine
end

