-- ==== Sys2Proof/Machine/Flags.lean ====
section
/-! DEFINITION. The block has no arithmetic condition codes (10_state.md R32): what it computes as
flags are the STATUS codes, the controller flags it decodes, the queue conditions and the interrupt
sources' availability. -/

namespace Sys2Proof.Machine

/-- The STATUS codes a command writes (60_exceptions.md R118). -/
inductive StatusCode where
  | ok
  | illegal
  | badIdx
  | badFld
  | fail
  | full
  | timeout
  deriving DecidableEq, Repr

/-- The numbering of the STATUS codes (60_exceptions.md R118). -/
def StatusCode.code : StatusCode → Byte
  | .ok      => 0x00#8
  | .illegal => 0x01#8
  | .badIdx  => 0x02#8
  | .badFld  => 0x03#8
  | .fail    => 0x04#8
  | .full    => 0x05#8
  | .timeout => 0x06#8

/-- The CANINTF bits the block decodes (30_encoding.md R71): bit 5 error, bit 2 transmit complete,
bit 0 receive buffer 0 full. -/
def errorFlag (intf : Byte) : Bool := intf.getLsbD 5
def transmitFlag (intf : Byte) : Bool := intf.getLsbD 2
def receiveFlag (intf : Byte) : Bool := intf.getLsbD 0

/-- The CANINTE value `bd.start` writes: ERRIE, TX0IE and RX0IE (42_bd_commands.md R97). -/
def canIntEnable : Byte := 0x25#8

/-- A queue cursor moved on by one modulo the capacity; the cursor is 8 bits wide (10_state.md R28). -/
def bump (x : BitVec 8) (cap : Nat) : BitVec 8 :=
  BitVec.ofNat 8 ((x.toNat + 1) % cap)

/-- A queue is full iff (FREE + 1) mod cap = NEXT (10_state.md R28). -/
def queueFull (next free : BitVec 8) (cap : Nat) : Bool :=
  (free.toNat + 1) % cap == next.toNat

/-- A queue is empty iff NEXT = FREE (10_state.md R28). -/
def queueEmpty (next free : BitVec 8) : Bool :=
  next == free

/-- The number of live entries of a queue, (FREE − NEXT) mod cap (10_state.md R28). -/
def queueLive (next free : BitVec 8) (cap : Nat) : Nat :=
  (free.toNat + cap - next.toNat) % cap

/-- A vector is available under its own condition (60_exceptions.md R120). -/
def State.available (s : State) : Irq → Bool
  | .fault => s.te.faultPend
  | .tick  => s.te.tickPend
  | .can   => s.bd.intAttached

/-- The core may take vector `v`: IE = 1 and `v` is available (60_exceptions.md R121). -/
def State.mayTake (s : State) (v : Irq) : Bool :=
  s.ie && s.available v

end Sys2Proof.Machine
end

