-- ==== Sys2Proof/Machine/Operands.lean ====
section
/-! DEFINITION. Operand forms: slot resolution, record field codes, and the controller-side byte
layouts of identifiers and frames. -/

namespace Sys2Proof.Machine

/-- Slot resolution (40_te_commands.md R75); `none` is NONE. -/
def resolve (c : Config) (k : Byte) : Option Nat :=
  if k.toNat < c.nSlots then some k.toNat
  else
    match c.slotOorPolicy with
    | .clamp => some (c.nSlots - 1)
    | .ignore => none

/-- The fields of a Message Event record that `bd.fw` and `bd.fr` reach (30_encoding.md R61). -/
inductive Field where
  | ts
  | id
  | ext
  | rtr
  | len
  | data (j : Fin 8)
  deriving DecidableEq, Repr

/-- The record field codes (30_encoding.md R61); any other code is no field. -/
def fieldOf (f : Byte) : Option Field :=
  match f.toNat with
  | 0x00 => some .ts
  | 0x01 => some .id
  | 0x02 => some .ext
  | 0x03 => some .rtr
  | 0x04 => some .len
  | 0x08 => some (.data 0)
  | 0x09 => some (.data 1)
  | 0x0A => some (.data 2)
  | 0x0B => some (.data 3)
  | 0x0C => some (.data 4)
  | 0x0D => some (.data 5)
  | 0x0E => some (.data 6)
  | 0x0F => some (.data 7)
  | _ => none

/-- The record holds the field: DATA[j] of a j below MAX_PAYLOAD, and every other field (00_scope.md R6,
10_state.md R27). -/
def Field.held (c : Config) : Field → Bool
  | .data j => decide (j.val < c.maxPayload)
  | _ => true

/-- The field of a code that the record holds (30_encoding.md R61). -/
def heldField (c : Config) (f : Byte) : Option Field :=
  (fieldOf f).filter fun fld => fld.held c

/-- The low `n` bits of a word: an identifier of width `n`, the bits above the width ignored
(30_encoding.md R69). -/
def lowBits (n : Nat) (x : Word) : Word := x &&& BitVec.ofNat 32 (2 ^ n - 1)

/-- The identifier width that the EXT tag selects (00_scope.md R6, 10_state.md R27). -/
def idWidth (c : Config) (ext : Bool) : Nat := if ext then c.extIdBits else c.stdIdBits

/-- DATA[j] (10_state.md R27). -/
def Payload.get (d : Payload) : Fin 8 → Byte
  | 0 => d.d0
  | 1 => d.d1
  | 2 => d.d2
  | 3 => d.d3
  | 4 => d.d4
  | 5 => d.d5
  | 6 => d.d6
  | 7 => d.d7

/-- DATA[j] <- x (10_state.md R27). -/
def Payload.set (d : Payload) (j : Fin 8) (x : Byte) : Payload :=
  match j with
  | 0 => { d with d0 := x }
  | 1 => { d with d1 := x }
  | 2 => { d with d2 := x }
  | 3 => { d with d3 := x }
  | 4 => { d with d4 := x }
  | 5 => { d with d5 := x }
  | 6 => { d with d6 := x }
  | 7 => { d with d7 := x }

/-- DATA[0], ..., DATA[7] in order. -/
def Payload.toList (d : Payload) : List Byte :=
  [d.d0, d.d1, d.d2, d.d3, d.d4, d.d5, d.d6, d.d7]

/-- The payload of bytes `b 0`, `b 1`, ... as far as MAX_PAYLOAD goes (00_scope.md R6, 10_state.md R27). -/
def payloadOf (c : Config) (b : Nat → Byte) : Payload :=
  let d := fun j => if j < c.maxPayload then b j else 0x00#8
  ⟨d 0, d 1, d 2, d 3, d 4, d 5, d 6, d 7⟩

/-- A write takes the low bits of A that the field is wide (30_encoding.md R61, "write takes"); ID holds
the wider of the two identifier widths. -/
def MessageEvent.write (c : Config) (m : MessageEvent) (a : Word) : Field → MessageEvent
  | .ts     => { m with ts := a }
  | .id     => { m with id := (lowBits c.extIdBits a).setWidth 29 }
  | .ext    => { m with ext := a.getLsbD 0 }
  | .rtr    => { m with rtr := a.getLsbD 0 }
  | .len    => { m with len := a.setWidth 4 }
  | .data j => { m with data := m.data.set j (a.setWidth 8) }

/-- A read returns the field zero-extended (30_encoding.md R61, "read returns"). -/
def MessageEvent.read (m : MessageEvent) : Field → Word
  | .ts     => m.ts
  | .id     => m.id.setWidth 32
  | .ext    => (BitVec.ofBool m.ext).setWidth 32
  | .rtr    => (BitVec.ofBool m.rtr).setWidth 32
  | .len    => m.len.setWidth 32
  | .data j => (m.data.get j).setWidth 32

/-- An SIDL byte: identifier bits 2:0 in 7:5, EXIDE in 3, extended bits 17:16 in 1:0, the rest 0
(30_encoding.md R69). -/
def sidl (sid : BitVec 3) (exide : Bool) (eid : BitVec 2) : Byte :=
  sid ++ 0b0#1 ++ BitVec.ofBool exide ++ 0b0#1 ++ eid

/-- A DLC byte { 0b0, RTR, 0b00, LEN } (30_encoding.md R70). -/
def dlcByte (rtr : Bool) (len : BitVec 4) : Byte :=
  0b0#1 ++ BitVec.ofBool rtr ++ 0b00#2 ++ len

/-- StdBytes(id): SIDH, SIDL, EID8, EID0 of a standard identifier, EXIDE = 0 (30_encoding.md R69,
42_bd_commands.md R94). -/
def stdBytes (id : Word) : List Byte :=
  [id.extractLsb' 3 8, sidl (id.extractLsb' 0 3) false 0b00#2, 0x00#8, 0x00#8]

/-- ExtBytes(id): the four bytes of an extended identifier, EXIDE = 1 (30_encoding.md R69,
42_bd_commands.md R94). -/
def extBytes (id : Word) : List Byte :=
  [id.extractLsb' 21 8, sidl (id.extractLsb' 18 3) true (id.extractLsb' 16 2),
   id.extractLsb' 8 8, id.extractLsb' 0 8]

/-- StdMask(m) (42_bd_commands.md R94). -/
def stdMask (m : Word) : List Byte :=
  [m.extractLsb' 3 8, sidl (m.extractLsb' 0 3) false 0b00#2, 0x00#8, 0x00#8]

/-- ExtMask(m): bit 3 of SIDL is 0 in a mask (42_bd_commands.md R94). -/
def extMask (m : Word) : List Byte :=
  [m.extractLsb' 21 8, sidl (m.extractLsb' 18 3) false (m.extractLsb' 16 2),
   m.extractLsb' 8 8, m.extractLsb' 0 8]

/-- The identifier bytes of an outbound record, by its EXT tag (43_bd_interrupt.md R108). -/
def MessageEvent.idBytes (c : Config) (m : MessageEvent) : List Byte :=
  let id := lowBits (idWidth c m.ext) (m.id.setWidth 32)
  if m.ext then extBytes id else stdBytes id

/-- The DLC byte of an outbound record (43_bd_interrupt.md R108). -/
def MessageEvent.dlc (m : MessageEvent) : Byte := dlcByte m.rtr m.len

/-- The bytes of a frame in a controller buffer, SIDH to the last data byte: 13 of them at the source's
MAX_PAYLOAD (43_bd_interrupt.md R108, R109). -/
def frameBytes (c : Config) : Nat := 5 + c.maxPayload

/-- The bytes TXB0SIDH .. TXB0D7 of an outbound record (43_bd_interrupt.md R108). -/
def MessageEvent.txBytes (c : Config) (m : MessageEvent) : List Byte :=
  m.idBytes c ++ [m.dlc] ++ m.data.toList.take c.maxPayload

/-- The identifier in the bytes `b` of receive buffer 0, as its IDE bit says (30_encoding.md R69,
43_bd_interrupt.md R109). -/
def receivedId (b : Nat → Byte) : BitVec 29 :=
  if (b 1).getLsbD 3 then
    b 0 ++ (b 1).extractLsb' 5 3 ++ (b 1).extractLsb' 0 2 ++ b 2 ++ b 3
  else
    (b 0 ++ (b 1).extractLsb' 5 3).setWidth 29

/-- The Message Event read from the bytes `b` of receive buffer 0 at time `t`
(43_bd_interrupt.md R109). -/
def receivedEvent (c : Config) (b : Nat → Byte) (t : Word) : MessageEvent where
  ts := t
  id := (lowBits (idWidth c ((b 1).getLsbD 3)) ((receivedId b).setWidth 32)).setWidth 29
  ext := (b 1).getLsbD 3
  rtr := if (b 1).getLsbD 3 then (b 4).getLsbD 6 else (b 1).getLsbD 4
  len := (b 4).setWidth 4
  data := payloadOf c fun j => b (5 + j)

end Sys2Proof.Machine
end

