-- ==== Sys2Proof/Machine/Ops.lean ====
section
/-! DEFINITION. The named operations every meaning and every autonomous step is made of: the host port,
the context stack, the critical section, the SPI transfer primitive, the TIME draw, interrupt entry
and return, event delivery and acknowledgement, and access to slots and queues. -/

namespace Sys2Proof.Machine

/-- What a command's meaning answers. -/
abbrev Outcome := Host.Outcome State Fault Refusal

/-! ## The host port and the context stack -/

/-- `return (STATUS, R)`: a command ends by writing STATUS and R (10_state.md R15, 60_exceptions.md
R118). -/
def State.ret (s : State) (c : StatusCode) (r : Word) : State :=
  { s with status := c.code, r := r }

/-- The command progress of the innermost context; an interrupt context runs no command
(60_exceptions.md R126). -/
def State.progress (s : State) : Option Progress :=
  match s.stack with
  | [] => some s.fg
  | .handler _ prog :: _ => some prog
  | .isr _ _ :: _ => none

/-- The innermost context waits for the host's next command (60_exceptions.md R121, R126). -/
def State.awaiting (s : State) : Bool :=
  s.progress == some []

/-- Set the command progress of the innermost context. -/
def State.setProgress (s : State) (prog : Progress) : State :=
  match s.stack with
  | [] => { s with fg := prog }
  | .handler rec _ :: below => { s with stack := .handler rec prog :: below }
  | .isr _ _ :: _ => s

/-- Set the step position of the innermost interrupt context (10_state.md R17). -/
def State.setIsrPos (s : State) (pos : IsrPos) : State :=
  match s.stack with
  | .isr v _ :: below => { s with stack := .isr v pos :: below }
  | _ => s

/-- The critical section: save IE, clear it, restore the saved value (10_state.md R16,
40_te_commands.md R76, 43_bd_interrupt.md R106). -/
def critical (f : State → State) (s : State) : State :=
  { f { s with ie := false } with ie := s.ie }

/-- The moves the host makes at the command port, which need a context that waits for them
(60_exceptions.md R121, R126). -/
def Move.isHost : Move → Bool
  | .writeA _ => true
  | .writeB _ => true
  | .command _ => true
  | .core => false
  | .emit => false
  | .fault _ => false
  | .take _ => false

/-- `trace += e`; the trace keeps the newest entry first. -/
def State.emitTrace (s : State) (e : TraceEntry) : State :=
  { s with trace := e :: s.trace }

/-! ## Environment draws and the SPI transfer primitive -/

/-- In-byte `j` of the next SPI transaction: the scripted answer, else a free value
(43_bd_interrupt.md R107). -/
def State.answer (s : State) (j : Nat) : Byte :=
  (s.env.spiAnswers[j]?).getD (Config.freeByte (s.env.draws + j))

/-- `SPI(out)`: one atomic transaction inside the primitive's own critical section; it draws as many
in-bytes as it sends (43_bd_interrupt.md R106). The in-bytes are `State.answer` of the state before. -/
def State.spi (s : State) (out : List Byte) : State :=
  critical (fun s =>
    { s with
      trace := .spi out :: s.trace
      env.spiAnswers := s.env.spiAnswers.drop out.length
      env.draws := s.env.draws + out.length }) s

/-- `TIME()`: the next sample of the TIME input (60_exceptions.md R125). -/
def State.time (s : State) : Word :=
  s.env.times.headD (Config.freeTime s.env.draws)

/-- The environment after a sample of TIME was drawn. -/
def State.timeDrawn (s : State) : State :=
  { s with env.times := s.env.times.tail, env.draws := s.env.draws + 1 }

/-- READ(a, n) (30_encoding.md R72). -/
def readTx (c : Config) (addr : Byte) (n : Nat) : List Byte :=
  [c.regmap.instrRead, addr] ++ List.replicate n 0x00#8

/-- WRITE(a, ds) (30_encoding.md R72). -/
def writeTx (c : Config) (addr : Byte) (ds : List Byte) : List Byte :=
  [c.regmap.instrWrite, addr] ++ ds

/-- RESET and RTS0 (30_encoding.md R72). -/
def resetTx (c : Config) : List Byte := [c.regmap.instrReset]
def rts0Tx (c : Config) : List Byte := [c.regmap.instrRts0]

/-- READ_STATUS, which no operation of the block issues (30_encoding.md R72). -/
def readStatusTx (c : Config) : List Byte := [c.regmap.instrReadStatus, 0x00#8]

/-- `Transmit(i)`: load transmit buffer 0 with outbound record `i` and request its transmission
(43_bd_interrupt.md R108). -/
def State.transmit (s : State) (i : BitVec 8) : State :=
  (s.spi (writeTx s.cfg s.cfg.regmap.txb0
    ((s.bd.sq.getD i.toNat MessageEvent.zero).txBytes s.cfg))).spi (rts0Tx s.cfg)

/-! ## Interrupt entry and return, event delivery -/

/-- `Enter(v)`: taking an interrupt. The interrupted context keeps its own step position in its CTX
entry, IE is cleared (it is 1 at every entry, so nothing is saved) and the vector's pending bit is
cleared; the handler starts at its first step (60_exceptions.md R122). -/
def State.enter (s : State) (v : Irq) : State :=
  { s with
    stack := .isr v .start :: s.stack
    ie := false
    te.faultPend := if v = .fault then false else s.te.faultPend
    te.tickPend := if v = .tick then false else s.te.tickPend }

/-- The core takes vector `v` if it may, and otherwise nothing happens: the request is held
(60_exceptions.md R121). -/
def State.take (s : State) (v : Irq) : State :=
  if s.mayTake v then s.enter v else s

/-- `Return()`: the interrupt context is popped and IE is set, not restored (60_exceptions.md R123). -/
def State.interruptReturn (s : State) : State :=
  { s with stack := s.stack.tail, ie := true }

/-- `deliver(kind, rec)`: the port shows a copy of the record and a handler context opens
(43_bd_interrupt.md R113). -/
def State.deliver (s : State) (rec : EventRecord) : State :=
  { s with
    bd.evtValid := true
    bd.evtKind := rec.kind
    bd.evtRec := rec
    stack := .handler rec [] :: s.stack }

/-- The record of the innermost open delivery of a context stack. -/
def innermostDelivery : List Context → Option EventRecord
  | [] => none
  | .handler rec _ :: _ => some rec
  | .isr _ _ :: below => innermostDelivery below

/-- The event port shows the innermost open delivery, or EVT_VALID is cleared if there is none
(10_state.md R30, 42_bd_commands.md R105). -/
def State.restorePort (s : State) : State :=
  match innermostDelivery s.stack with
  | some rec => { s with bd.evtValid := true, bd.evtKind := rec.kind, bd.evtRec := rec }
  | none => { s with bd.evtValid := false }

/-! ## Slots and queues -/

/-- Act on the slot `k` resolves to, inside the critical section of a TE slot command; NONE changes
nothing (40_te_commands.md R75, R76). -/
def State.onSlot (s : State) (k : Byte) (f : TimingEngine → Nat → TimingEngine) : State :=
  critical (fun s =>
    match resolve s.cfg k with
    | some j => { s with te := f s.te j }
    | none => s) s

/-- NEXT and FREE of the queue a drain works on (43_bd_interrupt.md R112). -/
def BusDriver.next (d : BusDriver) : EventKind → BitVec 8
  | .error => d.eqNext
  | .message => d.rqNext
def BusDriver.free (d : BusDriver) : EventKind → BitVec 8
  | .error => d.eqFree
  | .message => d.rqFree

/-- GUARD and PRESENT of the queue a drain works on (43_bd_interrupt.md R112). -/
def BusDriver.draining (d : BusDriver) : EventKind → Bool
  | .error => d.eqDraining
  | .message => d.rqDraining
def BusDriver.present (d : BusDriver) : EventKind → Bool
  | .error => d.ehPresent
  | .message => d.mhPresent

/-- The oldest undelivered record of a queue, Q[NEXT] (43_bd_interrupt.md R112). -/
def BusDriver.oldest (d : BusDriver) : EventKind → EventRecord
  | .error => .error (d.eq.getD d.eqNext.toNat ErrorEvent.zero)
  | .message => .message (d.rq.getD d.rqNext.toNat MessageEvent.zero)

/-- Set the re-entrancy guard of a drain (43_bd_interrupt.md R112). -/
def BusDriver.setDraining (d : BusDriver) (q : EventKind) (g : Bool) : BusDriver :=
  match q with
  | .error => { d with eqDraining := g }
  | .message => { d with rqDraining := g }

/-- Advance NEXT of a queue (43_bd_interrupt.md R112). -/
def BusDriver.advanceNext (d : BusDriver) (c : Config) (q : EventKind) : BusDriver :=
  match q with
  | .error => { d with eqNext := bump d.eqNext c.eQueue }
  | .message => { d with rqNext := bump d.rqNext c.mQueue }

/-! ## Running a multi-step command -/

/-- The command goes on with the steps it has left, or ends with (OK, 0) when none is left. -/
def State.goOn (s : State) (rest : Progress) : State :=
  if rest.isEmpty then (s.setProgress []).ret .ok 0#32 else s.setProgress rest

/-- The next poll of `ModeChange(mode)` after `polls` of them, or (TIMEOUT, 0) when the cap is reached
(42_bd_commands.md R95). -/
def State.pollAgain (s : State) (mode : BitVec 3) (polls : Nat) (rest : Progress) : State :=
  if s.cfg.modePollCap = some polls then (s.setProgress []).ret .timeout 0#32
  else s.setProgress (.pollMode mode polls :: rest)

/-- The CANCTRL byte of a mode request, (mode << 5) | CANCTRL_AUX (42_bd_commands.md R95). -/
def modeByte (c : Config) (mode : BitVec 3) : Byte :=
  (mode ++ 0#5) ||| c.canctrlAux

/-- Run one step of the innermost context's command, `rest` being what is left after it. -/
def State.runMicro (s : State) (m : MicroStep) (rest : Progress) : State :=
  match m with
  | .releaseGo => (({ s with te.go := true }).emitTrace (.go true)).goOn rest
  | .transact out => (s.spi out).goOn rest
  | .requestMode mode =>
    (s.spi (writeTx s.cfg s.cfg.regmap.canctrl [modeByte s.cfg mode])).pollAgain mode 0 rest
  | .pollMode mode polls =>
    let after := s.spi (readTx s.cfg s.cfg.regmap.canstat 1)
    if (s.answer 2).extractLsb' 5 3 = mode then after.goOn rest
    else after.pollAgain mode (polls + 1) rest

/-- Issue a command made of `prog` alone: its first step runs at once. -/
def State.begin (s : State) (prog : Progress) : State :=
  match prog with
  | [] => s.ret .ok 0#32
  | m :: rest => s.runMicro m rest

end Sys2Proof.Machine
end

