-- ==== Sys2Proof/Machine/BusDriver.lean ====
section
/-! DEFINITION. The Bus Driver commands (42_bd_commands.md). -/

namespace Sys2Proof.Machine

/-- The steps of `FilterSeq(fbytes, mbytes)` (42_bd_commands.md R96). -/
def filterSeq (c : Config) (fbytes mbytes : List Byte) : Progress :=
  [.requestMode c.regmap.modeConfig,
   .transact (writeTx c c.regmap.rxf0 (fbytes ++ fbytes)),
   .transact (writeTx c c.regmap.rxm0 mbytes),
   .requestMode c.regmap.modeNormal]

/-- The steps of `bd.start` after its first (42_bd_commands.md R97). -/
def startSeq (c : Config) : Progress :=
  [.transact (resetTx c),
   .transact (writeTx c c.regmap.rxf0 (stdBytes 0#32 ++ stdBytes 0#32)),
   .transact (writeTx c c.regmap.rxm0 (stdMask 0#32)),
   .requestMode c.regmap.modeConfig,
   .transact (writeTx c c.regmap.caninte [canIntEnable]),
   .transact (writeTx c c.regmap.cnf3 [c.cnf3Val, c.cnf2Val, c.cnf1Val]),
   .requestMode c.regmap.modeNormal]

/-- STEP 1 of `bd.start`: the Bus Driver's cursors, flags and handlers (42_bd_commands.md R97). -/
def BusDriver.start (d : BusDriver) (hm he : Bool) : BusDriver :=
  { d with
    sqNext := 0#8
    sqFree := 0#8
    rqNext := 0#8
    rqFree := 0#8
    eqNext := 0#8
    eqFree := 0#8
    inFlight := false
    resvValid := false
    eqDraining := false
    rqDraining := false
    mhPresent := hm
    ehPresent := he
    intAttached := true }

/-- `bd.start hm, he` (42_bd_commands.md R97): STEP 1 at once, the transactions left to the context. -/
def execBdStart (hm he : Bool) (s : State) : Outcome :=
  .next (({ s with bd := s.bd.start hm he }).setProgress (startSeq s.cfg))

/-- `bd.filt.std id, mask` (42_bd_commands.md R98). -/
def execBdFiltStd (s : State) : Outcome :=
  .next (s.begin (filterSeq s.cfg (stdBytes (lowBits s.cfg.stdIdBits s.a))
    (stdMask (lowBits s.cfg.stdIdBits s.b))))

/-- `bd.filt.ext id, mask` (42_bd_commands.md R99). -/
def execBdFiltExt (s : State) : Outcome :=
  .next (s.begin (filterSeq s.cfg (extBytes (lowBits s.cfg.extIdBits s.a))
    (extMask (lowBits s.cfg.extIdBits s.b))))

/-- `bd.filt.clr` (42_bd_commands.md R100). -/
def execBdFiltClr (s : State) : Outcome :=
  .next (s.begin (filterSeq s.cfg (stdBytes 0#32) (stdMask 0#32)))

/-- The NULL pointer, 0xFF (20_memory.md R34, 42_bd_commands.md R101). -/
def nullPointer : Word := 0x000000FF#32

/-- `bd.prep` (42_bd_commands.md R101). -/
def execBdPrep (s : State) : Outcome :=
  if queueFull s.bd.sqNext s.bd.sqFree s.cfg.mQueue then .next (s.ret .full nullPointer)
  else
    .next (({ s with
      bd.savedIe :=
        if !s.bd.resvValid || s.cfg.prepareNestSave = PrepareNestSave.overwrite then s.ie else s.bd.savedIe
      bd.resvValid := true
      ie := false }).ret .ok (s.bd.sqFree.setWidth 32))

/-- `bd.fw p, f, value` (42_bd_commands.md R102). -/
def execBdFw (p f : Byte) (s : State) : Outcome :=
  if s.cfg.mQueue ≤ p.toNat then .next (s.ret .badIdx 0#32)
  else
    match heldField s.cfg f with
    | none => .next (s.ret .badFld 0#32)
    | some fld =>
      .next (({ s with
        bd.sq := s.bd.sq.set p.toNat
          ((s.bd.sq.getD p.toNat MessageEvent.zero).write s.cfg s.a fld) }).ret .ok 0#32)

/-- `bd.fr p, f` (42_bd_commands.md R103). -/
def execBdFr (p f : Byte) (s : State) : Outcome :=
  if s.cfg.mQueue ≤ p.toNat then .next (s.ret .badIdx 0#32)
  else
    match heldField s.cfg f with
    | none => .next (s.ret .badFld 0#32)
    | some fld => .next (s.ret .ok ((s.bd.sq.getD p.toNat MessageEvent.zero).read fld))

/-- The result of a failed commit, −1 as a 32-bit word (42_bd_commands.md R104). -/
def commitFailed : Word := 0xFFFFFFFF#32

/-- `bd.commit p` (42_bd_commands.md R104): the in-flight flag alone decides the send
(70_reset_and_hazards.md R139). -/
def execBdCommit (p : Byte) (s : State) : Outcome :=
  if s.bd.resvValid && p == s.bd.sqFree then
    let queued :=
      { s with bd.sqFree := bump s.bd.sqFree s.cfg.mQueue, bd.resvValid := false }
    let sent :=
      if s.bd.inFlight then queued
      else { queued.transmit queued.bd.sqNext with bd.inFlight := true }
    .next (({ sent with ie := s.bd.savedIe }).ret .ok 0#32)
  else .next (s.ret .fail commitFailed)

/-- `bd.ack` (42_bd_commands.md R105). -/
def execBdAck (s : State) : Outcome :=
  match s.stack with
  | .handler _ _ :: below => .next ((({ s with stack := below }).restorePort).ret .ok 0#32)
  | _ => .next (s.ret .illegal 0#32)

end Sys2Proof.Machine
end

