-- ==== Sys2Proof/Machine/Sequencer.lean ====
section
/-! DEFINITION. The Timing Engine's autonomous operations: load, tick, fault handler and the waveform
generator (41_te_sequencer.md). The sequencer acts on the engine's own context object only (10_state.md
R13). -/

namespace Sys2Proof.Machine

/-- A value stored in a generator register, WG_WIDTH bits wide (10_state.md R25). -/
def wgStore (c : Config) (n : Nat) : Nat := n % 2 ^ c.wgWidth

/-- The factor of the speed mode: periods and marks are doubled in low-speed mode (10_state.md R21,
41_te_sequencer.md R87). -/
def speedScale (spd : Bool) : Nat := if spd then 2 else 1

/-- The last signal bit of a half-cycle, SIGNAL_BITS - 1, written 17 in 41_te_sequencer.md R84 and R87. -/
def lastSignalBit (c : Config) : Nat := c.signalBits - 1

/-- `MarkOf(b)` of a message at base rate (41_te_sequencer.md R84); signal bit b is word bit b
(20_memory.md R41). -/
def markOf (c : Config) (msg : Word) (b : Nat) : Nat :=
  if b ≤ lastSignalBit c then
    if msg.getLsbD b then c.longMarkTicks else c.shortMarkTicks
  else 0

/-- The slots in the order the load step visits them: CUR_SLOT + 1 first, CUR_SLOT last
(41_te_sequencer.md R86). -/
def scanOrder (n cur : Nat) : List Nat :=
  (List.range n).map fun j => (cur + (j + 1)) % n

/-- The first enabled slot in scan order (41_te_sequencer.md R86). -/
def TimingEngine.nextEnabled (c : Config) (e : TimingEngine) : Option Nat :=
  (scanOrder c.nSlots e.curSlot.toNat).find? fun k => e.en.getD k false

/-- `Load()` (41_te_sequencer.md R86). -/
def TimingEngine.load (c : Config) (e : TimingEngine) : TimingEngine :=
  match e.nextEnabled c with
  | some k =>
    { e with
      curSlot := BitVec.ofNat 8 k
      curMsg := e.msg.getD k 0#32
      curSpd := e.spd.getD k false
      en := if e.os.getD k false then e.en.set k false else e.en }
  | none => { e with curMsg := c.idleMsg, curSpd := c.idleSpeed }

/-- The pause symbols of the current half-cycle (41_te_sequencer.md R85, R87). -/
def TimingEngine.pause (c : Config) (e : TimingEngine) : Nat :=
  if e.curHalf then c.waitUnits else c.gapUnits

/-- Steps (2) and (3) of the tick: advance the cursor, toggling the half-cycle after its last symbol and
loading at the wait-boundary (41_te_sequencer.md R87). -/
def TimingEngine.advance (c : Config) (e : TimingEngine) : TimingEngine :=
  if e.curBit.toNat = lastSignalBit c + e.pause c then
    if e.curHalf then TimingEngine.load c { e with curBit := 0#9, curHalf := false }
    else { e with curBit := 0#9, curHalf := true }
  else { e with curBit := e.curBit + 1#9 }

/-- Steps (1) and (4) of the tick: program the upcoming period, with the speed snapshot of before the
load or of after it (41_te_sequencer.md R87). -/
def TimingEngine.program (c : Config) (spdBefore : Bool) (e : TimingEngine) : TimingEngine :=
  { e with
    wgPeriod := wgStore c (c.unitTicks * speedScale
      (match c.periodSpeedSource with
        | .beforeLoad => spdBefore
        | .afterLoad => e.curSpd))
    wgDuty := wgStore c (markOf c e.curMsg e.curBit.toNat * speedScale e.curSpd) }

/-- `Tick()`, the handler of vector 2 (41_te_sequencer.md R87). -/
def TimingEngine.tick (c : Config) (e : TimingEngine) : TimingEngine :=
  if e.running then (e.advance c).program c e.curSpd else e

/-- Step 1 of a `te.start` that finds the engine stopped, IE apart; `level` is the FAULT input
(40_te_commands.md R77). -/
def TimingEngine.start (c : Config) (level : Bool) (e : TimingEngine) : TimingEngine :=
  let e := TimingEngine.load c { e with curSlot := BitVec.ofNat 8 (c.nSlots - 1) }
  { e with
    curBit := 0#9
    curHalf := false
    wgPeriod := wgStore c (c.unitTicks * speedScale e.curSpd)
    wgDuty := wgStore c (markOf c e.curMsg 0 * speedScale e.curSpd)
    tickPend := false
    faultPend := false
    faultPrev := level
    timerArmed := true
    running := true }

/-- The tick as the step of its interrupt context (41_te_sequencer.md R87). -/
def State.tick (s : State) : State :=
  { s with te := s.te.tick s.cfg }

/-- `Fault()`, the handler of vector 1 (41_te_sequencer.md R92). -/
def State.faultHandler (s : State) : State :=
  if s.te.running then
    ({ s with te.running := false, te.go := false }).emitTrace (.go false)
  else s

/-- `Emit()`: the generator's period boundary, which happens only while TIMER_ARMED = 1
(41_te_sequencer.md R89). -/
def State.emit (s : State) : State :=
  if s.te.timerArmed then
    { s with
      te.wgLPeriod := s.te.wgPeriod
      te.wgLDuty := s.te.wgDuty
      te.tickPend := true
      trace :=
        let trace := .period s.te.wgPeriod s.te.wgDuty :: s.trace
        if s.te.tickPend then .overrun :: trace else trace }
  else s

/-- `@fault`: FAULT changes to logical level `x`; a rising edge while RUNNING = 1 requests vector 1
(41_te_sequencer.md R91). -/
def State.sampleFault (s : State) (x : Bool) : State :=
  { s with
    env.faultPin := x
    te.faultPend := if !s.te.faultPrev && x && s.te.running then true else s.te.faultPend
    te.faultPrev := x }

end Sys2Proof.Machine
end

