-- ==== Sys2Proof/Machine/CanHandler.lean ====
section
/-! DEFINITION. The CAN interrupt handler with its drain loops (43_bd_interrupt.md R110 to R113), and
the one step of the innermost context that the core runs. -/

namespace Sys2Proof.Machine

/-- The error branch: queue an Error Event, or drop it silently when the queue is full
(43_bd_interrupt.md R110, R111). -/
def State.errorBranch (s : State) (eflg : Byte) : State :=
  if queueFull s.bd.eqNext s.bd.eqFree s.cfg.eQueue then s
  else
    { s.timeDrawn with
      bd.eq := s.bd.eq.set s.bd.eqFree.toNat ⟨s.time, eflg⟩
      bd.eqFree := bump s.bd.eqFree s.cfg.eQueue }

/-- The transmit-complete branch: free the completed frame's slot and send the next frame, if there is
one; a completion with nothing in flight is ignored (43_bd_interrupt.md R110). -/
def State.transmitBranch (s : State) : State :=
  if s.bd.inFlight then
    let s := { s with bd.sqNext := bump s.bd.sqNext s.cfg.mQueue }
    if queueEmpty s.bd.sqNext s.bd.sqFree then { s with bd.inFlight := false }
    else s.transmit s.bd.sqNext
  else s

/-- The receive branch: read receive buffer 0 into the inbound queue, or drop the frame unread when the
queue is full (43_bd_interrupt.md R109, R110, R111). -/
def State.receiveBranch (s : State) : State :=
  if queueFull s.bd.rqNext s.bd.rqFree s.cfg.mQueue then s
  else
    let read := s.spi (readTx s.cfg s.cfg.regmap.rxb0 (frameBytes s.cfg))
    { read.timeDrawn with
      bd.rq := read.bd.rq.set read.bd.rqFree.toNat
        (receivedEvent s.cfg (fun j => s.answer (2 + j)) read.time)
      bd.rqFree := bump read.bd.rqFree read.cfg.mQueue }

/-- STEP 1 of the CAN handler: read and clear CANINTF and EFLG in one transfer pair, then take the first
branch whose flag is set (43_bd_interrupt.md R110). -/
def State.canPhase1 (s : State) : State :=
  let intf := s.answer 2
  let eflg := s.answer 3
  let s := s.spi (readTx s.cfg s.cfg.regmap.canintf 2)
  let s := s.spi (writeTx s.cfg s.cfg.regmap.canintf [0x00#8, 0x00#8])
  if errorFlag intf then s.errorBranch eflg
  else if transmitFlag intf then s.transmitBranch
  else if receiveFlag intf then s.receiveBranch
  else s

/-- A drain has ended: the error drain is followed by the inbound drain, and that one by the return from
interrupt (43_bd_interrupt.md R110, R112). -/
def State.drainDone (s : State) (q : EventKind) : State :=
  match q with
  | .error => s.setIsrPos (.guard .message)
  | .message => s.interruptReturn

/-- The entry step of a drain: skip it when an outer drain of the queue is running
(43_bd_interrupt.md R112). -/
def State.drainGuard (s : State) (q : EventKind) : State :=
  if s.bd.draining q then s.drainDone q
  else ({ s with bd := s.bd.setDraining q true }).setIsrPos (.check q)

/-- The head of the drain loop: end on an empty queue, else deliver the oldest event to a registered
handler with IE = 1; with none registered the event is consumed (43_bd_interrupt.md R112). -/
def State.drainCheck (s : State) (q : EventKind) : State :=
  let s := { s with ie := false }
  if queueEmpty (s.bd.next q) (s.bd.free q) then
    ({ s with bd := s.bd.setDraining q false }).drainDone q
  else if s.bd.present q then
    (({ s with ie := true }).setIsrPos (.advance q)).deliver (s.bd.oldest q)
  else s.setIsrPos (.advance q)

/-- The step of the drain loop that advances NEXT, with IE = 0 (43_bd_interrupt.md R112). -/
def State.drainAdvance (s : State) (q : EventKind) : State :=
  ({ s with ie := false, bd := s.bd.advanceNext s.cfg q }).setIsrPos (.check q)

/-- The first step of a vector's handler (60_exceptions.md R120, R123): the tick and the fault handler
are one step each and return at once. -/
def State.isrStart (s : State) (v : Irq) : State :=
  match v with
  | .fault => s.faultHandler.interruptReturn
  | .tick => s.tick.interruptReturn
  | .can => s.canPhase1.setIsrPos (.guard .error)

/-- One step of an interrupt context at a step position (10_state.md R17). -/
def State.isrStep (s : State) (v : Irq) (pos : IsrPos) : State :=
  match pos with
  | .start => s.isrStart v
  | .guard q => s.drainGuard q
  | .check q => s.drainCheck q
  | .advance q => s.drainAdvance q

/-- The next step of the innermost context, the only one that executes (10_state.md R17). A context
that waits for the host's next command does nothing (70_reset_and_hazards.md R130). -/
def State.coreStep (s : State) : State :=
  match s.stack with
  | .isr v pos :: _ => s.isrStep v pos
  | _ =>
    match s.progress with
    | some (m :: rest) => s.runMicro m rest
    | _ => s

end Sys2Proof.Machine
end

