-- ==== Sys2Proof/Machine/CoreCommands.lean ====
section
/-! DEFINITION. The core interrupt-enable commands (44_core_commands.md) and the illegal command word
(30_encoding.md R60). -/

namespace Sys2Proof.Machine

/-- `ie.set` (44_core_commands.md R115). -/
def execIeSet (s : State) : Outcome :=
  .next (({ s with ie := true }).ret .ok 0#32)

/-- `ie.clr` (44_core_commands.md R116). -/
def execIeClr (s : State) : Outcome :=
  .next (({ s with ie := false }).ret .ok 0#32)

/-- "An illegal command changes no state except STATUS <- ILLEGAL and R <- 0" (30_encoding.md R60). -/
def State.illegalCommand (s : State) : State :=
  s.ret .illegal 0#32

end Sys2Proof.Machine
end

