-- ==== Sys2Proof/Machine/TimingEngine.lean ====
section
/-! DEFINITION. The Timing Engine commands (40_te_commands.md). -/

namespace Sys2Proof.Machine

/-- `te.start`: step 1 at once, step 2 left to the context; while RUNNING = 1 it is a model fault that
changes nothing else (40_te_commands.md R77, 60_exceptions.md R119). -/
def execTeStart (s : State) : Outcome :=
  if s.te.running then
    .next (({ s with mfault := s.mfault.insert .teRestartRunning }).ret .ok 0#32)
  else
    .next (({ s with te := s.te.start s.cfg s.env.faultPin, ie := true }).setProgress [.releaseGo])

/-- `te.wr k, msg` (40_te_commands.md R78). -/
def execTeWr (k : Byte) (s : State) : Outcome :=
  .next ((s.onSlot k fun e j => { e with msg := e.msg.set j s.a }).ret .ok 0#32)

/-- `te.rd k` (40_te_commands.md R79). -/
def execTeRd (k : Byte) (s : State) : Outcome :=
  .next ((s.onSlot k fun e _ => e).ret .ok
    (match resolve s.cfg k with
      | some j => s.te.msg.getD j 0#32
      | none => 0#32))

/-- `te.en k` (40_te_commands.md R80). -/
def execTeEn (k : Byte) (s : State) : Outcome :=
  .next ((s.onSlot k fun e j => { e with en := e.en.set j true }).ret .ok 0#32)

/-- `te.dis k` (40_te_commands.md R81). -/
def execTeDis (k : Byte) (s : State) : Outcome :=
  .next ((s.onSlot k fun e j => { e with en := e.en.set j false }).ret .ok 0#32)

/-- `te.speed k, v` (40_te_commands.md R82). -/
def execTeSpeed (k : Byte) (v : Bool) (s : State) : Outcome :=
  .next ((s.onSlot k fun e j => { e with spd := e.spd.set j v }).ret .ok 0#32)

/-- `te.oneshot k, v` (40_te_commands.md R83). -/
def execTeOneshot (k : Byte) (v : Bool) (s : State) : Outcome :=
  .next ((s.onSlot k fun e j => { e with os := e.os.set j v }).ret .ok 0#32)

end Sys2Proof.Machine
end

