-- ==== Sys2Proof/Machine/Dispatch.lean ====
section
/-! DEFINITION. The meaning of each command: one arm per constructor of `Instr`. -/

namespace Sys2Proof.Machine

def exec (i : Instr) (s : State) : Host.Outcome State Fault Refusal :=
  match i with
  | .teStart => Sys2Proof.Machine.execTeStart s
  | .teWr k => Sys2Proof.Machine.execTeWr k s
  | .teRd k => Sys2Proof.Machine.execTeRd k s
  | .teEn k => Sys2Proof.Machine.execTeEn k s
  | .teDis k => Sys2Proof.Machine.execTeDis k s
  | .teSpeed k v => Sys2Proof.Machine.execTeSpeed k v s
  | .teOneshot k v => Sys2Proof.Machine.execTeOneshot k v s
  | .bdStart hm he => Sys2Proof.Machine.execBdStart hm he s
  | .bdFiltStd => Sys2Proof.Machine.execBdFiltStd s
  | .bdFiltExt => Sys2Proof.Machine.execBdFiltExt s
  | .bdFiltClr => Sys2Proof.Machine.execBdFiltClr s
  | .bdPrep => Sys2Proof.Machine.execBdPrep s
  | .bdFw p f => Sys2Proof.Machine.execBdFw p f s
  | .bdFr p f => Sys2Proof.Machine.execBdFr p f s
  | .bdCommit p => Sys2Proof.Machine.execBdCommit p s
  | .bdAck => Sys2Proof.Machine.execBdAck s
  | .ieSet => Sys2Proof.Machine.execIeSet s
  | .ieClr => Sys2Proof.Machine.execIeClr s

end Sys2Proof.Machine
end

