-- ==== Sys2Proof/Machine/Step.lean ====
section
/-! DEFINITION. One step of the machine: the environment's next move, or the core's own next step. -/

namespace Sys2Proof.Machine

/-- The host's write of W issues the command: W is decoded and its command executed with A and B as
they stand (10_state.md R15, 30_encoding.md R56); an illegal word is refused by STATUS (R60). -/
def issue (w : Word) (s : State) : Host.Outcome State Fault Refusal :=
  match decode w with
  | .ok i => exec i { s with w := w }
  | .error _ => .next { s with w := w }.illegalCommand

/-- One move (30_encoding.md R73, 60_exceptions.md R121). -/
def applyMove (m : Move) (s : State) : Host.Outcome State Fault Refusal :=
  match m with
  | .core => .next s.coreStep
  | .emit => .next s.emit
  | .fault x => .next (s.sampleFault x)
  | .take v => .next (s.take v)
  | .writeA x => .next { s with a := x }
  | .writeB x => .next { s with b := x }
  | .command w => issue w s

/-- One step. A configuration that is not well-formed is refused (00_scope.md R8). With no move scripted
the core runs its next step; the host's writes wait until the innermost context waits for them. -/
def step (s : State) : Host.Outcome State Fault Refusal :=
  if s.cfg.wf then
    match s.env.moves with
    | [] => .next s.coreStep
    | m :: rest =>
      if m.isHost && !s.awaiting then .next s.coreStep
      else applyMove m { s with env.moves := rest }
  else .refused .illFormedConfig

/-- `s` with the command word of a table row as the host's next write of W, so that the next step issues
it; a context that could not take a command is replaced by the waiting foreground. -/
def State.withFetchWord (s : State) (nbits w : Nat) : State :=
  { s with
    fg := if s.awaiting then s.fg else []
    stack := if s.awaiting then s.stack else []
    env.moves := .command (tableWord nbits w) :: s.env.moves }

end Sys2Proof.Machine
end

