-- ==== Sys2Proof/Machine/Assembler.lean ====
section
/-! DEFINITION. The assembly notation of 30_encoding.md R73 and R74: a listing line as its text and as
the host's moves at the command port, and the two pseudo-instructions. -/

namespace Sys2Proof.Machine

/-- A listing line: a command with the operand words its format has (30_encoding.md R57, R73). -/
structure AsmLine where
  cmd : Instr
  a : Option Word
  b : Option Word
  deriving DecidableEq, Repr

/-- The host's moves for a line: the operand words, then the command word (30_encoding.md R73). -/
def AsmLine.moves (l : AsmLine) : List Move :=
  (l.a.map Move.writeA).toList ++ (l.b.map Move.writeB).toList ++ [.command (encode l.cmd)]

/-- A line whose command takes no operand word. -/
def line (i : Instr) : AsmLine := ⟨i, none, none⟩

/-- A line whose command takes operand word A. -/
def lineA (i : Instr) (a : Word) : AsmLine := ⟨i, some a, none⟩

/-- A line whose command takes operand words A and B. -/
def lineAB (i : Instr) (a b : Word) : AsmLine := ⟨i, some a, some b⟩

/-- The mnemonic of a command (30_encoding.md R59). -/
def mnemonic : Instr → String
  | .teStart => "te.start"
  | .teWr _ => "te.wr"
  | .teRd _ => "te.rd"
  | .teEn _ => "te.en"
  | .teDis _ => "te.dis"
  | .teSpeed _ _ => "te.speed"
  | .teOneshot _ _ => "te.oneshot"
  | .bdStart _ _ => "bd.start"
  | .bdFiltStd => "bd.filt.std"
  | .bdFiltExt => "bd.filt.ext"
  | .bdFiltClr => "bd.filt.clr"
  | .bdPrep => "bd.prep"
  | .bdFw _ _ => "bd.fw"
  | .bdFr _ _ => "bd.fr"
  | .bdCommit _ => "bd.commit"
  | .bdAck => "bd.ack"
  | .ieSet => "ie.set"
  | .ieClr => "ie.clr"

/-- A number of a listing, in decimal (30_encoding.md R73). -/
def number (n : Nat) : String := toString n

/-- A bit of a listing. -/
def bitText (b : Bool) : String := if b then "1" else "0"

/-- The name of a record field (30_encoding.md R73); a code with no name is written as its number. -/
def fieldText (f : Byte) : String :=
  match fieldOf f with
  | some .ts => "ts"
  | some .id => "id"
  | some .ext => "ext"
  | some .rtr => "rtr"
  | some .len => "len"
  | some (.data j) => "d" ++ number j.val
  | none => number f.toNat

/-- The operands of a line as its text writes them (30_encoding.md R73). -/
def AsmLine.operands (l : AsmLine) : List String :=
  (match l.cmd with
    | .teWr k | .teRd k | .teEn k | .teDis k | .bdCommit k => [number k.toNat]
    | .teSpeed k v | .teOneshot k v => [number k.toNat, bitText v]
    | .bdStart hm he => [bitText hm, bitText he]
    | .bdFw p f | .bdFr p f => [number p.toNat, fieldText f]
    | .teStart | .bdFiltStd | .bdFiltExt | .bdFiltClr | .bdPrep | .bdAck | .ieSet | .ieClr => [])
    ++ (l.a.map fun x => number x.toNat).toList ++ (l.b.map fun x => number x.toNat).toList

/-- The text of a line: the mnemonic, then the operands, comma-separated (30_encoding.md R73). -/
def AsmLine.text (l : AsmLine) : String :=
  match l.operands with
  | [] => mnemonic l.cmd
  | ops => mnemonic l.cmd ++ " " ++ String.intercalate ", " ops

/-- `te.load k, msg, spd, os` (30_encoding.md R74). -/
def teLoad (k : Byte) (msg : Word) (spd os : Bool) : List AsmLine :=
  [lineA (.teWr k) msg, line (.teSpeed k spd), line (.teOneshot k os), line (.teEn k)]

/-- The lines of `bd.send` after its `bd.prep` has returned `p`: none when `p` is NULL
(30_encoding.md R74). -/
def bdSendAfterPrep (p : Word) (id : Word) (ext rtr : Bool) (payload : List Byte) : List AsmLine :=
  if p = nullPointer then []
  else
    let i : Byte := p.setWidth 8
    [lineA (.bdFw i 0x01#8) id,
     lineA (.bdFw i 0x02#8) (if ext then 1#32 else 0#32),
     lineA (.bdFw i 0x03#8) (if rtr then 1#32 else 0#32),
     lineA (.bdFw i 0x04#8) (BitVec.ofNat 32 payload.length)]
      ++ payload.mapIdx (fun j d => lineA (.bdFw i (BitVec.ofNat 8 (8 + j))) (d.setWidth 32))
      ++ [line (.bdCommit i)]

end Sys2Proof.Machine
end

