-- ==== Sys2Proof/Machine/MessageFormat.lean ====
section
/-! DEFINITION. The message-word format, a data format the engine transmits and does not check
(30_encoding.md R62 to R67). The helpers are no operation of the block (00_scope.md R5). -/

namespace Sys2Proof.Machine

/-- The symbol of a base-3 digit: 0 is 00, 1 is 11, 2 is 01 (30_encoding.md R63, R64). -/
def trit (d : Nat) : BitVec 2 :=
  match d with
  | 0 => 0b00#2
  | 1 => 0b11#2
  | _ => 0b01#2

/-- The four trits of `v`, base-3 digit j in field bits 2j+1:2j (30_encoding.md R64). -/
def addressCode (v : Nat) : Byte :=
  trit (v / 27 % 3) ++ trit (v / 9 % 3) ++ trit (v / 3 % 3) ++ trit (v % 3)

/-- The address field (30_encoding.md R64): 80 has the code of 0, and an address outside 0..80 the code
`ADDR_INVALID_CODE`. -/
def addressField (c : Config) (a : Int) : Byte :=
  if a = 80 then addressCode 0
  else if 0 ≤ a ∧ a ≤ 79 then addressCode a.toNat
  else c.addrInvalidCode

/-- A bit doubled into a trit (30_encoding.md R65, R66). -/
def doubled (b : Bool) : BitVec 2 := if b then 0b11#2 else 0b00#2

/-- A nibble with each bit doubled, bit i in data trit i (30_encoding.md R65). -/
def nibbleField (n : BitVec 4) : Byte :=
  doubled (n.getLsbD 3) ++ doubled (n.getLsbD 2) ++ doubled (n.getLsbD 1) ++ doubled (n.getLsbD 0)

/-- The data field of a train command; a speed above 15 is sent as 15 (30_encoding.md R65). -/
def speedField (speed : Nat) : Byte := nibbleField (BitVec.ofNat 4 (min speed 15))

/-- A train command: data in word bits 17:10, function in 9:8, address in 7:0 (30_encoding.md R62,
R64, R65, R66). -/
def trainWord (c : Config) (address : Int) (speed : Nat) (function : Bool) : Word :=
  (speedField speed ++ doubled function ++ addressField c address).setWidth 32

/-- A switch command: the nibble is the state over the sub-address, the function field 0b00
(30_encoding.md R67). -/
def switchWord (c : Config) (address : Int) (sub : BitVec 3) (state : Bool) : Word :=
  (nibbleField (BitVec.ofBool state ++ sub) ++ 0b00#2 ++ addressField c address).setWidth 32

end Sys2Proof.Machine
end

