-- ==== Sys2Proof/Machine/Outputs.lean ====
section
/-! DEFINITION. What an observer outside the block sees at its pins (10_state.md R33, 41_te_sequencer.md
R90, 20_memory.md R40): the logical levels of the timing lines, the electrical levels the polarity
parameters of 00_scope.md R7 give them, and the bits of a transaction on the SPI wire. -/

namespace Sys2Proof.Machine

/-- DATA during the period being emitted, at generator count `n` of it: the mark level for the first
min(D, P) counts, the space level for the rest; the space level while the generator is stopped
(41_te_sequencer.md R90, 70_reset_and_hazards.md R130). -/
def State.dataMark (s : State) (n : Nat) : Bool :=
  s.te.timerArmed && decide (n < min s.te.wgLDuty s.te.wgLPeriod)

/-- The electrical level of a logical level, given the electrical level of logical 1. -/
def electrical (active level : Bool) : Bool :=
  if level then active else !active

/-- The DATA and GO pins (00_scope.md R3, R7). -/
def State.dataPin (s : State) (n : Nat) : Bool := electrical s.cfg.dataMarkLevel (s.dataMark n)
def State.goPin (s : State) : Bool := electrical s.cfg.goActiveLevel s.te.go

/-- The logical level of FAULT for an electrical level of its pin (00_scope.md R7
`FAULT_ACTIVE_EDGE`); `Move.fault` carries the logical level. -/
def faultLogical (c : Config) (pin : Bool) : Bool :=
  match c.faultActiveEdge with
  | .rising => pin
  | .falling => !pin

/-- The waveform reaches the rails only while GO = 1 (41_te_sequencer.md R90). -/
def State.railMark (s : State) (n : Nat) : Bool := s.te.go && s.dataMark n

/-- The bits of a byte in the order they go on the SPI wire, most significant first (20_memory.md R40). -/
def byteWire (x : Byte) : List Bool :=
  (List.range 8).map fun i => x.getLsbD (7 - i)

/-- The byte received as eight bits from the SPI wire, the first the most significant (20_memory.md R40). -/
def byteOfWire (bits : List Bool) : Byte :=
  bits.foldl (fun x b => (x <<< 1) ||| (if b then 1#8 else 0#8)) 0x00#8

/-- What happens on the SPI link in one transaction (43_bd_interrupt.md R106). -/
inductive SpiEvent where
  /-- Chip select is asserted. -/
  | select
  /-- One bit shifted out while one is shifted in. -/
  | bit (out : Bool)
  /-- Chip select is deasserted. -/
  | deselect
  deriving DecidableEq, Repr

/-- A transaction on the SPI link: one chip-select frame around its bytes in order, each most significant
bit first (20_memory.md R40, 43_bd_interrupt.md R106). -/
def spiFrame (out : List Byte) : List SpiEvent :=
  [.select] ++ (out.flatMap byteWire).map .bit ++ [.deselect]

/-- The SPI link of a trace entry; chip select stays deasserted outside a transaction
(70_reset_and_hazards.md R130). -/
def TraceEntry.spiEvents : TraceEntry → List SpiEvent
  | .spi out => spiFrame out
  | .go _ | .period _ _ | .overrun => []

/-- All that the SPI link has carried since reset, the oldest first (10_state.md R33). -/
def State.spiEvents (s : State) : List SpiEvent :=
  s.trace.reverse.flatMap TraceEntry.spiEvents

end Sys2Proof.Machine
end

