-- ==== Sys2Proof/Safety.lean ====
section
/-! DEFINITION. What counts as a safe machine, in the terms statements use: the invariants of the state
and the contract of a run, and the tables of the spec that statements compare the machine with. -/

namespace Sys2Proof.Machine

/-- The Timing Engine's storage has the size the configuration gives it and its cursor and generator
registers stay in range (10_state.md R20, R21, R22, R25; 41_te_sequencer.md R87 corner case (e)). -/
abbrev TimingEngine.Sized (c : Config) (e : TimingEngine) : Prop :=
  e.msg.length = c.nSlots ∧ e.en.length = c.nSlots ∧ e.spd.length = c.nSlots ∧
  e.os.length = c.nSlots ∧ e.curSlot.toNat < c.nSlots ∧
  e.curBit.toNat ≤ lastSignalBit c + e.pause c ∧
  e.wgPeriod < 2 ^ c.wgWidth ∧ e.wgDuty < 2 ^ c.wgWidth ∧
  e.wgLPeriod < 2 ^ c.wgWidth ∧ e.wgLDuty < 2 ^ c.wgWidth

/-- The queues have the size the configuration gives them and every cursor is below its capacity
(10_state.md R28). -/
abbrev BusDriver.Sized (c : Config) (d : BusDriver) : Prop :=
  d.sq.length = c.mQueue ∧ d.rq.length = c.mQueue ∧ d.eq.length = c.eQueue ∧
  d.sqNext.toNat < c.mQueue ∧ d.sqFree.toNat < c.mQueue ∧
  d.rqNext.toNat < c.mQueue ∧ d.rqFree.toNat < c.mQueue ∧
  d.eqNext.toNat < c.eQueue ∧ d.eqFree.toNat < c.eQueue

/-- Storage sizes and cursor ranges of both engines ("all structures are fixed-size", 10_state.md R14). -/
abbrev State.Sized (s : State) : Prop :=
  s.te.Sized s.cfg ∧ s.bd.Sized s.cfg

/-- The generator runs whenever the engine does, and no tick or fault request is pending before it was
armed (10_state.md R23, R25, R26). -/
abbrev State.GeneratorArmed (s : State) : Prop :=
  (s.te.running = true → s.te.timerArmed = true) ∧
  (s.te.tickPend = true → s.te.timerArmed = true) ∧
  (s.te.faultPend = true → s.te.timerArmed = true)

/-- A frame in flight is a live entry of the outbound queue, and a reservation has a slot to commit
(10_state.md R28, R29; 42_bd_commands.md R101). -/
abbrev State.SendQueueOk (s : State) : Prop :=
  s.bd.sqNext.toNat < s.cfg.mQueue ∧ s.bd.sqFree.toNat < s.cfg.mQueue ∧
  (s.bd.inFlight = true → queueEmpty s.bd.sqNext s.bd.sqFree = false) ∧
  (s.bd.resvValid = true → queueFull s.bd.sqNext s.bd.sqFree s.cfg.mQueue = false)

/-- A context stack whose innermost context could have been interrupted: the foreground, a handler, or a
drain between `bd.ack` and the step that advances its cursor (60_exceptions.md R124 (b)). -/
def interruptible : List Context → Bool
  | .isr _ (.advance _) :: _ => true
  | .isr _ _ :: _ => false
  | _ => true

/-- Only the CAN handler has a step after its first (60_exceptions.md R123). -/
def stepPosOk (v : Irq) (pos : IsrPos) : Bool :=
  pos == .start || v == .can

/-- A handler context stands on the drain that delivered its event, and every interrupt context on a
context that could be interrupted (60_exceptions.md R124). -/
def stackOk : List Context → Bool
  | [] => true
  | .handler rec _ :: below =>
    (match below with
      | .isr v (.advance q) :: _ => v == .can && q == rec.kind
      | _ => false) && stackOk below
  | .isr v pos :: below => stepPosOk v pos && interruptible below && stackOk below

/-- The discipline of the context stack: handlers run to completion with IE = 0, but for the drain's
delivery window (60_exceptions.md R124). -/
abbrev State.ContextsOk (s : State) : Prop :=
  stackOk s.stack = true ∧ (interruptible s.stack = false → s.ie = false)

/-- The event port shows the innermost open delivery, and EVT_VALID = 0 when none is open (10_state.md
R30, 42_bd_commands.md R105). -/
abbrev State.PortOk (s : State) : Prop :=
  s.bd.evtKind = s.bd.evtRec.kind ∧
  (match innermostDelivery s.stack with
    | some rec => s.bd.evtValid = true ∧ s.bd.evtRec = rec
    | none => s.bd.evtValid = false)

/-- A run inside the source's contract: no model fault was raised (60_exceptions.md R119). -/
abbrev State.InContract (s : State) : Prop :=
  s.mfault = []

/-! ## Tables of the spec, written out independently of the decoder and the meanings -/

/-- A command word of opcode `op` is illegal: the opcode is reserved, or a bit is nonzero in a field its
format marks 0 (30_encoding.md R57, R59, R60). -/
abbrev IllegalFields (op : Nat) (w : Word) : Prop :=
  (op = 0x00 ∨ (0x08 ≤ op ∧ op ≤ 0x0F) ∨ (0x19 ≤ op ∧ op ≤ 0x1F) ∨ 0x22 ≤ op) ∨
  (op ∈ [0x01, 0x11, 0x12, 0x13, 0x14, 0x18, 0x20, 0x21] ∧ w.extractLsb' 0 24 ≠ 0#24) ∨
  (op ∈ [0x02, 0x03, 0x04, 0x05, 0x17] ∧ w.extractLsb' 0 16 ≠ 0#16) ∨
  (op ∈ [0x06, 0x07] ∧ w.extractLsb' 1 15 ≠ 0#15) ∨
  (op = 0x10 ∧ w.extractLsb' 2 22 ≠ 0#22) ∨
  (op ∈ [0x15, 0x16] ∧ w.extractLsb' 0 8 ≠ 0#8)

/-- An illegal command word (30_encoding.md R60); the opcode is W[31:24] (R56). -/
abbrev IllegalWord (w : Word) : Prop := IllegalFields (w.extractLsb' 24 8).toNat w

/-- A record field code of 30_encoding.md R61 names a field of a record whose payload is MAX_PAYLOAD bytes:
every code below 0x08, and 0x08 + j of a payload byte j of it (00_scope.md R6). -/
def codeHeld (c : Config) (f : Byte) : Bool := decide (f.toNat < 0x08 + c.maxPayload)

/-- The record field codes with the bits of A a write takes, as a mask (30_encoding.md R61). -/
def fieldMasks (c : Config) : List (Byte × Word) :=
  [(0x00#8, 0xFFFFFFFF#32), (0x01#8, lowBits c.extIdBits 0x1FFFFFFF#32), (0x02#8, 0x00000001#32),
   (0x03#8, 0x00000001#32), (0x04#8, 0x0000000F#32), (0x08#8, 0x000000FF#32),
   (0x09#8, 0x000000FF#32), (0x0A#8, 0x000000FF#32), (0x0B#8, 0x000000FF#32),
   (0x0C#8, 0x000000FF#32), (0x0D#8, 0x000000FF#32), (0x0E#8, 0x000000FF#32),
   (0x0F#8, 0x000000FF#32)].filter fun p => codeHeld c p.1

/-- The record field codes with the value a read of them returns in R (30_encoding.md R61). -/
def fieldValues (c : Config) (m : MessageEvent) : List (Byte × Word) :=
  [(0x00#8, m.ts), (0x01#8, m.id.setWidth 32), (0x02#8, if m.ext then 1#32 else 0#32),
   (0x03#8, if m.rtr then 1#32 else 0#32), (0x04#8, m.len.setWidth 32),
   (0x08#8, m.data.d0.setWidth 32), (0x09#8, m.data.d1.setWidth 32),
   (0x0A#8, m.data.d2.setWidth 32), (0x0B#8, m.data.d3.setWidth 32),
   (0x0C#8, m.data.d4.setWidth 32), (0x0D#8, m.data.d5.setWidth 32),
   (0x0E#8, m.data.d6.setWidth 32), (0x0F#8, m.data.d7.setWidth 32)].filter fun p => codeHeld c p.1

/-- The length of one repetition cycle in symbols, 36 + GAP_UNITS + WAIT_UNITS at the source's 18 signal bits
(41_te_sequencer.md R85). -/
def cycleLength (c : Config) : Nat := 2 * c.signalBits + c.gapUnits + c.waitUnits

/-- The half-cycle of symbol `n` of a cycle: 0 for the first SIGNAL_BITS + GAP_UNITS symbols
(41_te_sequencer.md R85). -/
def symbolHalf (c : Config) (n : Nat) : Bool := decide (c.signalBits + c.gapUnits ≤ n)

/-- The symbol index of symbol `n` inside its half-cycle (41_te_sequencer.md R85). -/
def symbolBit (c : Config) (n : Nat) : Nat :=
  if c.signalBits + c.gapUnits ≤ n then n - (c.signalBits + c.gapUnits) else n

/-- `n` steps of the innermost context. -/
def coreSteps : Nat → State → State
  | 0, s => s
  | n + 1, s => coreSteps n s.coreStep

/-- `n` ticks of the sequencer. -/
def ticks (c : Config) : Nat → TimingEngine → TimingEngine
  | 0, e => e
  | n + 1, e => TimingEngine.tick c (ticks c n e)

/-- `n` loads of the sequencer. -/
def loads (c : Config) : Nat → TimingEngine → TimingEngine
  | 0, e => e
  | n + 1, e => TimingEngine.load c (loads c n e)

/-- The Timing Engine commands of 40_te_commands.md; the others of the table are Bus Driver commands or
the core's two. -/
def isTimingEngine : Instr → Bool
  | .teStart | .teWr _ | .teRd _ | .teEn _ | .teDis _ | .teSpeed _ _ | .teOneshot _ _ => true
  | _ => false

/-- The six slot commands (40_te_commands.md R76). -/
def isSlotCommand : Instr → Bool
  | .teWr _ | .teRd _ | .teEn _ | .teDis _ | .teSpeed _ _ | .teOneshot _ _ => true
  | _ => false

/-- The next step is the core's: no move is scripted, or the core's is the next, or a host move is held because
no context waits for it (60_exceptions.md R121, R126; notes/assumptions/3.md). -/
def State.coreRuns (s : State) : Prop :=
  s.env.moves = [] ∨
  ∃ m rest, s.env.moves = m :: rest ∧ (m = .core ∨ (m.isHost = true ∧ s.awaiting = false))

/-- The host's next move issues command `i`: the innermost context waits for it and W is about to be
written with a word that decodes to it. -/
def State.aboutToIssue (s : State) (i : Instr) : Prop :=
  ∃ w rest, s.awaiting = true ∧ s.env.moves = .command w :: rest ∧ decode w = .ok i

end Sys2Proof.Machine
end

