-- ==== Sys2Proof/Certificates/Slice0/Obligations.lean ====
section
/-! DEFINITION. The statements for the provers. Each says in its docstring which rules of spec/ it rests
on. "t = { s with x := t.x, ... }" is the frame of a step: every field of the state but the named ones is
as it was. -/

open Sys2Proof Sys2Proof.Machine

/-! ## Encoding -/

/-- Decoding the encoding of a command gives it back, with every operand at every value (30_encoding.md
R56 to R59). -/
def Obligations.DecodeInvertsEncode : Prop :=
  ∀ i : Instr, decode (encode i) = .ok i

/-- A word that decodes is the encoding of what it decodes to: the decoder ignores no bit (30_encoding.md
R56 to R60). -/
def Obligations.EncodeInvertsDecode : Prop :=
  ∀ (w : Word) (i : Instr), decode w = .ok i → encode i = w

/-- 30_encoding.md R60: exactly the words with a reserved opcode or a nonzero bit in a field their format
marks 0 are illegal, and issuing one changes nothing but STATUS <- ILLEGAL and R <- 0 (W holds the word
written, and the host's move is consumed; that it is the head of a list is the model's choice,
notes/assumptions/3.md). -/
def Obligations.IllegalWordChangesOnlyStatus : Prop :=
  ∀ (s : State) (w : Word) (rest : List Move), s.cfg.wf = true → s.awaiting = true →
    s.env.moves = .command w :: rest →
    ((∃ e, decode w = .error e) ↔ IllegalWord w) ∧
    (IllegalWord w →
      step s = .next { s with env.moves := rest, w := w, status := 0x01#8, r := 0#32 })

/-- Sample words written out from the opcode map (30_encoding.md R57, R59). -/
def Obligations.SampleWordsDecode : Prop :=
  decode 0x01000000#32 = .ok .teStart ∧ decode 0x06020001#32 = .ok (.teSpeed 2#8 true) ∧
  decode 0x10000002#32 = .ok (.bdStart false true) ∧
  decode 0x15030C00#32 = .ok (.bdFw 3#8 0x0C#8) ∧ decode 0x17050000#32 = .ok (.bdCommit 5#8) ∧
  decode 0x20000000#32 = .ok .ieSet ∧
  decode 0x06020002#32 = .error (.nonzeroField .kv) ∧
  decode 0x22000000#32 = .error (.reservedOpcode 0x22#8)

/-! ## The step -/

/-- A step runs the decoded command: when the innermost context waits for the host and the host writes a
word that decodes to `i`, the step is `exec i` with the host's move consumed and W holding the word
(10_state.md R15). That the host's next write is the head of a list is the model's choice
(notes/assumptions/3.md). -/
def Obligations.StepRunsDecodedCommand : Prop :=
  ∀ (s : State) (w : Word) (rest : List Move) (i : Instr), s.cfg.wf = true →
    s.awaiting = true → s.env.moves = .command w :: rest → decode w = .ok i →
    step s = exec i { s with env.moves := rest, w := w }

/-- While the innermost context does not wait for the host, a host move is held at the port and the core runs
its next step: a command is issued only when the context it is issued to waits for one (60_exceptions.md
R126). That the move stays at the head of the list is the model's choice (notes/assumptions/3.md). -/
def Obligations.BusyPortHoldsHostMove : Prop :=
  ∀ (s : State) (m : Move) (rest : List Move), s.cfg.wf = true → s.awaiting = false →
    s.env.moves = m :: rest → ((∃ x, m = .writeA x ∨ m = .writeB x) ∨ ∃ w, m = .command w) →
    ∃ t, step s = .next t ∧ t = s.coreStep ∧ t.env.moves = m :: rest

/-- Every command completes: none faults and none is refused ("each returns control to the issuing
context", 60_exceptions.md R118). -/
def Obligations.EveryCommandCompletes : Prop :=
  ∀ (i : Instr) (s : State), ∃ t, exec i s = .next t

/-- A step never faults, and it is refused exactly when the configuration violates a bound of
00_scope.md R7 or R8, or one of the bounds the model deduces: N_SLOTS ≥ 1 and E_QUEUE ≤ 256
(notes/assumptions/6.md), and the sizes of the layouts for the parameters of R6 (notes/assumptions/8.md). -/
def Obligations.StepRefusesOnlyIllFormedConfig : Prop :=
  ∀ s : State,
    (s.cfg.wf = true → ∃ t, step s = .next t) ∧
    (s.cfg.wf = false → step s = .refused .illFormedConfig)

/-- 10_state.md R15: "A and B are not changed by any command". A host write of A or of B at a waiting context
writes that word and nothing else, and no step changes A, B or W but the host's write of it. That the host's
write is the head of a list is the model's choice (notes/assumptions/3.md). -/
def Obligations.HostAloneWritesOperandWords : Prop :=
  (∀ (i : Instr) (s t : State), exec i s = .next t → t.a = s.a ∧ t.b = s.b ∧ t.w = s.w) ∧
  (∀ (s : State) (x : Word) (rest : List Move), s.cfg.wf = true → s.awaiting = true →
    (s.env.moves = .writeA x :: rest → step s = .next { s with env.moves := rest, a := x }) ∧
    (s.env.moves = .writeB x :: rest → step s = .next { s with env.moves := rest, b := x })) ∧
  (∀ s t : State, step s = .next t →
    (t.a ≠ s.a → ∃ rest, s.env.moves = .writeA t.a :: rest ∧ s.awaiting = true) ∧
    (t.b ≠ s.b → ∃ rest, s.env.moves = .writeB t.b :: rest ∧ s.awaiting = true) ∧
    (t.w ≠ s.w → ∃ rest, s.env.moves = .command t.w :: rest ∧ s.awaiting = true))

/-- "Neither engine calls the other" (00_scope.md R1): a Timing Engine command changes nothing of the Bus
Driver, and a Bus Driver or core command nothing of the Timing Engine, and no command changes the
configuration. -/
def Obligations.EnginesAreIndependent : Prop :=
  ∀ (i : Instr) (s t : State), exec i s = .next t →
    t.cfg = s.cfg ∧
    (isTimingEngine i = true → t.bd = s.bd) ∧ (isTimingEngine i = false → t.te = s.te)

/-! ## Timing Engine commands -/

/-- 40_te_commands.md R77: `te.start`. With the engine stopped, step 1 presets the cursor, loads, programs
the first period without truncation, clears the stale requests, samples FAULT, arms the generator, marks
the engine running and sets IE; step 2, the context's next step, releases GO and returns (OK, 0). While
RUNNING = 1 it is the model fault MF_TE_RESTART_RUNNING and changes nothing else. -/
def Obligations.TeStartTwoSteps : Prop :=
  decode 0x01000000#32 = .ok .teStart ∧
  ∀ s : State, s.cfg.wf = true → s.awaiting = true →
    (s.te.running = false →
      ∃ t, exec .teStart s = .next t ∧ t.progress = some [.releaseGo] ∧
        t = { s with te := t.te, ie := true, fg := t.fg, stack := t.stack } ∧
        (let l := TimingEngine.load s.cfg
            { s.te with curSlot := BitVec.ofNat 8 (s.cfg.nSlots - 1) }
        t.te = { l with
          curBit := 0#9
          curHalf := false
          wgPeriod := s.cfg.unitTicks * (if l.curSpd then 2 else 1)
          wgDuty := (if l.curMsg.getLsbD 0 then s.cfg.longMarkTicks else s.cfg.shortMarkTicks)
            * (if l.curSpd then 2 else 1)
          tickPend := false
          faultPend := false
          faultPrev := s.env.faultPin
          timerArmed := true
          running := true }) ∧
        t.coreStep = { t with
          te.go := true
          trace := .go true :: t.trace
          status := 0x00#8
          r := 0#32
          fg := s.fg
          stack := s.stack }) ∧
    (s.te.running = true →
      ∃ t, exec .teStart s = .next t ∧ ModelFault.teRestartRunning ∈ t.mfault ∧
        (∀ x, x ∈ s.mfault → x ∈ t.mfault) ∧
        t = { s with mfault := t.mfault, status := 0x00#8, r := 0#32 })

/-- 40_te_commands.md R78: `te.wr` (OP 0x02, k = W[23:16]) stores A whole in the slot its index resolves
to and in no other. -/
def Obligations.TeWrStoresWord : Prop :=
  ∀ (s : State) (k : Byte), s.cfg.wf = true → s.Sized →
    decode (0x02#8 ++ k ++ 0x0000#16) = .ok (.teWr k) ∧
    ∃ t, exec (.teWr k) s = .next t ∧
      t.te.msg.length = s.te.msg.length ∧
      (∀ n, n < s.cfg.nSlots →
        t.te.msg.getD n 0#32 =
          if resolve s.cfg k = some n then s.a else s.te.msg.getD n 0#32) ∧
      t = { s with te.msg := t.te.msg, status := 0x00#8, r := 0#32 }

/-- 40_te_commands.md R79: `te.rd` (OP 0x03, k = W[23:16]) returns the word of the slot its index resolves
to, 0 for NONE, and has no side effect. -/
def Obligations.TeRdReturnsWord : Prop :=
  ∀ (s : State) (k : Byte),
    decode (0x03#8 ++ k ++ 0x0000#16) = .ok (.teRd k) ∧
    (∀ n, resolve s.cfg k = some n →
      exec (.teRd k) s = .next { s with status := 0x00#8, r := s.te.msg.getD n 0#32 }) ∧
    (resolve s.cfg k = none →
      exec (.teRd k) s = .next { s with status := 0x00#8, r := 0#32 })

/-- 40_te_commands.md R80 and R81: `te.en` sets and `te.dis` clears the enable bit of the resolved slot and
of no other. -/
def Obligations.TeEnTeDisWriteEnableBit : Prop :=
  ∀ (s : State) (k : Byte), s.cfg.wf = true → s.Sized →
    decode (0x04#8 ++ k ++ 0x0000#16) = .ok (.teEn k) ∧
    decode (0x05#8 ++ k ++ 0x0000#16) = .ok (.teDis k) ∧
    (∃ t, exec (.teEn k) s = .next t ∧ t.te.en.length = s.te.en.length ∧
      (∀ n, n < s.cfg.nSlots →
        t.te.en.getD n false = (decide (resolve s.cfg k = some n) || s.te.en.getD n false)) ∧
      t = { s with te.en := t.te.en, status := 0x00#8, r := 0#32 }) ∧
    (∃ t, exec (.teDis k) s = .next t ∧ t.te.en.length = s.te.en.length ∧
      (∀ n, n < s.cfg.nSlots →
        t.te.en.getD n false = (!decide (resolve s.cfg k = some n) && s.te.en.getD n false)) ∧
      t = { s with te.en := t.te.en, status := 0x00#8, r := 0#32 })

/-- 40_te_commands.md R82 and R83: `te.speed` and `te.oneshot` set their mode bit of the resolved slot, and
of no other, to v. -/
def Obligations.TeSpeedTeOneshotWriteModeBit : Prop :=
  ∀ (s : State) (k : Byte) (v : Bool), s.cfg.wf = true → s.Sized →
    decode (0x06#8 ++ k ++ 0b000000000000000#15 ++ BitVec.ofBool v) = .ok (.teSpeed k v) ∧
    decode (0x07#8 ++ k ++ 0b000000000000000#15 ++ BitVec.ofBool v) = .ok (.teOneshot k v) ∧
    (∃ t, exec (.teSpeed k v) s = .next t ∧ t.te.spd.length = s.te.spd.length ∧
      (∀ n, n < s.cfg.nSlots →
        t.te.spd.getD n false = if resolve s.cfg k = some n then v else s.te.spd.getD n false) ∧
      t = { s with te.spd := t.te.spd, status := 0x00#8, r := 0#32 }) ∧
    (∃ t, exec (.teOneshot k v) s = .next t ∧ t.te.os.length = s.te.os.length ∧
      (∀ n, n < s.cfg.nSlots →
        t.te.os.getD n false = if resolve s.cfg k = some n then v else s.te.os.getD n false) ∧
      t = { s with te.os := t.te.os, status := 0x00#8, r := 0#32 })

/-- 40_te_commands.md R75 and 20_memory.md R35: an index below N_SLOTS resolves to itself; one at or above
it is ignored with (OK, 0) under IGNORE and acts as N_SLOTS − 1 under CLAMP, for every slot command. -/
def Obligations.OutOfRangeSlotPolicy : Prop :=
  ∀ (s : State) (k : Byte) (v : Bool), s.cfg.wf = true →
    (k.toNat < s.cfg.nSlots → resolve s.cfg k = some k.toNat) ∧
    (s.cfg.nSlots ≤ k.toNat →
      (s.cfg.slotOorPolicy = .ignore → resolve s.cfg k = none ∧
        ∀ i ∈ [Instr.teWr k, .teRd k, .teEn k, .teDis k, .teSpeed k v, .teOneshot k v],
          exec i s = .next { s with status := 0x00#8, r := 0#32 }) ∧
      (s.cfg.slotOorPolicy = .clamp → resolve s.cfg k = some (s.cfg.nSlots - 1) ∧
        (let l := BitVec.ofNat 8 (s.cfg.nSlots - 1)
        exec (.teWr k) s = exec (.teWr l) s ∧ exec (.teRd k) s = exec (.teRd l) s ∧
        exec (.teEn k) s = exec (.teEn l) s ∧ exec (.teDis k) s = exec (.teDis l) s ∧
        exec (.teSpeed k v) s = exec (.teSpeed l v) s ∧
        exec (.teOneshot k v) s = exec (.teOneshot l v) s)))

/-- 40_te_commands.md R76 and 20_memory.md R53: no slot command changes IE, the message being sent, the
cursor or the programmed period: a change of the table is never seen mid-message. -/
def Obligations.SlotCommandsKeepSnapshot : Prop :=
  ∀ (i : Instr) (s t : State), isSlotCommand i = true → exec i s = .next t →
    t.ie = s.ie ∧ t.stack = s.stack ∧ t.fg = s.fg ∧ t.status = 0x00#8 ∧
    t.te = { s.te with msg := t.te.msg, en := t.te.en, spd := t.te.spd, os := t.te.os }

/-! ## The sequencer -/

/-- 41_te_sequencer.md R86: `Load()` takes the first enabled slot after CUR_SLOT, the current slot visited
last, disabling a one-shot slot it loads, and loads the idle message when no slot is enabled. -/
def Obligations.LoadTakesNextEnabledSlot : Prop :=
  ∀ (c : Config) (e : TimingEngine), c.wf = true →
    (∀ j, 1 ≤ j → j ≤ c.nSlots →
      (∀ i, 1 ≤ i → i < j → e.en.getD ((e.curSlot.toNat + i) % c.nSlots) false = false) →
      e.en.getD ((e.curSlot.toNat + j) % c.nSlots) false = true →
      (let k := (e.curSlot.toNat + j) % c.nSlots
      (TimingEngine.load c e).curSlot.toNat = k ∧
      TimingEngine.load c e = { e with
        curSlot := (TimingEngine.load c e).curSlot
        curMsg := e.msg.getD k 0#32
        curSpd := e.spd.getD k false
        en := if e.os.getD k false then e.en.set k false else e.en })) ∧
    ((∀ k, k < c.nSlots → e.en.getD k false = false) →
      TimingEngine.load c e = { e with curMsg := c.idleMsg, curSpd := c.idleSpeed })

/-- 41_te_sequencer.md R87: the tick. With RUNNING = 0 it changes nothing. With RUNNING = 1 it ends the
half-cycle after its last symbol (17 + P at the source's SIGNAL_BITS; other values of the parameter are the
model's reading, notes/assumptions/8.md) and loads at the end of half-cycle 1, else advances the cursor, without
overflow; it programs the period from the speed snapshot PERIOD_SPEED_SOURCE names and the duty from the
new symbol, without truncation. -/
def Obligations.TickAdvancesAndPrograms : Prop :=
  ∀ (c : Config) (e : TimingEngine), c.wf = true → e.Sized c →
    (e.running = false → TimingEngine.tick c e = e) ∧
    (e.running = true →
      let t := TimingEngine.tick c e
      let atEnd := e.curBit.toNat = (c.signalBits - 1) + (if e.curHalf then c.waitUnits else c.gapUnits)
      let l := TimingEngine.load c e
      t.curBit.toNat = (if atEnd then 0 else e.curBit.toNat + 1) ∧
      t.curHalf = (if atEnd then !e.curHalf else e.curHalf) ∧
      (atEnd ∧ e.curHalf = true →
        t.curSlot = l.curSlot ∧ t.curMsg = l.curMsg ∧ t.curSpd = l.curSpd ∧ t.en = l.en) ∧
      (¬ (atEnd ∧ e.curHalf = true) →
        t.curSlot = e.curSlot ∧ t.curMsg = e.curMsg ∧ t.curSpd = e.curSpd ∧ t.en = e.en) ∧
      t.wgPeriod = c.unitTicks *
        (if (match c.periodSpeedSource with
          | .beforeLoad => e.curSpd
          | .afterLoad => t.curSpd) then 2 else 1) ∧
      t.wgDuty =
        (if t.curBit.toNat < c.signalBits then
          (if t.curMsg.getLsbD t.curBit.toNat then c.longMarkTicks else c.shortMarkTicks)
        else 0) * (if t.curSpd then 2 else 1) ∧
      t = { e with
        curSlot := t.curSlot
        curBit := t.curBit
        curHalf := t.curHalf
        curMsg := t.curMsg
        curSpd := t.curSpd
        en := t.en
        wgPeriod := t.wgPeriod
        wgDuty := t.wgDuty })

/-- 41_te_sequencer.md R85 and R88: from symbol 0 of half-cycle 0, the n-th tick programs symbol n of the
2 × SIGNAL_BITS + GAP_UNITS + WAIT_UNITS symbols of the cycle (the signal bits and the gap, then the same bits
and the wait) at the period and the marks of the message's speed mode, and the tick after the last wait symbol
programs bit 0 of half-cycle 0 of the message the load picks. At the source's SIGNAL_BITS that is 36 + GAP_UNITS +
WAIT_UNITS symbols; other values of the parameter are the model's reading (notes/assumptions/8.md). -/
def Obligations.CycleOfOneMessage : Prop :=
  ∀ (c : Config) (e : TimingEngine), c.wf = true → e.Sized c → e.running = true →
    e.curBit = 0#9 → e.curHalf = false →
    (∀ n, n < cycleLength c →
      let t := ticks c n e
      t.curHalf = symbolHalf c n ∧ t.curBit.toNat = symbolBit c n ∧
      t.curMsg = e.curMsg ∧ t.curSpd = e.curSpd ∧ t.curSlot = e.curSlot ∧ t.en = e.en ∧
      (1 ≤ n → t.wgPeriod = c.unitTicks * (if e.curSpd then 2 else 1) ∧
        t.wgDuty =
          (if symbolBit c n < c.signalBits then
            (if e.curMsg.getLsbD (symbolBit c n) then c.longMarkTicks else c.shortMarkTicks)
          else 0) * (if e.curSpd then 2 else 1))) ∧
    (let t := ticks c (cycleLength c) e
    let l := TimingEngine.load c e
    t.curHalf = false ∧ t.curBit = 0#9 ∧ t.curSlot = l.curSlot ∧ t.curMsg = l.curMsg ∧
    t.curSpd = l.curSpd ∧ t.en = l.en ∧
    t.wgDuty = (if l.curMsg.getLsbD 0 then c.longMarkTicks else c.shortMarkTicks)
      * (if l.curSpd then 2 else 1))

/-- 41_te_sequencer.md R93 items 1 to 3: a single enabled slot is loaded at every load, a one-shot slot
exactly once, and with no slot enabled every later tick leaves the idle message in place. -/
def Obligations.SlotPlaybackProperties : Prop :=
  ∀ (c : Config) (e : TimingEngine), c.wf = true → e.Sized c →
    (∀ k, k < c.nSlots → (∀ j, j < c.nSlots → e.en.getD j false = decide (j = k)) →
      (e.os.getD k false = false →
        ∀ n, (loads c (n + 1) e).curSlot.toNat = k ∧
          (loads c (n + 1) e).curMsg = e.msg.getD k 0#32 ∧ (loads c (n + 1) e).en = e.en) ∧
      (e.os.getD k false = true →
        (loads c 1 e).curSlot.toNat = k ∧ (loads c 1 e).curMsg = e.msg.getD k 0#32 ∧
        (∀ j, j < c.nSlots → (loads c 1 e).en.getD j false = false) ∧
        ∀ n, (loads c (n + 2) e).curMsg = c.idleMsg ∧
          (loads c (n + 2) e).curSpd = c.idleSpeed)) ∧
    ((∀ j, j < c.nSlots → e.en.getD j false = false) → e.curMsg = c.idleMsg →
      e.curSpd = c.idleSpeed →
      ∀ n, (ticks c n e).curMsg = c.idleMsg ∧ (ticks c n e).curSpd = c.idleSpeed)

/-- 41_te_sequencer.md R89: the generator's period boundary, which happens only while TIMER_ARMED = 1.
That the boundary is the head of a list, consumed without effect while TIMER_ARMED = 0, is the model's choice
(notes/assumptions/3.md). -/
def Obligations.EmitLatchesAndRaisesTick : Prop :=
  ∀ (s : State) (rest : List Move), s.cfg.wf = true → s.env.moves = .emit :: rest →
    (s.te.timerArmed = true →
      step s = .next { s with
        env.moves := rest
        te.wgLPeriod := s.te.wgPeriod
        te.wgLDuty := s.te.wgDuty
        te.tickPend := true
        trace := (if s.te.tickPend then [.overrun] else [])
          ++ .period s.te.wgPeriod s.te.wgDuty :: s.trace }) ∧
    (s.te.timerArmed = false → step s = .next { s with env.moves := rest })

/-- 41_te_sequencer.md R90, the DATA output: mark for the first min(D, P) counts of the period, space for
the rest; D = 0 is space only and D ≥ P mark only. -/
def Obligations.DataOutputMarksPeriod : Prop :=
  ∀ s : State, s.te.timerArmed = true →
    (∀ n, n < s.te.wgLPeriod →
      (s.dataMark n = true ↔ n < min s.te.wgLDuty s.te.wgLPeriod)) ∧
    ((List.range s.te.wgLPeriod).filter s.dataMark).length = min s.te.wgLDuty s.te.wgLPeriod ∧
    (s.te.wgLDuty = 0 → ∀ n, s.dataMark n = false) ∧
    (s.te.wgLPeriod ≤ s.te.wgLDuty → ∀ n, n < s.te.wgLPeriod → s.dataMark n = true)

/-- 41_te_sequencer.md R91: `@fault` latches a request on a rising edge while RUNNING = 1 only, and samples
the level. That the change of FAULT is the head of a list is the model's choice (notes/assumptions/3.md). -/
def Obligations.FaultEdgeRequestsOnlyWhileRunning : Prop :=
  ∀ (s : State) (x : Bool) (rest : List Move), s.cfg.wf = true →
    s.env.moves = .fault x :: rest →
    ∃ t, step s = .next t ∧ t.te.faultPrev = x ∧ t.env.faultPin = x ∧
      (s.te.faultPrev = false ∧ x = true ∧ s.te.running = true → t.te.faultPend = true) ∧
      (¬ (s.te.faultPrev = false ∧ x = true ∧ s.te.running = true) →
        t.te.faultPend = s.te.faultPend) ∧
      t = { s with
        env.moves := rest
        env.faultPin := x
        te.faultPend := t.te.faultPend
        te.faultPrev := x }

/-! ## Interrupts -/

/-- 60_exceptions.md R121 and R122: vector v is taken when IE = 1 and v is available; entry pushes its
context at step 0, clears IE and v's pending bit, and changes nothing else. Otherwise the request is
held. That the move is the head of a list and is then consumed without effect, and that entry is a step of its
own that ends before the handler's first step, are the model's choices (notes/assumptions/3.md and 13.md). -/
def Obligations.InterruptEntry : Prop :=
  ∀ (s : State) (v : Irq) (rest : List Move), s.cfg.wf = true → s.env.moves = .take v :: rest →
    (s.ie = true →
      (match v with
        | .fault => s.te.faultPend
        | .tick => s.te.tickPend
        | .can => s.bd.intAttached) = true →
      step s = .next { s with
        env.moves := rest
        stack := .isr v .start :: s.stack
        ie := false
        te.faultPend := s.te.faultPend && decide (v ≠ .fault)
        te.tickPend := s.te.tickPend && decide (v ≠ .tick) }) ∧
    (s.ie = false ∨
      (match v with
        | .fault => s.te.faultPend
        | .tick => s.te.tickPend
        | .can => s.bd.intAttached) = false →
      step s = .next { s with env.moves := rest })

/-- 60_exceptions.md R123 with 41_te_sequencer.md R87 and R92: the tick and the fault handler are one step
each and return at once, popping their context and setting IE. The fault handler stops a running engine and
its output, and changes nothing of a stopped one. -/
def Obligations.TickAndFaultHandlersReturn : Prop :=
  ∀ (s : State) (below : List Context),
    (s.stack = .isr .tick .start :: below →
      s.coreStep = { s with te := TimingEngine.tick s.cfg s.te, stack := below, ie := true }) ∧
    (s.stack = .isr .fault .start :: below →
      (s.te.running = true →
        s.coreStep = { s with
          te.running := false
          te.go := false
          trace := .go false :: s.trace
          stack := below
          ie := true }) ∧
      (s.te.running = false → s.coreStep = { s with stack := below, ie := true }))

/-! ## Bus Driver commands -/

/-- 42_bd_commands.md R97, for any REGMAP: `bd.start`. Step 1 resets the cursors and flags, installs the
handlers and attaches the interrupt line, sends nothing and keeps IE, SAVED_IE and the records; with a
controller that confirms each mode change at the first poll, nine more steps send the start sequence in order
and return (OK, 0). `s.answer n` is the n-th byte the controller answers from `s` on; that a poll and the test
of its answer are one step is the model's reading (notes/assumptions/13.md). -/
def Obligations.BdStartResetsAndSendsSequence : Prop :=
  ∀ (s : State) (hm he : Bool), s.cfg.wf = true → s.awaiting = true →
    let g := s.cfg.regmap
    ∃ t, exec (.bdStart hm he) s = .next t ∧
      t.bd = { s.bd with
        sqNext := 0#8
        sqFree := 0#8
        rqNext := 0#8
        rqFree := 0#8
        eqNext := 0#8
        eqFree := 0#8
        inFlight := false
        resvValid := false
        eqDraining := false
        rqDraining := false
        mhPresent := hm
        ehPresent := he
        intAttached := true } ∧
      t = { s with bd := t.bd, fg := t.fg, stack := t.stack } ∧
      ((s.answer 22).extractLsb' 5 3 = g.modeConfig → (s.answer 36).extractLsb' 5 3 = g.modeNormal →
        ∃ u, coreSteps 9 t = u ∧ u.awaiting = true ∧
          u.trace = [.spi [g.instrRead, g.canstat, 0x00#8],
            .spi [g.instrWrite, g.canctrl, (g.modeNormal ++ 0b00000#5) ||| s.cfg.canctrlAux],
            .spi [g.instrWrite, g.cnf3, s.cfg.cnf3Val, s.cfg.cnf2Val, s.cfg.cnf1Val],
            .spi [g.instrWrite, g.caninte, 0x25#8],
            .spi [g.instrRead, g.canstat, 0x00#8],
            .spi [g.instrWrite, g.canctrl, (g.modeConfig ++ 0b00000#5) ||| s.cfg.canctrlAux],
            .spi [g.instrWrite, g.rxm0, 0#8, 0#8, 0#8, 0#8],
            .spi [g.instrWrite, g.rxf0, 0#8, 0#8, 0#8, 0#8, 0#8, 0#8, 0#8, 0#8],
            .spi [g.instrReset]] ++ s.trace ∧
          u = { t with
            fg := s.fg
            stack := s.stack
            env := u.env
            trace := u.trace
            status := 0x00#8
            r := 0#32 })

/-- 42_bd_commands.md R96, R98, R99 and R100, for any REGMAP: the three filter commands run the
configuration-mode round trip. The first step requests configuration mode; with a controller that confirms each mode change at the
first poll, five more steps send the filter bytes twice, the mask bytes and the return to normal mode, and
the command returns (OK, 0). That issuing the command is itself the WRITE of CANCTRL, and that a poll and the
test of its answer are one step, is the model's reading (notes/assumptions/13.md); the identifier widths are
parameters (notes/assumptions/8.md). -/
def Obligations.FilterCommandsSendSequence : Prop :=
  ∀ (s : State) (i : Instr) (fb mb : List Byte), s.cfg.wf = true → s.awaiting = true →
    (i = .bdFiltStd ∧ fb = stdBytes (lowBits s.cfg.stdIdBits s.a) ∧
        mb = stdMask (lowBits s.cfg.stdIdBits s.b) ∨
      i = .bdFiltExt ∧ fb = extBytes (lowBits s.cfg.extIdBits s.a) ∧
        mb = extMask (lowBits s.cfg.extIdBits s.b) ∨
      i = .bdFiltClr ∧ fb = [0#8, 0#8, 0#8, 0#8] ∧ mb = [0#8, 0#8, 0#8, 0#8]) →
    let g := s.cfg.regmap
    let request := fun mode : BitVec 3 =>
      TraceEntry.spi [g.instrWrite, g.canctrl, (mode ++ 0b00000#5) ||| s.cfg.canctrlAux]
    ∃ t, exec i s = .next t ∧
      t.trace = request g.modeConfig :: s.trace ∧
      t.progress = some (.pollMode g.modeConfig 0 ::
        [.transact ([g.instrWrite, g.rxf0] ++ fb ++ fb), .transact ([g.instrWrite, g.rxm0] ++ mb),
          .requestMode g.modeNormal]) ∧
      t = { s with fg := t.fg, stack := t.stack, env := t.env, trace := t.trace } ∧
      ((s.answer 5).extractLsb' 5 3 = g.modeConfig → (s.answer 27).extractLsb' 5 3 = g.modeNormal →
        ∃ u, coreSteps 5 t = u ∧ u.awaiting = true ∧
          u.trace = [.spi [g.instrRead, g.canstat, 0x00#8], request g.modeNormal,
            .spi ([g.instrWrite, g.rxm0] ++ mb), .spi ([g.instrWrite, g.rxf0] ++ fb ++ fb),
            .spi [g.instrRead, g.canstat, 0x00#8], request g.modeConfig] ++ s.trace ∧
          u = { s with env := u.env, trace := u.trace, status := 0x00#8, r := 0#32 })

/-- 42_bd_commands.md R95: a poll of `ModeChange(mode)` reads CANSTAT; the command goes on when bits 7:5
are the mode, ends with (TIMEOUT, 0) when MODE_POLL_CAP polls have failed, and polls again otherwise, for
ever when the cap is INF. A confirmed poll with nothing after it, the last of `bd.start` and of the filter
commands (R96, R97), ends the command with (OK, 0). That the poll, the test of its answer and the test of the
cap are one step is the model's reading (notes/assumptions/13.md). -/
def Obligations.ModeChangePollsUntilConfirmed : Prop :=
  ∀ (s : State) (mode : BitVec 3) (n : Nat) (rest : Progress),
    s.progress = some (.pollMode mode n :: rest) →
    ∃ t, s.coreStep = t ∧
      t.trace = .spi [s.cfg.regmap.instrRead, s.cfg.regmap.canstat, 0x00#8] :: s.trace ∧
      t = { s with
        fg := t.fg, stack := t.stack, env := t.env, trace := t.trace, status := t.status, r := t.r } ∧
      t.stack.tail = s.stack.tail ∧
      ((s.answer 2).extractLsb' 5 3 = mode →
        t.progress = some rest ∧
        (rest ≠ [] → t.status = s.status ∧ t.r = s.r) ∧
        (rest = [] → t.status = 0x00#8 ∧ t.r = 0#32)) ∧
      ((s.answer 2).extractLsb' 5 3 ≠ mode →
        (s.cfg.modePollCap = some (n + 1) →
          t.progress = some [] ∧ t.status = 0x06#8 ∧ t.r = 0#32) ∧
        (s.cfg.modePollCap ≠ some (n + 1) →
          t.progress = some (.pollMode mode (n + 1) :: rest) ∧
          t.status = s.status ∧ t.r = s.r))

/-- 42_bd_commands.md R101: `bd.prep` answers (FULL, NULL) and changes nothing else when the queue is full;
else it returns SQ_FREE, saves IE unless a reservation is outstanding under KEEP_FIRST, clears IE and
sets RESV_VALID. -/
def Obligations.BdPrepReservesFreeSlot : Prop :=
  decode 0x14000000#32 = .ok .bdPrep ∧
  ∀ s : State,
    ((s.bd.sqFree.toNat + 1) % s.cfg.mQueue = s.bd.sqNext.toNat →
      exec .bdPrep s = .next { s with status := 0x05#8, r := 0x000000FF#32 }) ∧
    ((s.bd.sqFree.toNat + 1) % s.cfg.mQueue ≠ s.bd.sqNext.toNat →
      ∃ t, exec .bdPrep s = .next t ∧
        (s.bd.resvValid = false ∨ s.cfg.prepareNestSave = .overwrite → t.bd.savedIe = s.ie) ∧
        (s.bd.resvValid = true ∧ s.cfg.prepareNestSave = .keepFirst →
          t.bd.savedIe = s.bd.savedIe) ∧
        t = { s with
          ie := false
          bd.savedIe := t.bd.savedIe
          bd.resvValid := true
          status := 0x00#8
          r := s.bd.sqFree.setWidth 32 })

/-- 43_bd_interrupt.md R114 item 1 and 70_reset_and_hazards.md R137: two `bd.prep` in a row return the same
pointer; under OVERWRITE the second saves IE = 0, under KEEP_FIRST the first call's value is kept. -/
def Obligations.PrepTwiceReturnsSamePointer : Prop :=
  ∀ s t u : State, (s.bd.sqFree.toNat + 1) % s.cfg.mQueue ≠ s.bd.sqNext.toNat →
    exec .bdPrep s = .next t → exec .bdPrep t = .next u →
    u.r = t.r ∧ u.status = 0x00#8 ∧ u.bd.sqFree = s.bd.sqFree ∧ u.bd.sq = s.bd.sq ∧
    (s.cfg.prepareNestSave = .overwrite → u.bd.savedIe = false) ∧
    (s.cfg.prepareNestSave = .keepFirst → u.bd.savedIe = t.bd.savedIe)

/-- 42_bd_commands.md R102 and R103 with 30_encoding.md R61: `bd.fw` then `bd.fr` of a field returns the
bits of A the field takes; every other field of every other record reads as before, and `bd.fr` changes
nothing but STATUS and R. The table of codes is R61's; the payload length and the identifier width are
parameters (notes/assumptions/8.md). -/
def Obligations.FieldWriteThenRead : Prop :=
  ∀ (s : State) (p f : Byte) (m : Word), s.Sized → p.toNat < s.cfg.mQueue →
    (f, m) ∈ fieldMasks s.cfg →
    ∃ t, exec (.bdFw p f) s = .next t ∧
      t = { s with bd.sq := t.bd.sq, status := 0x00#8, r := 0#32 } ∧
      t.bd.sq.length = s.bd.sq.length ∧
      exec (.bdFr p f) t = .next { t with status := 0x00#8, r := s.a &&& m } ∧
      (∀ (q g : Byte) (x : Word), q.toNat < s.cfg.mQueue → (q ≠ p ∨ g ≠ f) →
        exec (.bdFr q g) s = .next { s with status := 0x00#8, r := x } →
        exec (.bdFr q g) t = .next { t with status := 0x00#8, r := x })

/-- 42_bd_commands.md R103 and 30_encoding.md R61: `bd.fr` of each field code answers (OK, the field of
record p that the code names, zero-extended). The codes and the record fields they name are those of the table
`fieldValues` (TS, ID, EXT, RTR, LEN and the payload bytes, as far as MAX_PAYLOAD goes, notes/assumptions/8.md). -/
def Obligations.FieldReadZeroExtends : Prop :=
  ∀ (s : State) (p f : Byte) (m : MessageEvent) (x : Word), p.toNat < s.cfg.mQueue →
    s.bd.sq[p.toNat]? = some m → (f, x) ∈ fieldValues s.cfg m →
    exec (.bdFr p f) s = .next { s with status := 0x00#8, r := x }

/-- 20_memory.md R36, 30_encoding.md R61 and 60_exceptions.md R118: a pointer at or above M_QUEUE is
refused with BADIDX, checked before the field code; an unknown field code with BADFLD. Nothing else
changes. That a code of a data byte beyond MAX_PAYLOAD is unknown is the model's reading of R6
(notes/assumptions/8.md). -/
def Obligations.BadPointerOrFieldRefused : Prop :=
  ∀ (s : State) (p f : Byte),
    (s.cfg.mQueue ≤ p.toNat →
      exec (.bdFw p f) s = .next { s with status := 0x02#8, r := 0#32 } ∧
      exec (.bdFr p f) s = .next { s with status := 0x02#8, r := 0#32 }) ∧
    (p.toNat < s.cfg.mQueue → (∀ m, (f, m) ∉ fieldMasks s.cfg) →
      exec (.bdFw p f) s = .next { s with status := 0x03#8, r := 0#32 } ∧
      exec (.bdFr p f) s = .next { s with status := 0x03#8, r := 0#32 })

/-- 42_bd_commands.md R104: `bd.commit` of the reserved slot advances SQ_FREE, ends the reservation, hands
the oldest frame over when none is in flight, and restores IE; any other commit fails and changes
nothing else, IE included. -/
def Obligations.BdCommitQueuesAndSends : Prop :=
  ∀ (s : State) (p : Byte),
    decode (0x17#8 ++ p ++ 0x0000#16) = .ok (.bdCommit p) ∧
    (s.bd.resvValid = true ∧ p = s.bd.sqFree →
      ∃ t, exec (.bdCommit p) s = .next t ∧
        t.trace = (if s.bd.inFlight then [] else
          [.spi [s.cfg.regmap.instrRts0],
           .spi ([s.cfg.regmap.instrWrite, s.cfg.regmap.txb0]
             ++ (s.bd.sq.getD s.bd.sqNext.toNat MessageEvent.zero).txBytes s.cfg)]) ++ s.trace ∧
        (s.bd.inFlight = true → t.env = s.env) ∧
        t = { s with
          bd.sqFree := BitVec.ofNat 8 ((s.bd.sqFree.toNat + 1) % s.cfg.mQueue)
          bd.resvValid := false
          bd.inFlight := true
          ie := s.bd.savedIe
          env := t.env
          trace := t.trace
          status := 0x00#8
          r := 0#32 }) ∧
    (s.bd.resvValid = false ∨ p ≠ s.bd.sqFree →
      exec (.bdCommit p) s = .next { s with status := 0x04#8, r := 0xFFFFFFFF#32 })

/-- 42_bd_commands.md R105: `bd.ack` in a handler context pops it and restores the port to the enclosing
delivery, or clears EVT_VALID; anywhere else it answers (ILLEGAL, 0). IE is not changed. -/
def Obligations.BdAckEndsHandler : Prop :=
  decode 0x18000000#32 = .ok .bdAck ∧
  ∀ s : State,
    (∀ rec prog below, s.stack = .handler rec prog :: below →
      ∃ t, exec .bdAck s = .next t ∧
        (∀ outer, innermostDelivery below = some outer →
          t.bd.evtValid = true ∧ t.bd.evtKind = outer.kind ∧ t.bd.evtRec = outer) ∧
        (innermostDelivery below = none → t.bd.evtValid = false) ∧
        t = { s with
          stack := below
          bd.evtValid := t.bd.evtValid
          bd.evtKind := t.bd.evtKind
          bd.evtRec := t.bd.evtRec
          status := 0x00#8
          r := 0#32 }) ∧
    ((∀ rec prog below, s.stack ≠ .handler rec prog :: below) →
      exec .bdAck s = .next { s with status := 0x01#8, r := 0#32 })

/-- 44_core_commands.md R115 and R116: `ie.set` sets and `ie.clr` clears IE and nothing else, and so does
the step after the host writes their words to W (the host's write as the head of a list is the model's
choice, notes/assumptions/3.md). -/
def Obligations.IeSetIeClrWriteIe : Prop :=
  ∀ (s : State) (rest : List Move),
    exec .ieSet s = .next { s with ie := true, status := 0x00#8, r := 0#32 } ∧
    exec .ieClr s = .next { s with ie := false, status := 0x00#8, r := 0#32 } ∧
    (s.cfg.wf = true → s.awaiting = true →
      (s.env.moves = .command 0x20000000#32 :: rest →
        step s = .next { s with
          ie := true, w := 0x20000000#32, env.moves := rest, status := 0x00#8, r := 0#32 }) ∧
      (s.env.moves = .command 0x21000000#32 :: rest →
        step s = .next { s with
          ie := false, w := 0x21000000#32, env.moves := rest, status := 0x00#8, r := 0#32 }))

/-! ## Frames on the wire -/

/-- 30_encoding.md R69 and 42_bd_commands.md R94: bit by bit, the four bytes of a standard and of an extended
identifier and of their masks; identifier bits above the width are ignored. -/
def Obligations.IdentifierBytesLayout : Prop :=
  ∀ id : Word,
    (∃ h l, stdBytes id = [h, l, 0x00#8, 0x00#8] ∧ stdMask id = [h, l, 0x00#8, 0x00#8] ∧
      ∀ i, i < 8 → h.getLsbD i = id.getLsbD (i + 3) ∧
        l.getLsbD i = (decide (5 ≤ i) && id.getLsbD (i - 5))) ∧
    (∃ h l m e8 e0, extBytes id = [h, l, e8, e0] ∧ extMask id = [h, m, e8, e0] ∧
      ∀ i, i < 8 → h.getLsbD i = id.getLsbD (i + 21) ∧
        l.getLsbD i = (if 5 ≤ i then id.getLsbD (i + 13)
          else if i = 3 then true
          else (decide (i < 2) && id.getLsbD (i + 16))) ∧
        m.getLsbD i = (if 5 ≤ i then id.getLsbD (i + 13)
          else (decide (i < 2) && id.getLsbD (i + 16))) ∧
        e8.getLsbD i = id.getLsbD (i + 8) ∧ e0.getLsbD i = id.getLsbD i)

/-- 43_bd_interrupt.md R108, for any REGMAP: `Transmit(i)` writes the bytes of the record to TXB0 in one
transaction (15 bytes at the source's MAX_PAYLOAD; the payload length and the identifier widths are parameters,
notes/assumptions/8.md), then requests the transmission; it changes neither a flag, a queue nor IE. On the SPI
link (20_memory.md R40, 43_bd_interrupt.md R106) that is two chip-select frames, each byte most significant bit
first. -/
def Obligations.TransmitSendsWholeFrame : Prop :=
  ∀ (s : State) (i : BitVec 8) (m : MessageEvent), s.cfg.wf = true →
    s.bd.sq.getD i.toNat MessageEvent.zero = m →
    (∃ out, (s.transmit i).trace = .spi [s.cfg.regmap.instrRts0] :: .spi out :: s.trace ∧
      out.length = 7 + s.cfg.maxPayload ∧
      out = [s.cfg.regmap.instrWrite, s.cfg.regmap.txb0]
        ++ (if m.ext then extBytes (lowBits s.cfg.extIdBits (m.id.setWidth 32))
          else stdBytes (lowBits s.cfg.stdIdBits (m.id.setWidth 32)))
        ++ [(if m.rtr then 0x40#8 else 0x00#8) ||| m.len.setWidth 8]
        ++ [m.data.d0, m.data.d1, m.data.d2, m.data.d3,
          m.data.d4, m.data.d5, m.data.d6, m.data.d7].take s.cfg.maxPayload ∧
      (s.transmit i).spiEvents = s.spiEvents ++ spiFrame out ++ spiFrame [s.cfg.regmap.instrRts0] ∧
      (spiFrame out).length = 8 * out.length + 2 ∧
      (spiFrame out)[0]? = some .select ∧ (spiFrame out)[8 * out.length + 1]? = some .deselect ∧
      ∀ j k, j < out.length → k < 8 →
        (spiFrame out)[1 + 8 * j + k]? = some (.bit ((out.getD j 0x00#8).getLsbD (7 - k)))) ∧
    s.transmit i = { s with env := (s.transmit i).env, trace := (s.transmit i).trace }

/-- 30_encoding.md R69, R70 and 43_bd_interrupt.md R108, R109. Bit by bit, the Message Event received in the
bytes b: EXT is SIDL bit 3; RTR is bit 6 of the DLC byte of an extended frame and SIDL bit 4 of a standard one;
the identifier's bits are those of its width; LEN is the DLC byte's low nibble; the payload bytes follow. And
receiving the bytes a record is sent as gives the record back, with the identifier of its width and no RTR flag
in a standard frame, whose SIDL bit 4 a transmission leaves 0. The identifier widths and the payload length are
parameters (notes/assumptions/8.md). -/
def Obligations.ReceiveInvertsTransmit : Prop :=
  ∀ (c : Config), c.wf = true →
    (∀ (b : Nat → Byte) (t : Word),
      let e := receivedEvent c b t
      e.ts = t ∧ e.ext = (b 1).getLsbD 3 ∧
      (e.ext = true → e.rtr = (b 4).getLsbD 6 ∧
        ∀ i, i < 29 → e.id.getLsbD i = (decide (i < c.extIdBits) &&
          if i < 8 then (b 3).getLsbD i else if i < 16 then (b 2).getLsbD (i - 8)
          else if i < 18 then (b 1).getLsbD (i - 16) else if i < 21 then (b 1).getLsbD (i - 13)
          else (b 0).getLsbD (i - 21))) ∧
      (e.ext = false → e.rtr = (b 1).getLsbD 4 ∧
        ∀ i, i < 29 → e.id.getLsbD i = (decide (i < c.stdIdBits) &&
          if i < 3 then (b 1).getLsbD (i + 5) else (b 0).getLsbD (i - 3))) ∧
      (∀ i, i < 4 → e.len.getLsbD i = (b 4).getLsbD i) ∧
      ∀ j, j < 8 → [e.data.d0, e.data.d1, e.data.d2, e.data.d3, e.data.d4, e.data.d5, e.data.d6,
        e.data.d7].getD j 0x00#8 = if j < c.maxPayload then b (5 + j) else 0x00#8) ∧
    (∀ (m : MessageEvent) (t : Word),
      receivedEvent c (fun j => (m.txBytes c).getD j 0x00#8) t =
        { m with
          ts := t
          id := m.id &&& BitVec.ofNat 29 (2 ^ (if m.ext then c.extIdBits else c.stdIdBits) - 1)
          rtr := m.ext && m.rtr
          data := payloadOf c fun j => m.data.toList.getD j 0x00#8 })

/-! ## The CAN interrupt handler -/

/-- 43_bd_interrupt.md R110 and R111, the error branch: after the READ and the WRITE of CANINTF and EFLG, an
Error Event with EFLG as read is queued at EQ_FREE, or dropped when the queue is full; the other flags are
lost. That the timestamp is the head of the list of scripted times is the model's choice
(notes/assumptions/5.md). -/
def Obligations.CanErrorBranch : Prop :=
  ∀ (s : State) (below : List Context), s.Sized → s.cfg.wf = true →
    s.stack = .isr .can .start :: below → (s.answer 2).getLsbD 5 = true →
    ∃ t, s.coreStep = t ∧
      t.trace = .spi [s.cfg.regmap.instrWrite, s.cfg.regmap.canintf, 0x00#8, 0x00#8]
        :: .spi [s.cfg.regmap.instrRead, s.cfg.regmap.canintf, 0x00#8, 0x00#8] :: s.trace ∧
      t = { s with
        stack := .isr .can (.guard .error) :: below
        bd.eq := t.bd.eq
        bd.eqFree := t.bd.eqFree
        env := t.env
        trace := t.trace } ∧
      ((s.bd.eqFree.toNat + 1) % s.cfg.eQueue ≠ s.bd.eqNext.toNat →
        (∃ ts, t.bd.eq = s.bd.eq.set s.bd.eqFree.toNat ⟨ts, s.answer 3⟩ ∧
          (∀ x xs, s.env.times = x :: xs → ts = x ∧ t.env.times = xs)) ∧
        t.bd.eqFree.toNat = (s.bd.eqFree.toNat + 1) % s.cfg.eQueue) ∧
      ((s.bd.eqFree.toNat + 1) % s.cfg.eQueue = s.bd.eqNext.toNat →
        t.bd = s.bd ∧ t.env.times = s.env.times)

/-- 43_bd_interrupt.md R110, the transmit-complete branch: the completed frame's slot is freed, the next
frame is sent if the cursors differ and IN_FLIGHT is cleared if they do not; with nothing in flight
nothing changes. -/
def Obligations.CanTransmitBranch : Prop :=
  ∀ (s : State) (below : List Context), s.stack = .isr .can .start :: below →
    (s.answer 2).getLsbD 5 = false → (s.answer 2).getLsbD 2 = true →
    ∃ t sent, s.coreStep = t ∧
      t.trace = sent ++ .spi [s.cfg.regmap.instrWrite, s.cfg.regmap.canintf, 0x00#8, 0x00#8]
        :: .spi [s.cfg.regmap.instrRead, s.cfg.regmap.canintf, 0x00#8, 0x00#8] :: s.trace ∧
      t = { s with
        stack := .isr .can (.guard .error) :: below
        bd := t.bd
        env := t.env
        trace := t.trace } ∧
      (s.bd.inFlight = false → t.bd = s.bd ∧ sent = []) ∧
      (s.bd.inFlight = true →
        let next := BitVec.ofNat 8 ((s.bd.sqNext.toNat + 1) % s.cfg.mQueue)
        (next ≠ s.bd.sqFree →
          t.bd = { s.bd with sqNext := next } ∧
          sent = [.spi [s.cfg.regmap.instrRts0],
            .spi ([s.cfg.regmap.instrWrite, s.cfg.regmap.txb0]
              ++ (s.bd.sq.getD next.toNat MessageEvent.zero).txBytes s.cfg)]) ∧
        (next = s.bd.sqFree →
          t.bd = { s.bd with sqNext := next, inFlight := false } ∧ sent = []))

/-- 43_bd_interrupt.md R109, R110 and R111, the receive branch: the bytes of RXB0 (13 at the source's
MAX_PAYLOAD, notes/assumptions/8.md) are read into the inbound record at RQ_FREE, field by field as
ReceiveInvertsTransmit says, or nothing is read when the queue is full; with no flag set no branch runs. That
the timestamp is the head of the list of scripted times is the model's choice (notes/assumptions/5.md). -/
def Obligations.CanReceiveBranch : Prop :=
  ∀ (s : State) (below : List Context), s.Sized → s.cfg.wf = true →
    s.stack = .isr .can .start :: below →
    (s.answer 2).getLsbD 5 = false → (s.answer 2).getLsbD 2 = false →
    ∃ t sent, s.coreStep = t ∧
      t.trace = sent ++ .spi [s.cfg.regmap.instrWrite, s.cfg.regmap.canintf, 0x00#8, 0x00#8]
        :: .spi [s.cfg.regmap.instrRead, s.cfg.regmap.canintf, 0x00#8, 0x00#8] :: s.trace ∧
      t = { s with
        stack := .isr .can (.guard .error) :: below
        bd.rq := t.bd.rq
        bd.rqFree := t.bd.rqFree
        env := t.env
        trace := t.trace } ∧
      ((s.answer 2).getLsbD 0 = true →
        (s.bd.rqFree.toNat + 1) % s.cfg.mQueue ≠ s.bd.rqNext.toNat →
        sent = [.spi ([s.cfg.regmap.instrRead, s.cfg.regmap.rxb0] ++ List.replicate (5 + s.cfg.maxPayload) 0x00#8)] ∧
        (∃ ts, t.bd.rq = s.bd.rq.set s.bd.rqFree.toNat
            (receivedEvent s.cfg (fun j => s.answer (10 + j)) ts) ∧
          (∀ x xs, s.env.times = x :: xs → ts = x ∧ t.env.times = xs)) ∧
        t.bd.rqFree.toNat = (s.bd.rqFree.toNat + 1) % s.cfg.mQueue) ∧
      ((s.answer 2).getLsbD 0 = true →
        (s.bd.rqFree.toNat + 1) % s.cfg.mQueue = s.bd.rqNext.toNat →
        sent = [] ∧ t.bd = s.bd ∧ t.env.times = s.env.times) ∧
      ((s.answer 2).getLsbD 0 = false → sent = [] ∧ t.bd = s.bd ∧ t.env.times = s.env.times)

/-- 43_bd_interrupt.md R112, the drain of the error queue: skipped when its guard is set; on an empty queue
it ends and the inbound drain follows; with a handler registered the oldest event is delivered with IE = 1
(R113), with none it is consumed; NEXT advances with IE = 0. Which of this happens in one step is the model's
reading (notes/assumptions/13.md). -/
def Obligations.ErrorDrainSteps : Prop :=
  ∀ (s : State) (below : List Context), s.cfg.wf = true → s.Sized →
    (s.stack = .isr .can (.guard .error) :: below →
      (s.bd.eqDraining = true →
        s.coreStep = { s with stack := .isr .can (.guard .message) :: below }) ∧
      (s.bd.eqDraining = false →
        s.coreStep =
          { s with stack := .isr .can (.check .error) :: below, bd.eqDraining := true })) ∧
    (s.stack = .isr .can (.check .error) :: below →
      (s.bd.eqNext = s.bd.eqFree →
        s.coreStep = { s with
          stack := .isr .can (.guard .message) :: below, bd.eqDraining := false, ie := false }) ∧
      (s.bd.eqNext ≠ s.bd.eqFree → s.bd.ehPresent = false →
        s.coreStep = { s with stack := .isr .can (.advance .error) :: below, ie := false }) ∧
      (s.bd.eqNext ≠ s.bd.eqFree → s.bd.ehPresent = true →
        ∃ rec, s.bd.eq[s.bd.eqNext.toNat]? = some rec ∧
          s.coreStep = { s with
            stack := .handler (.error rec) [] :: .isr .can (.advance .error) :: below
            ie := true
            bd.evtValid := true
            bd.evtKind := .error
            bd.evtRec := .error rec })) ∧
    (s.stack = .isr .can (.advance .error) :: below →
      ∃ t, s.coreStep = t ∧ t.bd.eqNext.toNat = (s.bd.eqNext.toNat + 1) % s.cfg.eQueue ∧
        t = { s with
          stack := .isr .can (.check .error) :: below, ie := false, bd.eqNext := t.bd.eqNext })

/-- 43_bd_interrupt.md R112, the drain of the inbound queue, which ends with the return from interrupt
(60_exceptions.md R123). That the drain's last step, a skipped guard or the break, includes the return is the
model's reading (notes/assumptions/13.md). -/
def Obligations.InboundDrainSteps : Prop :=
  ∀ (s : State) (below : List Context), s.cfg.wf = true → s.Sized →
    (s.stack = .isr .can (.guard .message) :: below →
      (s.bd.rqDraining = true → s.coreStep = { s with stack := below, ie := true }) ∧
      (s.bd.rqDraining = false →
        s.coreStep =
          { s with stack := .isr .can (.check .message) :: below, bd.rqDraining := true })) ∧
    (s.stack = .isr .can (.check .message) :: below →
      (s.bd.rqNext = s.bd.rqFree →
        s.coreStep = { s with stack := below, bd.rqDraining := false, ie := true }) ∧
      (s.bd.rqNext ≠ s.bd.rqFree → s.bd.mhPresent = false →
        s.coreStep = { s with stack := .isr .can (.advance .message) :: below, ie := false }) ∧
      (s.bd.rqNext ≠ s.bd.rqFree → s.bd.mhPresent = true →
        ∃ rec, s.bd.rq[s.bd.rqNext.toNat]? = some rec ∧
          s.coreStep = { s with
            stack := .handler (.message rec) [] :: .isr .can (.advance .message) :: below
            ie := true
            bd.evtValid := true
            bd.evtKind := .message
            bd.evtRec := .message rec })) ∧
    (s.stack = .isr .can (.advance .message) :: below →
      ∃ t, s.coreStep = t ∧ t.bd.rqNext.toNat = (s.bd.rqNext.toNat + 1) % s.cfg.mQueue ∧
        t = { s with
          stack := .isr .can (.check .message) :: below, ie := false, bd.rqNext := t.bd.rqNext })

/-! ## Reset and the invariants -/

/-- 70_reset_and_hazards.md R130: every element after reset, in every configuration. The environment's
fields are the model's own (notes/assumptions/4.md) and nothing is said of them. That the value 0 of EVT_REC is
the Message Event with every field 0 is the model's choice (notes/assumptions/21.md). -/
def Obligations.ResetValues : Prop :=
  ∀ c : Config, ∃ s, State.resetWith c = s ∧
    s.cfg = c ∧ s.w = 0#32 ∧ s.a = 0#32 ∧ s.b = 0#32 ∧ s.r = 0#32 ∧ s.status = 0x00#8 ∧
    s.ie = false ∧ s.fg = [] ∧ s.stack = [] ∧ s.mfault = [] ∧ s.trace = [] ∧
    (s.te.msg.length = c.nSlots ∧ ∀ k, s.te.msg.getD k 0#32 = 0#32) ∧
    (s.te.en.length = c.nSlots ∧ ∀ k, s.te.en.getD k false = false) ∧
    (s.te.spd.length = c.nSlots ∧ ∀ k, s.te.spd.getD k false = false) ∧
    (s.te.os.length = c.nSlots ∧ ∀ k, s.te.os.getD k false = false) ∧
    s.te.curSlot = 0#8 ∧ s.te.curBit = 0#9 ∧ s.te.curHalf = false ∧ s.te.curMsg = 0#32 ∧
    s.te.curSpd = false ∧ s.te.running = false ∧ s.te.go = false ∧ s.te.wgPeriod = 0 ∧
    s.te.wgDuty = 0 ∧ s.te.wgLPeriod = 0 ∧ s.te.wgLDuty = 0 ∧ s.te.timerArmed = false ∧
    s.te.tickPend = false ∧ s.te.faultPend = false ∧ s.te.faultPrev = false ∧
    (s.bd.sq.length = c.mQueue ∧ ∀ p, s.bd.sq.getD p MessageEvent.zero = MessageEvent.zero) ∧
    (s.bd.rq.length = c.mQueue ∧ ∀ p, s.bd.rq.getD p MessageEvent.zero = MessageEvent.zero) ∧
    (s.bd.eq.length = c.eQueue ∧ ∀ p, s.bd.eq.getD p ErrorEvent.zero = ErrorEvent.zero) ∧
    s.bd.sqNext = 0#8 ∧ s.bd.sqFree = 0#8 ∧ s.bd.rqNext = 0#8 ∧ s.bd.rqFree = 0#8 ∧
    s.bd.eqNext = 0#8 ∧ s.bd.eqFree = 0#8 ∧ s.bd.inFlight = false ∧ s.bd.resvValid = false ∧
    s.bd.savedIe = false ∧ s.bd.mhPresent = false ∧ s.bd.ehPresent = false ∧
    s.bd.intAttached = false ∧ s.bd.eqDraining = false ∧ s.bd.rqDraining = false ∧
    s.bd.evtValid = false ∧ s.bd.evtKind = .message ∧
    s.bd.evtRec = .message MessageEvent.zero

/-- The machine after reset meets every invariant below, in every well-formed configuration
(70_reset_and_hazards.md R130). That EVT_KIND is the kind of EVT_REC there, where EVT_VALID = 0, is the model's
choice (notes/assumptions/21.md), not R130's; the cursor's range at other values of SIGNAL_BITS than the source's is
the model's reading (notes/assumptions/8.md). -/
def Obligations.ResetMeetsInvariants : Prop :=
  ∀ c : Config, c.wf = true → ∃ s, State.resetWith c = s ∧
    s.Sized ∧ s.GeneratorArmed ∧ s.SendQueueOk ∧ s.ContextsOk ∧ s.PortOk ∧ s.InContract

/-- 10_state.md R14, R22, R25 and R28: every step keeps the storage sizes, the cursor ranges and the
generator registers' width. The range of CUR_BIT at other values of SIGNAL_BITS than the source's is the model's
reading (notes/assumptions/8.md). -/
def Obligations.StepKeepsStorageSized : Prop :=
  ∀ s t : State, s.Sized → step s = .next t → t.Sized

/-- 10_state.md R23 and R25: every step keeps the generator armed while the engine runs or a request is
pending. -/
def Obligations.StepKeepsGeneratorArmed : Prop :=
  ∀ s t : State, s.GeneratorArmed → step s = .next t → t.GeneratorArmed

/-- 10_state.md R28 and R29: every step keeps the outbound queue's discipline: a frame in flight is a live
entry, and a reservation has a slot to commit. -/
def Obligations.StepKeepsSendQueueOk : Prop :=
  ∀ s t : State, s.SendQueueOk → step s = .next t → t.SendQueueOk

/-- 60_exceptions.md R124 (a) and (b): every step keeps the discipline of the context stack. -/
def Obligations.StepKeepsContextsOk : Prop :=
  ∀ s t : State, s.ContextsOk → step s = .next t → t.ContextsOk

/-- 10_state.md R30: every step keeps the event port showing the innermost open delivery. That EVT_KIND is the
kind of EVT_REC while EVT_VALID = 0 too rests on the model's choices (notes/assumptions/12.md and 21.md). -/
def Obligations.StepKeepsPortOk : Prop :=
  ∀ s t : State, s.PortOk → step s = .next t → t.PortOk

/-! ## Rules of the whole machine -/

/-- 10_state.md R23: "once 'running,' it only halts via the fault interrupt". A step that clears RUNNING is
the fault handler's, and it clears GO too. RUNNING is set by `te.start` only. -/
def Obligations.RunningHaltsOnlyByFaultInterrupt : Prop :=
  ∀ s t : State, step s = .next t →
    (s.te.running = true → t.te.running = false →
      t.te.go = false ∧ ∃ below, s.stack = .isr .fault .start :: below) ∧
    (s.te.running = false → t.te.running = true → s.aboutToIssue .teStart)

/-- 10_state.md R24: GO is set only by the second step of `te.start` and cleared only by the fault
handler. -/
def Obligations.GoWrittenOnlyByStartAndFault : Prop :=
  ∀ s t : State, step s = .next t →
    (s.te.go = false → t.te.go = true → ∃ rest, s.progress = some (.releaseGo :: rest)) ∧
    (s.te.go = true → t.te.go = false → ∃ below, s.stack = .isr .fault .start :: below)

/-- 10_state.md R20 and R21: the message table is written by `te.wr` only, SPD by `te.speed` only, OS by
`te.oneshot` only. An EN bit is set by `te.en` only, and cleared by `te.dis` and the load step only: that of
`te.start`, and that of the tick at the wait-boundary, and by a load only when its OS bit is 1. The wait-boundary is
the symbol 17 + WAIT_UNITS of half-cycle 1 at the source's SIGNAL_BITS (41_te_sequencer.md R87); the symbol
SIGNAL_BITS − 1 + WAIT_UNITS at other values of the parameter is the model's reading (notes/assumptions/8.md). -/
def Obligations.TableWrittenOnlyByItsCommands : Prop :=
  ∀ s t : State, step s = .next t →
    (t.te.msg ≠ s.te.msg → ∃ k, s.aboutToIssue (.teWr k)) ∧
    (t.te.spd ≠ s.te.spd → ∃ k v, s.aboutToIssue (.teSpeed k v)) ∧
    (t.te.os ≠ s.te.os → ∃ k v, s.aboutToIssue (.teOneshot k v)) ∧
    (∀ j, s.te.en.getD j false = false → t.te.en.getD j false = true →
      ∃ k, s.aboutToIssue (.teEn k)) ∧
    (∀ j, s.te.en.getD j false = true → t.te.en.getD j false = false →
      (∃ k, s.aboutToIssue (.teDis k)) ∨
      (s.te.os.getD j false = true ∧ t.te.curSlot.toNat = j ∧
        (s.aboutToIssue .teStart ∨
          (∃ below, s.stack = .isr .tick .start :: below) ∧ s.te.curHalf = true ∧
            s.te.curBit.toNat = (s.cfg.signalBits - 1) + s.cfg.waitUnits)))

/-- 10_state.md R22: the playback cursor is mutated only by `te.start` and the tick, and by the tick only
while the engine runs (41_te_sequencer.md R87 (a)); so are the programmed generator registers. -/
def Obligations.CursorMovedOnlyByStartAndTick : Prop :=
  ∀ s t : State, step s = .next t →
    (t.te.curSlot ≠ s.te.curSlot ∨ t.te.curBit ≠ s.te.curBit ∨ t.te.curHalf ≠ s.te.curHalf ∨
      t.te.curMsg ≠ s.te.curMsg ∨ t.te.curSpd ≠ s.te.curSpd ∨
      t.te.wgPeriod ≠ s.te.wgPeriod ∨ t.te.wgDuty ≠ s.te.wgDuty) →
    (s.te.running = false ∧ s.aboutToIssue .teStart) ∨
    (s.te.running = true ∧ ∃ below, s.stack = .isr .tick .start :: below)

/-- 10_state.md R16: IE is written only by interrupt entry (which clears it), by the return of the fault and
of the tick handler, by the drain's check and advance steps, by the inbound drain's skipped guard, which
returns, and by `te.start`, `bd.prep`, `bd.commit`, `ie.set` and `ie.clr`. Which steps those are rests on the
model's step boundaries (notes/assumptions/13.md). -/
def Obligations.IeWrittenOnlyByItsWriters : Prop :=
  ∀ s t : State, step s = .next t → t.ie ≠ s.ie →
    (t.ie = false ∧ ∃ v rest, s.env.moves = .take v :: rest) ∨
    (s.coreRuns ∧ ∃ v pos below, s.stack = .isr v pos :: below ∧
      (pos = .start ∧ v ≠ .can ∧ t.ie = true ∧ t.stack = below ∨
        (∃ q, pos = .check q ∨ pos = .advance q) ∨
        pos = .guard .message ∧ s.bd.rqDraining = true ∧ t.ie = true ∧ t.stack = below)) ∨
    (∃ i, s.aboutToIssue i ∧
      (i = .teStart ∨ i = .bdPrep ∨ (∃ p, i = .bdCommit p) ∨ i = .ieSet ∨ i = .ieClr))

/-- Marks that no step takes back: MFAULT loses no name (10_state.md R19), TIMER_ARMED and INT_ATTACHED are
never cleared (R25, R29), the trace only grows (R33), and the configuration never changes (00_scope.md
R7). -/
def Obligations.StickyStateStays : Prop :=
  ∀ s t : State, step s = .next t →
    (∀ x, x ∈ s.mfault → x ∈ t.mfault) ∧
    (s.te.timerArmed = true → t.te.timerArmed = true) ∧
    (s.bd.intAttached = true → t.bd.intAttached = true) ∧
    (∃ new, t.trace = new ++ s.trace) ∧ t.cfg = s.cfg

/-! ## The message word -/

/-- 30_encoding.md R64: trit j of the code of an address 0..79, at field bits 2j+1:2j, is its base-3 digit j,
0 as 00, 1 as 11 and 2 as 01; 80 has the code of 0, and an address outside 0..80 the code ADDR_INVALID_CODE. So
the code of 0..80 holds no symbol 10 and is injective on 0..79. -/
def Obligations.AddressCodeProperties : Prop :=
  ∀ c : Config, c.wf = true →
    (∀ a j : Nat, a ≤ 79 → j < 4 →
      (a / 3 ^ j % 3 = 0 → (addressField c a).extractLsb' (2 * j) 2 = 0b00#2) ∧
      (a / 3 ^ j % 3 = 1 → (addressField c a).extractLsb' (2 * j) 2 = 0b11#2) ∧
      (a / 3 ^ j % 3 = 2 → (addressField c a).extractLsb' (2 * j) 2 = 0b01#2)) ∧
    (∀ a : Int, tritsOk (addressField c a) = true) ∧
    (∀ a b : Int, 0 ≤ a → a ≤ 79 → 0 ≤ b → b ≤ 79 → addressField c a = addressField c b → a = b) ∧
    addressField c 80 = addressField c 0 ∧
    (∀ a : Int, a < 0 ∨ 80 < a → addressField c a = c.addrInvalidCode)

/-- 30_encoding.md R62, R65, R66 and R67: where a train and a switch command hold their fields, with each
bit of the speed, the function and the nibble doubled. -/
def Obligations.MessageWordFields : Prop :=
  ∀ (c : Config) (a : Int) (v : Nat) (f t : Bool) (u : BitVec 3),
    (trainWord c a v f).extractLsb' 0 8 = addressField c a ∧
    (trainWord c a v f).extractLsb' 18 14 = 0#14 ∧
    (trainWord c a v f).extractLsb' 8 2 = (if f then 0b11#2 else 0b00#2) ∧
    (∀ i, i < 4 → (trainWord c a v f).extractLsb' (10 + 2 * i) 2 =
      if (min v 15).testBit i then 0b11#2 else 0b00#2) ∧
    (switchWord c a u t).extractLsb' 0 8 = addressField c a ∧
    (switchWord c a u t).extractLsb' 8 2 = 0b00#2 ∧
    (switchWord c a u t).extractLsb' 18 14 = 0#14 ∧
    (∀ i, i < 3 → (switchWord c a u t).extractLsb' (10 + 2 * i) 2 =
      if u.getLsbD i then 0b11#2 else 0b00#2) ∧
    (switchWord c a u t).extractLsb' 16 2 = (if t then 0b11#2 else 0b00#2)
end

