-- ==== Sys2Proof/Laws/State.lean ====
section
/-! SUPPORT. One lemma per field of the state for every shared update, so that no proof unfolds a record
update. -/

namespace Sys2Proof.Machine

/-! ## Updates that are plain records -/

@[simp] theorem State.ret_cfg (s : State) (c : StatusCode) (x : Word) : (s.ret c x).cfg = s.cfg := rfl
@[simp] theorem State.ret_w (s : State) (c : StatusCode) (x : Word) : (s.ret c x).w = s.w := rfl
@[simp] theorem State.ret_a (s : State) (c : StatusCode) (x : Word) : (s.ret c x).a = s.a := rfl
@[simp] theorem State.ret_b (s : State) (c : StatusCode) (x : Word) : (s.ret c x).b = s.b := rfl
@[simp] theorem State.ret_r (s : State) (c : StatusCode) (x : Word) : (s.ret c x).r = x := rfl
@[simp] theorem State.ret_status (s : State) (c : StatusCode) (x : Word) : (s.ret c x).status = c.code := rfl
@[simp] theorem State.ret_ie (s : State) (c : StatusCode) (x : Word) : (s.ret c x).ie = s.ie := rfl
@[simp] theorem State.ret_fg (s : State) (c : StatusCode) (x : Word) : (s.ret c x).fg = s.fg := rfl
@[simp] theorem State.ret_stack (s : State) (c : StatusCode) (x : Word) : (s.ret c x).stack = s.stack := rfl
@[simp] theorem State.ret_mfault (s : State) (c : StatusCode) (x : Word) : (s.ret c x).mfault = s.mfault := rfl
@[simp] theorem State.ret_te (s : State) (c : StatusCode) (x : Word) : (s.ret c x).te = s.te := rfl
@[simp] theorem State.ret_bd (s : State) (c : StatusCode) (x : Word) : (s.ret c x).bd = s.bd := rfl
@[simp] theorem State.ret_env (s : State) (c : StatusCode) (x : Word) : (s.ret c x).env = s.env := rfl
@[simp] theorem State.ret_trace (s : State) (c : StatusCode) (x : Word) : (s.ret c x).trace = s.trace := rfl

@[simp] theorem State.emitTrace_cfg (s : State) (e : TraceEntry) : (s.emitTrace e).cfg = s.cfg := rfl
@[simp] theorem State.emitTrace_w (s : State) (e : TraceEntry) : (s.emitTrace e).w = s.w := rfl
@[simp] theorem State.emitTrace_a (s : State) (e : TraceEntry) : (s.emitTrace e).a = s.a := rfl
@[simp] theorem State.emitTrace_b (s : State) (e : TraceEntry) : (s.emitTrace e).b = s.b := rfl
@[simp] theorem State.emitTrace_r (s : State) (e : TraceEntry) : (s.emitTrace e).r = s.r := rfl
@[simp] theorem State.emitTrace_status (s : State) (e : TraceEntry) : (s.emitTrace e).status = s.status := rfl
@[simp] theorem State.emitTrace_ie (s : State) (e : TraceEntry) : (s.emitTrace e).ie = s.ie := rfl
@[simp] theorem State.emitTrace_fg (s : State) (e : TraceEntry) : (s.emitTrace e).fg = s.fg := rfl
@[simp] theorem State.emitTrace_stack (s : State) (e : TraceEntry) : (s.emitTrace e).stack = s.stack := rfl
@[simp] theorem State.emitTrace_mfault (s : State) (e : TraceEntry) : (s.emitTrace e).mfault = s.mfault := rfl
@[simp] theorem State.emitTrace_te (s : State) (e : TraceEntry) : (s.emitTrace e).te = s.te := rfl
@[simp] theorem State.emitTrace_bd (s : State) (e : TraceEntry) : (s.emitTrace e).bd = s.bd := rfl
@[simp] theorem State.emitTrace_env (s : State) (e : TraceEntry) : (s.emitTrace e).env = s.env := rfl
@[simp] theorem State.emitTrace_trace (s : State) (e : TraceEntry) : (s.emitTrace e).trace = e :: s.trace := rfl

@[simp] theorem State.spi_cfg (s : State) (out : List Byte) : (s.spi out).cfg = s.cfg := rfl
@[simp] theorem State.spi_w (s : State) (out : List Byte) : (s.spi out).w = s.w := rfl
@[simp] theorem State.spi_a (s : State) (out : List Byte) : (s.spi out).a = s.a := rfl
@[simp] theorem State.spi_b (s : State) (out : List Byte) : (s.spi out).b = s.b := rfl
@[simp] theorem State.spi_r (s : State) (out : List Byte) : (s.spi out).r = s.r := rfl
@[simp] theorem State.spi_status (s : State) (out : List Byte) : (s.spi out).status = s.status := rfl
@[simp] theorem State.spi_ie (s : State) (out : List Byte) : (s.spi out).ie = s.ie := rfl
@[simp] theorem State.spi_fg (s : State) (out : List Byte) : (s.spi out).fg = s.fg := rfl
@[simp] theorem State.spi_stack (s : State) (out : List Byte) : (s.spi out).stack = s.stack := rfl
@[simp] theorem State.spi_mfault (s : State) (out : List Byte) : (s.spi out).mfault = s.mfault := rfl
@[simp] theorem State.spi_te (s : State) (out : List Byte) : (s.spi out).te = s.te := rfl
@[simp] theorem State.spi_bd (s : State) (out : List Byte) : (s.spi out).bd = s.bd := rfl
@[simp] theorem State.spi_env (s : State) (out : List Byte) : (s.spi out).env = { s.env with spiAnswers := s.env.spiAnswers.drop out.length, draws := s.env.draws + out.length } := rfl
@[simp] theorem State.spi_trace (s : State) (out : List Byte) : (s.spi out).trace = .spi out :: s.trace := rfl

@[simp] theorem State.timeDrawn_cfg (s : State) : (s.timeDrawn).cfg = s.cfg := rfl
@[simp] theorem State.timeDrawn_w (s : State) : (s.timeDrawn).w = s.w := rfl
@[simp] theorem State.timeDrawn_a (s : State) : (s.timeDrawn).a = s.a := rfl
@[simp] theorem State.timeDrawn_b (s : State) : (s.timeDrawn).b = s.b := rfl
@[simp] theorem State.timeDrawn_r (s : State) : (s.timeDrawn).r = s.r := rfl
@[simp] theorem State.timeDrawn_status (s : State) : (s.timeDrawn).status = s.status := rfl
@[simp] theorem State.timeDrawn_ie (s : State) : (s.timeDrawn).ie = s.ie := rfl
@[simp] theorem State.timeDrawn_fg (s : State) : (s.timeDrawn).fg = s.fg := rfl
@[simp] theorem State.timeDrawn_stack (s : State) : (s.timeDrawn).stack = s.stack := rfl
@[simp] theorem State.timeDrawn_mfault (s : State) : (s.timeDrawn).mfault = s.mfault := rfl
@[simp] theorem State.timeDrawn_te (s : State) : (s.timeDrawn).te = s.te := rfl
@[simp] theorem State.timeDrawn_bd (s : State) : (s.timeDrawn).bd = s.bd := rfl
@[simp] theorem State.timeDrawn_env (s : State) : (s.timeDrawn).env = { s.env with times := s.env.times.tail, draws := s.env.draws + 1 } := rfl
@[simp] theorem State.timeDrawn_trace (s : State) : (s.timeDrawn).trace = s.trace := rfl

@[simp] theorem State.transmit_cfg (s : State) (i : BitVec 8) : (s.transmit i).cfg = s.cfg := rfl
@[simp] theorem State.transmit_w (s : State) (i : BitVec 8) : (s.transmit i).w = s.w := rfl
@[simp] theorem State.transmit_a (s : State) (i : BitVec 8) : (s.transmit i).a = s.a := rfl
@[simp] theorem State.transmit_b (s : State) (i : BitVec 8) : (s.transmit i).b = s.b := rfl
@[simp] theorem State.transmit_r (s : State) (i : BitVec 8) : (s.transmit i).r = s.r := rfl
@[simp] theorem State.transmit_status (s : State) (i : BitVec 8) : (s.transmit i).status = s.status := rfl
@[simp] theorem State.transmit_ie (s : State) (i : BitVec 8) : (s.transmit i).ie = s.ie := rfl
@[simp] theorem State.transmit_fg (s : State) (i : BitVec 8) : (s.transmit i).fg = s.fg := rfl
@[simp] theorem State.transmit_stack (s : State) (i : BitVec 8) : (s.transmit i).stack = s.stack := rfl
@[simp] theorem State.transmit_mfault (s : State) (i : BitVec 8) : (s.transmit i).mfault = s.mfault := rfl
@[simp] theorem State.transmit_te (s : State) (i : BitVec 8) : (s.transmit i).te = s.te := rfl
@[simp] theorem State.transmit_bd (s : State) (i : BitVec 8) : (s.transmit i).bd = s.bd := rfl
@[simp] theorem State.transmit_trace (s : State) (i : BitVec 8) : (s.transmit i).trace = .spi (rts0Tx s.cfg) :: .spi (writeTx s.cfg s.cfg.regmap.txb0 ((s.bd.sq.getD i.toNat MessageEvent.zero).txBytes s.cfg)) :: s.trace := rfl

@[simp] theorem State.enter_cfg (s : State) (v : Irq) : (s.enter v).cfg = s.cfg := rfl
@[simp] theorem State.enter_w (s : State) (v : Irq) : (s.enter v).w = s.w := rfl
@[simp] theorem State.enter_a (s : State) (v : Irq) : (s.enter v).a = s.a := rfl
@[simp] theorem State.enter_b (s : State) (v : Irq) : (s.enter v).b = s.b := rfl
@[simp] theorem State.enter_r (s : State) (v : Irq) : (s.enter v).r = s.r := rfl
@[simp] theorem State.enter_status (s : State) (v : Irq) : (s.enter v).status = s.status := rfl
@[simp] theorem State.enter_ie (s : State) (v : Irq) : (s.enter v).ie = false := rfl
@[simp] theorem State.enter_fg (s : State) (v : Irq) : (s.enter v).fg = s.fg := rfl
@[simp] theorem State.enter_stack (s : State) (v : Irq) : (s.enter v).stack = .isr v .start :: s.stack := rfl
@[simp] theorem State.enter_mfault (s : State) (v : Irq) : (s.enter v).mfault = s.mfault := rfl
@[simp] theorem State.enter_te (s : State) (v : Irq) : (s.enter v).te = { s.te with faultPend := if v = .fault then false else s.te.faultPend, tickPend := if v = .tick then false else s.te.tickPend } := rfl
@[simp] theorem State.enter_bd (s : State) (v : Irq) : (s.enter v).bd = s.bd := rfl
@[simp] theorem State.enter_env (s : State) (v : Irq) : (s.enter v).env = s.env := rfl
@[simp] theorem State.enter_trace (s : State) (v : Irq) : (s.enter v).trace = s.trace := rfl

@[simp] theorem State.interruptReturn_cfg (s : State) : (s.interruptReturn).cfg = s.cfg := rfl
@[simp] theorem State.interruptReturn_w (s : State) : (s.interruptReturn).w = s.w := rfl
@[simp] theorem State.interruptReturn_a (s : State) : (s.interruptReturn).a = s.a := rfl
@[simp] theorem State.interruptReturn_b (s : State) : (s.interruptReturn).b = s.b := rfl
@[simp] theorem State.interruptReturn_r (s : State) : (s.interruptReturn).r = s.r := rfl
@[simp] theorem State.interruptReturn_status (s : State) : (s.interruptReturn).status = s.status := rfl
@[simp] theorem State.interruptReturn_ie (s : State) : (s.interruptReturn).ie = true := rfl
@[simp] theorem State.interruptReturn_fg (s : State) : (s.interruptReturn).fg = s.fg := rfl
@[simp] theorem State.interruptReturn_stack (s : State) : (s.interruptReturn).stack = s.stack.tail := rfl
@[simp] theorem State.interruptReturn_mfault (s : State) : (s.interruptReturn).mfault = s.mfault := rfl
@[simp] theorem State.interruptReturn_te (s : State) : (s.interruptReturn).te = s.te := rfl
@[simp] theorem State.interruptReturn_bd (s : State) : (s.interruptReturn).bd = s.bd := rfl
@[simp] theorem State.interruptReturn_env (s : State) : (s.interruptReturn).env = s.env := rfl
@[simp] theorem State.interruptReturn_trace (s : State) : (s.interruptReturn).trace = s.trace := rfl

@[simp] theorem State.deliver_cfg (s : State) (rec : EventRecord) : (s.deliver rec).cfg = s.cfg := rfl
@[simp] theorem State.deliver_w (s : State) (rec : EventRecord) : (s.deliver rec).w = s.w := rfl
@[simp] theorem State.deliver_a (s : State) (rec : EventRecord) : (s.deliver rec).a = s.a := rfl
@[simp] theorem State.deliver_b (s : State) (rec : EventRecord) : (s.deliver rec).b = s.b := rfl
@[simp] theorem State.deliver_r (s : State) (rec : EventRecord) : (s.deliver rec).r = s.r := rfl
@[simp] theorem State.deliver_status (s : State) (rec : EventRecord) : (s.deliver rec).status = s.status := rfl
@[simp] theorem State.deliver_ie (s : State) (rec : EventRecord) : (s.deliver rec).ie = s.ie := rfl
@[simp] theorem State.deliver_fg (s : State) (rec : EventRecord) : (s.deliver rec).fg = s.fg := rfl
@[simp] theorem State.deliver_stack (s : State) (rec : EventRecord) : (s.deliver rec).stack = .handler rec [] :: s.stack := rfl
@[simp] theorem State.deliver_mfault (s : State) (rec : EventRecord) : (s.deliver rec).mfault = s.mfault := rfl
@[simp] theorem State.deliver_te (s : State) (rec : EventRecord) : (s.deliver rec).te = s.te := rfl
@[simp] theorem State.deliver_bd (s : State) (rec : EventRecord) : (s.deliver rec).bd = { s.bd with evtValid := true, evtKind := rec.kind, evtRec := rec } := rfl
@[simp] theorem State.deliver_env (s : State) (rec : EventRecord) : (s.deliver rec).env = s.env := rfl
@[simp] theorem State.deliver_trace (s : State) (rec : EventRecord) : (s.deliver rec).trace = s.trace := rfl

@[simp] theorem State.tick_cfg (s : State) : (s.tick).cfg = s.cfg := rfl
@[simp] theorem State.tick_w (s : State) : (s.tick).w = s.w := rfl
@[simp] theorem State.tick_a (s : State) : (s.tick).a = s.a := rfl
@[simp] theorem State.tick_b (s : State) : (s.tick).b = s.b := rfl
@[simp] theorem State.tick_r (s : State) : (s.tick).r = s.r := rfl
@[simp] theorem State.tick_status (s : State) : (s.tick).status = s.status := rfl
@[simp] theorem State.tick_ie (s : State) : (s.tick).ie = s.ie := rfl
@[simp] theorem State.tick_fg (s : State) : (s.tick).fg = s.fg := rfl
@[simp] theorem State.tick_stack (s : State) : (s.tick).stack = s.stack := rfl
@[simp] theorem State.tick_mfault (s : State) : (s.tick).mfault = s.mfault := rfl
@[simp] theorem State.tick_te (s : State) : (s.tick).te = s.te.tick s.cfg := rfl
@[simp] theorem State.tick_bd (s : State) : (s.tick).bd = s.bd := rfl
@[simp] theorem State.tick_env (s : State) : (s.tick).env = s.env := rfl
@[simp] theorem State.tick_trace (s : State) : (s.tick).trace = s.trace := rfl

/-! ## Updates by cases -/

@[simp] theorem State.setProgress_cfg (s : State) (p : Progress) : (s.setProgress p).cfg = s.cfg := by
  unfold State.setProgress; split <;> rfl
@[simp] theorem State.setProgress_w (s : State) (p : Progress) : (s.setProgress p).w = s.w := by
  unfold State.setProgress; split <;> rfl
@[simp] theorem State.setProgress_a (s : State) (p : Progress) : (s.setProgress p).a = s.a := by
  unfold State.setProgress; split <;> rfl
@[simp] theorem State.setProgress_b (s : State) (p : Progress) : (s.setProgress p).b = s.b := by
  unfold State.setProgress; split <;> rfl
@[simp] theorem State.setProgress_r (s : State) (p : Progress) : (s.setProgress p).r = s.r := by
  unfold State.setProgress; split <;> rfl
@[simp] theorem State.setProgress_status (s : State) (p : Progress) : (s.setProgress p).status = s.status := by
  unfold State.setProgress; split <;> rfl
@[simp] theorem State.setProgress_ie (s : State) (p : Progress) : (s.setProgress p).ie = s.ie := by
  unfold State.setProgress; split <;> rfl
@[simp] theorem State.setProgress_mfault (s : State) (p : Progress) : (s.setProgress p).mfault = s.mfault := by
  unfold State.setProgress; split <;> rfl
@[simp] theorem State.setProgress_te (s : State) (p : Progress) : (s.setProgress p).te = s.te := by
  unfold State.setProgress; split <;> rfl
@[simp] theorem State.setProgress_bd (s : State) (p : Progress) : (s.setProgress p).bd = s.bd := by
  unfold State.setProgress; split <;> rfl
@[simp] theorem State.setProgress_env (s : State) (p : Progress) : (s.setProgress p).env = s.env := by
  unfold State.setProgress; split <;> rfl
@[simp] theorem State.setProgress_trace (s : State) (p : Progress) : (s.setProgress p).trace = s.trace := by
  unfold State.setProgress; split <;> rfl

@[simp] theorem State.setIsrPos_cfg (s : State) (pos : IsrPos) : (s.setIsrPos pos).cfg = s.cfg := by
  unfold State.setIsrPos; split <;> rfl
@[simp] theorem State.setIsrPos_w (s : State) (pos : IsrPos) : (s.setIsrPos pos).w = s.w := by
  unfold State.setIsrPos; split <;> rfl
@[simp] theorem State.setIsrPos_a (s : State) (pos : IsrPos) : (s.setIsrPos pos).a = s.a := by
  unfold State.setIsrPos; split <;> rfl
@[simp] theorem State.setIsrPos_b (s : State) (pos : IsrPos) : (s.setIsrPos pos).b = s.b := by
  unfold State.setIsrPos; split <;> rfl
@[simp] theorem State.setIsrPos_r (s : State) (pos : IsrPos) : (s.setIsrPos pos).r = s.r := by
  unfold State.setIsrPos; split <;> rfl
@[simp] theorem State.setIsrPos_status (s : State) (pos : IsrPos) : (s.setIsrPos pos).status = s.status := by
  unfold State.setIsrPos; split <;> rfl
@[simp] theorem State.setIsrPos_ie (s : State) (pos : IsrPos) : (s.setIsrPos pos).ie = s.ie := by
  unfold State.setIsrPos; split <;> rfl
@[simp] theorem State.setIsrPos_fg (s : State) (pos : IsrPos) : (s.setIsrPos pos).fg = s.fg := by
  unfold State.setIsrPos; split <;> rfl
@[simp] theorem State.setIsrPos_mfault (s : State) (pos : IsrPos) : (s.setIsrPos pos).mfault = s.mfault := by
  unfold State.setIsrPos; split <;> rfl
@[simp] theorem State.setIsrPos_te (s : State) (pos : IsrPos) : (s.setIsrPos pos).te = s.te := by
  unfold State.setIsrPos; split <;> rfl
@[simp] theorem State.setIsrPos_bd (s : State) (pos : IsrPos) : (s.setIsrPos pos).bd = s.bd := by
  unfold State.setIsrPos; split <;> rfl
@[simp] theorem State.setIsrPos_env (s : State) (pos : IsrPos) : (s.setIsrPos pos).env = s.env := by
  unfold State.setIsrPos; split <;> rfl
@[simp] theorem State.setIsrPos_trace (s : State) (pos : IsrPos) : (s.setIsrPos pos).trace = s.trace := by
  unfold State.setIsrPos; split <;> rfl

@[simp] theorem State.restorePort_cfg (s : State) : (s.restorePort).cfg = s.cfg := by
  unfold State.restorePort; split <;> rfl
@[simp] theorem State.restorePort_w (s : State) : (s.restorePort).w = s.w := by
  unfold State.restorePort; split <;> rfl
@[simp] theorem State.restorePort_a (s : State) : (s.restorePort).a = s.a := by
  unfold State.restorePort; split <;> rfl
@[simp] theorem State.restorePort_b (s : State) : (s.restorePort).b = s.b := by
  unfold State.restorePort; split <;> rfl
@[simp] theorem State.restorePort_r (s : State) : (s.restorePort).r = s.r := by
  unfold State.restorePort; split <;> rfl
@[simp] theorem State.restorePort_status (s : State) : (s.restorePort).status = s.status := by
  unfold State.restorePort; split <;> rfl
@[simp] theorem State.restorePort_ie (s : State) : (s.restorePort).ie = s.ie := by
  unfold State.restorePort; split <;> rfl
@[simp] theorem State.restorePort_fg (s : State) : (s.restorePort).fg = s.fg := by
  unfold State.restorePort; split <;> rfl
@[simp] theorem State.restorePort_stack (s : State) : (s.restorePort).stack = s.stack := by
  unfold State.restorePort; split <;> rfl
@[simp] theorem State.restorePort_mfault (s : State) : (s.restorePort).mfault = s.mfault := by
  unfold State.restorePort; split <;> rfl
@[simp] theorem State.restorePort_te (s : State) : (s.restorePort).te = s.te := by
  unfold State.restorePort; split <;> rfl
@[simp] theorem State.restorePort_env (s : State) : (s.restorePort).env = s.env := by
  unfold State.restorePort; split <;> rfl
@[simp] theorem State.restorePort_trace (s : State) : (s.restorePort).trace = s.trace := by
  unfold State.restorePort; split <;> rfl

/-- A slot command's access: the resolved slot's update, or nothing (40_te_commands.md R75, R76). -/
theorem onSlot_eq (s : State) (k : Byte) (f : TimingEngine → Nat → TimingEngine) :
    s.onSlot k f =
      match resolve s.cfg k with
      | some j => { s with te := f s.te j }
      | none => s := by
  cases h : resolve s.cfg k <;> simp [State.onSlot, critical, h]

@[simp] theorem State.onSlot_cfg (s : State) (k : Byte) (f : TimingEngine → Nat → TimingEngine) : (s.onSlot k f).cfg = s.cfg := by
  rw [onSlot_eq]; cases resolve s.cfg k <;> rfl
@[simp] theorem State.onSlot_w (s : State) (k : Byte) (f : TimingEngine → Nat → TimingEngine) : (s.onSlot k f).w = s.w := by
  rw [onSlot_eq]; cases resolve s.cfg k <;> rfl
@[simp] theorem State.onSlot_a (s : State) (k : Byte) (f : TimingEngine → Nat → TimingEngine) : (s.onSlot k f).a = s.a := by
  rw [onSlot_eq]; cases resolve s.cfg k <;> rfl
@[simp] theorem State.onSlot_b (s : State) (k : Byte) (f : TimingEngine → Nat → TimingEngine) : (s.onSlot k f).b = s.b := by
  rw [onSlot_eq]; cases resolve s.cfg k <;> rfl
@[simp] theorem State.onSlot_r (s : State) (k : Byte) (f : TimingEngine → Nat → TimingEngine) : (s.onSlot k f).r = s.r := by
  rw [onSlot_eq]; cases resolve s.cfg k <;> rfl
@[simp] theorem State.onSlot_status (s : State) (k : Byte) (f : TimingEngine → Nat → TimingEngine) : (s.onSlot k f).status = s.status := by
  rw [onSlot_eq]; cases resolve s.cfg k <;> rfl
@[simp] theorem State.onSlot_ie (s : State) (k : Byte) (f : TimingEngine → Nat → TimingEngine) : (s.onSlot k f).ie = s.ie := by
  rw [onSlot_eq]; cases resolve s.cfg k <;> rfl
@[simp] theorem State.onSlot_fg (s : State) (k : Byte) (f : TimingEngine → Nat → TimingEngine) : (s.onSlot k f).fg = s.fg := by
  rw [onSlot_eq]; cases resolve s.cfg k <;> rfl
@[simp] theorem State.onSlot_stack (s : State) (k : Byte) (f : TimingEngine → Nat → TimingEngine) : (s.onSlot k f).stack = s.stack := by
  rw [onSlot_eq]; cases resolve s.cfg k <;> rfl
@[simp] theorem State.onSlot_mfault (s : State) (k : Byte) (f : TimingEngine → Nat → TimingEngine) : (s.onSlot k f).mfault = s.mfault := by
  rw [onSlot_eq]; cases resolve s.cfg k <;> rfl
@[simp] theorem State.onSlot_te (s : State) (k : Byte) (f : TimingEngine → Nat → TimingEngine) : (s.onSlot k f).te = ((resolve s.cfg k).map (f s.te)).getD s.te := by
  rw [onSlot_eq]; cases resolve s.cfg k <;> rfl
@[simp] theorem State.onSlot_bd (s : State) (k : Byte) (f : TimingEngine → Nat → TimingEngine) : (s.onSlot k f).bd = s.bd := by
  rw [onSlot_eq]; cases resolve s.cfg k <;> rfl
@[simp] theorem State.onSlot_env (s : State) (k : Byte) (f : TimingEngine → Nat → TimingEngine) : (s.onSlot k f).env = s.env := by
  rw [onSlot_eq]; cases resolve s.cfg k <;> rfl
@[simp] theorem State.onSlot_trace (s : State) (k : Byte) (f : TimingEngine → Nat → TimingEngine) : (s.onSlot k f).trace = s.trace := by
  rw [onSlot_eq]; cases resolve s.cfg k <;> rfl

@[simp] theorem State.goOn_cfg (s : State) (p : Progress) : (s.goOn p).cfg = s.cfg := by
  unfold State.goOn; split <;> simp
@[simp] theorem State.goOn_w (s : State) (p : Progress) : (s.goOn p).w = s.w := by
  unfold State.goOn; split <;> simp
@[simp] theorem State.goOn_a (s : State) (p : Progress) : (s.goOn p).a = s.a := by
  unfold State.goOn; split <;> simp
@[simp] theorem State.goOn_b (s : State) (p : Progress) : (s.goOn p).b = s.b := by
  unfold State.goOn; split <;> simp
@[simp] theorem State.goOn_ie (s : State) (p : Progress) : (s.goOn p).ie = s.ie := by
  unfold State.goOn; split <;> simp
@[simp] theorem State.goOn_mfault (s : State) (p : Progress) : (s.goOn p).mfault = s.mfault := by
  unfold State.goOn; split <;> simp
@[simp] theorem State.goOn_te (s : State) (p : Progress) : (s.goOn p).te = s.te := by
  unfold State.goOn; split <;> simp
@[simp] theorem State.goOn_bd (s : State) (p : Progress) : (s.goOn p).bd = s.bd := by
  unfold State.goOn; split <;> simp
@[simp] theorem State.goOn_env (s : State) (p : Progress) : (s.goOn p).env = s.env := by
  unfold State.goOn; split <;> simp
@[simp] theorem State.goOn_trace (s : State) (p : Progress) : (s.goOn p).trace = s.trace := by
  unfold State.goOn; split <;> simp

@[simp] theorem State.pollAgain_cfg (s : State) (m : BitVec 3) (n : Nat) (p : Progress) : (s.pollAgain m n p).cfg = s.cfg := by
  unfold State.pollAgain; split <;> simp
@[simp] theorem State.pollAgain_w (s : State) (m : BitVec 3) (n : Nat) (p : Progress) : (s.pollAgain m n p).w = s.w := by
  unfold State.pollAgain; split <;> simp
@[simp] theorem State.pollAgain_a (s : State) (m : BitVec 3) (n : Nat) (p : Progress) : (s.pollAgain m n p).a = s.a := by
  unfold State.pollAgain; split <;> simp
@[simp] theorem State.pollAgain_b (s : State) (m : BitVec 3) (n : Nat) (p : Progress) : (s.pollAgain m n p).b = s.b := by
  unfold State.pollAgain; split <;> simp
@[simp] theorem State.pollAgain_ie (s : State) (m : BitVec 3) (n : Nat) (p : Progress) : (s.pollAgain m n p).ie = s.ie := by
  unfold State.pollAgain; split <;> simp
@[simp] theorem State.pollAgain_mfault (s : State) (m : BitVec 3) (n : Nat) (p : Progress) : (s.pollAgain m n p).mfault = s.mfault := by
  unfold State.pollAgain; split <;> simp
@[simp] theorem State.pollAgain_te (s : State) (m : BitVec 3) (n : Nat) (p : Progress) : (s.pollAgain m n p).te = s.te := by
  unfold State.pollAgain; split <;> simp
@[simp] theorem State.pollAgain_bd (s : State) (m : BitVec 3) (n : Nat) (p : Progress) : (s.pollAgain m n p).bd = s.bd := by
  unfold State.pollAgain; split <;> simp
@[simp] theorem State.pollAgain_env (s : State) (m : BitVec 3) (n : Nat) (p : Progress) : (s.pollAgain m n p).env = s.env := by
  unfold State.pollAgain; split <;> simp
@[simp] theorem State.pollAgain_trace (s : State) (m : BitVec 3) (n : Nat) (p : Progress) : (s.pollAgain m n p).trace = s.trace := by
  unfold State.pollAgain; split <;> simp

@[simp] theorem State.faultHandler_cfg (s : State) : (s.faultHandler).cfg = s.cfg := by
  unfold State.faultHandler; split <;> rfl
@[simp] theorem State.faultHandler_w (s : State) : (s.faultHandler).w = s.w := by
  unfold State.faultHandler; split <;> rfl
@[simp] theorem State.faultHandler_a (s : State) : (s.faultHandler).a = s.a := by
  unfold State.faultHandler; split <;> rfl
@[simp] theorem State.faultHandler_b (s : State) : (s.faultHandler).b = s.b := by
  unfold State.faultHandler; split <;> rfl
@[simp] theorem State.faultHandler_r (s : State) : (s.faultHandler).r = s.r := by
  unfold State.faultHandler; split <;> rfl
@[simp] theorem State.faultHandler_status (s : State) : (s.faultHandler).status = s.status := by
  unfold State.faultHandler; split <;> rfl
@[simp] theorem State.faultHandler_ie (s : State) : (s.faultHandler).ie = s.ie := by
  unfold State.faultHandler; split <;> rfl
@[simp] theorem State.faultHandler_fg (s : State) : (s.faultHandler).fg = s.fg := by
  unfold State.faultHandler; split <;> rfl
@[simp] theorem State.faultHandler_stack (s : State) : (s.faultHandler).stack = s.stack := by
  unfold State.faultHandler; split <;> rfl
@[simp] theorem State.faultHandler_mfault (s : State) : (s.faultHandler).mfault = s.mfault := by
  unfold State.faultHandler; split <;> rfl
@[simp] theorem State.faultHandler_bd (s : State) : (s.faultHandler).bd = s.bd := by
  unfold State.faultHandler; split <;> rfl
@[simp] theorem State.faultHandler_env (s : State) : (s.faultHandler).env = s.env := by
  unfold State.faultHandler; split <;> rfl

@[simp] theorem State.emit_cfg (s : State) : (s.emit).cfg = s.cfg := by
  unfold State.emit; split <;> rfl
@[simp] theorem State.emit_w (s : State) : (s.emit).w = s.w := by
  unfold State.emit; split <;> rfl
@[simp] theorem State.emit_a (s : State) : (s.emit).a = s.a := by
  unfold State.emit; split <;> rfl
@[simp] theorem State.emit_b (s : State) : (s.emit).b = s.b := by
  unfold State.emit; split <;> rfl
@[simp] theorem State.emit_r (s : State) : (s.emit).r = s.r := by
  unfold State.emit; split <;> rfl
@[simp] theorem State.emit_status (s : State) : (s.emit).status = s.status := by
  unfold State.emit; split <;> rfl
@[simp] theorem State.emit_ie (s : State) : (s.emit).ie = s.ie := by
  unfold State.emit; split <;> rfl
@[simp] theorem State.emit_fg (s : State) : (s.emit).fg = s.fg := by
  unfold State.emit; split <;> rfl
@[simp] theorem State.emit_stack (s : State) : (s.emit).stack = s.stack := by
  unfold State.emit; split <;> rfl
@[simp] theorem State.emit_mfault (s : State) : (s.emit).mfault = s.mfault := by
  unfold State.emit; split <;> rfl
@[simp] theorem State.emit_bd (s : State) : (s.emit).bd = s.bd := by
  unfold State.emit; split <;> rfl
@[simp] theorem State.emit_env (s : State) : (s.emit).env = s.env := by
  unfold State.emit; split <;> rfl

@[simp] theorem State.sampleFault_cfg (s : State) (x : Bool) : (s.sampleFault x).cfg = s.cfg := rfl
@[simp] theorem State.sampleFault_w (s : State) (x : Bool) : (s.sampleFault x).w = s.w := rfl
@[simp] theorem State.sampleFault_a (s : State) (x : Bool) : (s.sampleFault x).a = s.a := rfl
@[simp] theorem State.sampleFault_b (s : State) (x : Bool) : (s.sampleFault x).b = s.b := rfl
@[simp] theorem State.sampleFault_r (s : State) (x : Bool) : (s.sampleFault x).r = s.r := rfl
@[simp] theorem State.sampleFault_status (s : State) (x : Bool) : (s.sampleFault x).status = s.status := rfl
@[simp] theorem State.sampleFault_ie (s : State) (x : Bool) : (s.sampleFault x).ie = s.ie := rfl
@[simp] theorem State.sampleFault_fg (s : State) (x : Bool) : (s.sampleFault x).fg = s.fg := rfl
@[simp] theorem State.sampleFault_stack (s : State) (x : Bool) : (s.sampleFault x).stack = s.stack := rfl
@[simp] theorem State.sampleFault_mfault (s : State) (x : Bool) : (s.sampleFault x).mfault = s.mfault := rfl
@[simp] theorem State.sampleFault_bd (s : State) (x : Bool) : (s.sampleFault x).bd = s.bd := rfl
@[simp] theorem State.sampleFault_trace (s : State) (x : Bool) : (s.sampleFault x).trace = s.trace := rfl

end Sys2Proof.Machine
end

