-- ==== Sys2Proof/Laws/Ops.lean ====
section
/-! SUPPORT. One lemma per shared operation that says once everything it can do: the state it answers as
the state it was given with the fields it writes. -/

namespace Sys2Proof.Machine

/-! ## Slot resolution and queue cursors -/

/-- An index below N_SLOTS resolves to itself (40_te_commands.md R75). -/
theorem resolve_of_lt {c : Config} {k : Byte} (h : k.toNat < c.nSlots) :
    resolve c k = some k.toNat := by simp [resolve, h]

/-- Under IGNORE an index at or above N_SLOTS resolves to no slot (20_memory.md R35). -/
theorem resolve_of_ge_ignore {c : Config} {k : Byte} (h : c.nSlots ≤ k.toNat)
    (hp : c.slotOorPolicy = .ignore) : resolve c k = none := by
  simp [resolve, hp, Nat.not_lt.mpr h]

/-- Under CLAMP an index at or above N_SLOTS resolves to the last slot (20_memory.md R35). -/
theorem resolve_of_ge_clamp {c : Config} {k : Byte} (h : c.nSlots ≤ k.toNat)
    (hp : c.slotOorPolicy = .clamp) : resolve c k = some (c.nSlots - 1) := by
  simp [resolve, hp, Nat.not_lt.mpr h]

/-- The bounds a well-formed configuration puts on the slot count. -/
theorem wf_slots {c : Config} (h : c.wf = true) : 1 ≤ c.nSlots ∧ c.nSlots ≤ 255 := by
  simp only [Config.wf, Config.slotsOk, Bool.and_eq_true, decide_eq_true_eq] at h
  omega

/-- The bounds a well-formed configuration puts on the queue capacities. -/
theorem wf_queues {c : Config} (h : c.wf = true) :
    2 ≤ c.mQueue ∧ c.mQueue ≤ 255 ∧ 2 ≤ c.eQueue ∧ c.eQueue ≤ 256 := by
  simp only [Config.wf, Config.queuesOk, Bool.and_eq_true, decide_eq_true_eq] at h
  omega

/-- The bounds a well-formed configuration puts on the marks and the generator registers. -/
theorem wf_generator {c : Config} (h : c.wf = true) :
    c.shortMarkTicks ≤ c.longMarkTicks ∧ c.longMarkTicks ≤ c.unitTicks ∧ 1 ≤ c.unitTicks ∧
      2 * c.unitTicks < 2 ^ c.wgWidth := by
  simp only [Config.wf, Config.marksOk, Config.generatorOk, Bool.and_eq_true,
    decide_eq_true_eq] at h
  omega

/-- The bounds a well-formed configuration puts on the pauses. -/
theorem wf_pauses {c : Config} (h : c.wf = true) : c.gapUnits ≤ 255 ∧ c.waitUnits ≤ 255 := by
  simp only [Config.wf, Config.pausesOk, Bool.and_eq_true, decide_eq_true_eq] at h
  omega

/-- The bounds a well-formed configuration puts on the parameters the layouts are written for. -/
theorem wf_layout {c : Config} (h : c.wf = true) :
    1 ≤ c.signalBits ∧ c.signalBits ≤ 32 ∧ c.maxPayload ≤ 8 ∧ c.stdIdBits ≤ 11 ∧
      c.extIdBits ≤ 29 ∧ c.stdIdBits ≤ c.extIdBits := by
  simp only [Config.wf, Config.layoutOk, Bool.and_eq_true, decide_eq_true_eq] at h
  omega

/-- A cursor moved on is one higher modulo the capacity (10_state.md R28). -/
theorem bump_toNat {cap : Nat} (x : BitVec 8) (h : 1 ≤ cap) (hc : cap ≤ 256) :
    (bump x cap).toNat = (x.toNat + 1) % cap := by
  have h1 : (x.toNat + 1) % cap < cap := Nat.mod_lt _ h
  have h2 : (x.toNat + 1) % cap < 256 := by omega
  simp only [bump, BitVec.toNat_ofNat]
  exact Nat.mod_eq_of_lt h2

/-- A cursor moved on stays below the capacity, whatever the capacity. -/
theorem bump_lt {cap : Nat} (x : BitVec 8) (h : x.toNat < cap) : (bump x cap).toNat < cap := by
  have h1 : (x.toNat + 1) % cap < cap := Nat.mod_lt _ (by omega)
  have h2 : (bump x cap).toNat ≤ (x.toNat + 1) % cap := by
    simp only [bump, BitVec.toNat_ofNat]
    exact Nat.mod_le _ _
  omega

theorem queueEmpty_iff (next free : BitVec 8) :
    queueEmpty next free = true ↔ next = free := by simp [queueEmpty]

theorem queueFull_iff (next free : BitVec 8) (cap : Nat) :
    queueFull next free cap = true ↔ (free.toNat + 1) % cap = next.toNat := by simp [queueFull]

/-! ## Operations on the whole state -/

/-- An SPI transaction records its bytes and draws as many answers; it changes nothing else
(43_bd_interrupt.md R106, R107). -/
theorem spi_eq (s : State) (out : List Byte) :
    s.spi out = { s with
      trace := .spi out :: s.trace
      env := { s.env with
        spiAnswers := s.env.spiAnswers.drop out.length
        draws := s.env.draws + out.length } } := rfl

/-- The answers after a transaction are the later answers of the state before it. -/
@[simp] theorem answer_spi (s : State) (out : List Byte) (j : Nat) :
    (s.spi out).answer j = s.answer (out.length + j) := by
  simp [State.answer, Nat.add_assoc]

/-- Setting what the context has left changes no answer. -/
@[simp] theorem answer_setProgress (s : State) (p : Progress) (j : Nat) :
    (s.setProgress p).answer j = s.answer j := by
  simp [State.answer]

@[simp] theorem answer_ret (s : State) (c : StatusCode) (x : Word) (j : Nat) :
    (s.ret c x).answer j = s.answer j := rfl

/-- `Transmit(i)`: two transactions and nothing else (43_bd_interrupt.md R108). -/
theorem transmit_eq (s : State) (i : BitVec 8) :
    s.transmit i = { s with
      trace := .spi (rts0Tx s.cfg) :: .spi (writeTx s.cfg s.cfg.regmap.txb0
        ((s.bd.sq.getD i.toNat MessageEvent.zero).txBytes s.cfg)) :: s.trace
      env := (s.transmit i).env } := rfl

/-- A command that goes on keeps STATUS and R; one with nothing left answers (OK, 0). -/
theorem goOn_cons (s : State) (m : MicroStep) (rest : Progress) :
    s.goOn (m :: rest) = s.setProgress (m :: rest) := rfl

theorem goOn_nil (s : State) : s.goOn [] = (s.setProgress []).ret .ok 0#32 := rfl

/-- Running a step of a command touches only its context, the SPI wire, GO, STATUS and R. -/
theorem runMicro_frame (s : State) (m : MicroStep) (rest : Progress) :
    s.runMicro m rest = { s with
      te.go := (s.runMicro m rest).te.go
      fg := (s.runMicro m rest).fg
      stack := (s.runMicro m rest).stack
      env := (s.runMicro m rest).env
      trace := (s.runMicro m rest).trace
      status := (s.runMicro m rest).status
      r := (s.runMicro m rest).r } := by
  have te : (s.runMicro m rest).te = { s.te with go := (s.runMicro m rest).te.go } := by
    cases m <;> simp only [State.runMicro] <;> (repeat' split) <;> simp
  apply State.ext <;> first | rfl | exact te | skip
  all_goals cases m <;> simp only [State.runMicro] <;> (repeat' split) <;> simp

/-- Running a step of a command keeps GO, but for the step that releases it. -/
theorem runMicro_go (s : State) (m : MicroStep) (rest : Progress) :
    (s.runMicro m rest).te.go = (decide (m = .releaseGo) || s.te.go) := by
  cases m <;> simp only [State.runMicro] <;> (repeat' split) <;> simp

/-- Running a step of a command leaves its context on the stack: what it has left is all that can
change. -/
theorem setProgress_stack_of_progress {s : State} {q : Progress} (h : s.progress = some q)
    (p : Progress) :
    (s.stack = [] ∧ (s.setProgress p).stack = []) ∨
    ∃ rec below, s.stack = .handler rec q :: below ∧
      (s.setProgress p).stack = .handler rec p :: below := by
  unfold State.progress State.setProgress at *
  split at h <;> simp_all

/-- Every step of a command ends by setting what its context has left. -/
theorem runMicro_stack (s : State) (m : MicroStep) (rest : Progress) :
    ∃ p, (s.runMicro m rest).stack = (s.setProgress p).stack ∧
      (s.runMicro m rest).fg = (s.setProgress p).fg := by
  have e : ∀ (u : State) (p : Progress), u.stack = s.stack → u.fg = s.fg →
      (u.setProgress p).stack = (s.setProgress p).stack ∧
      (u.setProgress p).fg = (s.setProgress p).fg := by
    intro u p h1 h2
    unfold State.setProgress
    rw [h1]
    split <;> simp_all
  cases m <;> simp only [State.runMicro, State.goOn, State.pollAgain] <;> (repeat' split) <;>
    exact ⟨_, e _ _ rfl rfl⟩

end Sys2Proof.Machine
end

