-- ==== Sys2Proof/Laws/Step.lean ====
section
/-! SUPPORT. Inversion: what a step can do, said once, from the whole machine's step down to the step of
the innermost context. -/

namespace Sys2Proof.Machine

/-- A step that answers a next state ran the core (no move scripted, or a host move that waits) or
applied the head move. -/
theorem step_next_cases {s t : State} (h : step s = .next t) :
    s.cfg.wf = true ∧
      ((s.coreRuns ∧ t = s.coreStep) ∨
        ∃ m rest, s.env.moves = m :: rest ∧ (m.isHost = true → s.awaiting = true) ∧
          applyMove m { s with env.moves := rest } = .next t) := by
  unfold step at h
  split at h
  · refine ⟨‹_›, ?_⟩
    split at h
    · exact .inl ⟨.inl ‹_›, by simpa using h.symm⟩
    · rename_i m rest hm
      split at h
      · rename_i hg
        refine .inl ⟨.inr ⟨m, rest, hm, .inr ?_⟩, by simpa using h.symm⟩
        simpa using hg
      · rename_i hg
        refine .inr ⟨m, rest, hm, fun hh => ?_, h⟩
        simpa [hh] using hg
  · simp at h

/-- The step of the innermost context: an interrupt context's step, a micro-step of a command, or
nothing. -/
theorem coreStep_cases (s : State) :
    (∃ v pos below, s.stack = .isr v pos :: below ∧ s.coreStep = s.isrStep v pos) ∨
    (∃ m rest, s.progress = some (m :: rest) ∧ s.coreStep = s.runMicro m rest) ∨
    (s.awaiting = true ∧ s.coreStep = s) := by
  unfold State.coreStep
  split
  · exact .inl ⟨_, _, _, ‹_›, rfl⟩
  · rename_i hne
    split
    · exact .inr (.inl ⟨_, _, ‹_›, rfl⟩)
    · rename_i hp
      refine .inr (.inr ⟨?_, rfl⟩)
      unfold State.awaiting State.progress at *
      split at hp <;> simp_all
      · cases h : s.fg <;> simp_all
      · rename_i p _ _; cases p <;> simp_all

/-- A waiting context is no interrupt context. -/
theorem awaiting_stack {s : State} (h : s.awaiting = true) :
    (s.stack = [] ∧ s.fg = []) ∨ ∃ rec below, s.stack = .handler rec [] :: below := by
  unfold State.awaiting State.progress at h
  split at h <;> simp_all

/-- The command a host move issues. -/
theorem issue_cases (w : Word) (s : State) :
    (∃ i, decode w = .ok i ∧ issue w s = exec i { s with w := w }) ∨
    (∃ e, decode w = .error e ∧ issue w s = .next ({ s with w := w } : State).illegalCommand) := by
  unfold issue
  cases h : decode w with
  | ok i => exact .inl ⟨i, rfl, rfl⟩
  | error e => exact .inr ⟨e, rfl, rfl⟩

/-- Setting the progress of a foreground or handler context is what reads back. -/
theorem setProgress_progress {s : State} {q : Progress} (h : s.progress = some q) (p : Progress) :
    (s.setProgress p).progress = some p := by
  unfold State.progress State.setProgress at *
  split at h <;> simp_all

/-- Setting the progress back to what it was gives the state back. -/
theorem setProgress_self {s : State} {q : Progress} (h : s.progress = some q) :
    s.setProgress q = s := by
  cases s
  unfold State.progress State.setProgress at *
  split at h <;> simp_all

@[simp] theorem setProgress_setProgress (s : State) (p q : Progress) :
    (s.setProgress p).setProgress q = s.setProgress q := by
  rcases hs : s.stack with _ | ⟨_ | _, below⟩ <;> simp [State.setProgress, hs]

end Sys2Proof.Machine
end

