-- ==== Sys2Proof/Laws/Commands.lean ====
section
/-! SUPPORT. Multi-step commands, one step at a time: what each step does to a context that runs it, in a
form that chains. -/

namespace Sys2Proof.Machine

/-- MODE_POLL_CAP is at least 1, so a mode change polls at least once (00_scope.md R7). -/
theorem wf_pollCap {c : Config} (h : c.wf = true) : c.modePollCap ≠ some 0 := by
  intro h0
  simp [Config.wf, Config.controllerOk, h0] at h

@[simp] theorem spi_progress (s : State) (out : List Byte) : (s.spi out).progress = s.progress := rfl

@[simp] theorem ret_progress (s : State) (c : StatusCode) (x : Word) :
    (s.ret c x).progress = s.progress := rfl

/-- A transaction and the context's progress are independent. -/
@[simp] theorem spi_setProgress (s : State) (p : Progress) (out : List Byte) :
    (s.setProgress p).spi out = (s.spi out).setProgress p := by
  rcases hs : s.stack with _ | ⟨_ | _, below⟩ <;> simp [State.setProgress, hs, spi_eq]

/-- The core's step in a context that has steps of a command left. -/
theorem coreStep_of_progress {s : State} {m : MicroStep} {rest : Progress}
    (h : s.progress = some (m :: rest)) : s.coreStep = s.runMicro m rest := by
  rcases coreStep_cases s with ⟨v, pos, below, hs, -⟩ | ⟨m', rest', hp, he⟩ | ⟨ha, -⟩
  · simp [State.progress, hs] at h
  · rw [h] at hp
    simp only [Option.some.injEq, List.cons.injEq] at hp
    rw [he, hp.1, hp.2]
  · simp [State.awaiting, h] at ha

/-- The same for a context that waited before its command was given to it. -/
theorem coreStep_setProgress {s : State} (h : s.progress = some []) (m : MicroStep)
    (rest : Progress) :
    (s.setProgress (m :: rest)).coreStep = (s.setProgress (m :: rest)).runMicro m rest :=
  coreStep_of_progress (setProgress_progress h _)

/-- A transaction step with more to do (43_bd_interrupt.md R106). -/
@[simp] theorem runMicro_transact_cons (s : State) (p : Progress) (out : List Byte) (m : MicroStep)
    (rest : Progress) :
    (s.setProgress p).runMicro (.transact out) (m :: rest) = (s.spi out).setProgress (m :: rest) := by
  simp [State.runMicro, goOn_cons]

/-- The WRITE of CANCTRL that opens a mode change (42_bd_commands.md R95). -/
theorem runMicro_requestMode {s : State} (h : s.cfg.wf = true) (p : Progress) (mode : BitVec 3)
    (rest : Progress) :
    (s.setProgress p).runMicro (.requestMode mode) rest =
      (s.spi (writeTx s.cfg s.cfg.regmap.canctrl [modeByte s.cfg mode])).setProgress
        (.pollMode mode 0 :: rest) := by
  simp [State.runMicro, State.pollAgain, wf_pollCap h]

/-- A confirmed poll with more to do (42_bd_commands.md R95). -/
theorem runMicro_pollMode_cons {s : State} (p : Progress) {mode : BitVec 3} {n : Nat}
    (h : (s.answer 2).extractLsb' 5 3 = mode) (m : MicroStep) (rest : Progress) :
    (s.setProgress p).runMicro (.pollMode mode n) (m :: rest) =
      (s.spi (readTx s.cfg s.cfg.regmap.canstat 1)).setProgress (m :: rest) := by
  simp [State.runMicro, h, goOn_cons]

/-- A confirmed poll that ends its command (42_bd_commands.md R95). -/
theorem runMicro_pollMode_nil {s : State} (p : Progress) {mode : BitVec 3} {n : Nat}
    (h : (s.answer 2).extractLsb' 5 3 = mode) :
    (s.setProgress p).runMicro (.pollMode mode n) [] =
      ((s.spi (readTx s.cfg s.cfg.regmap.canstat 1)).setProgress []).ret .ok 0#32 := by
  simp [State.runMicro, h, goOn_nil]

end Sys2Proof.Machine
end

