-- ==== Sys2Proof/Laws/Encoding.lean ====
section
/-! SUPPORT. The fields of an assembled command word, for statements about the decoder and the encoder. -/

namespace Sys2Proof

/-- A byte has no bit above bit 7. -/
theorem byte_high (x : Byte) {i : Nat} (h : 8 ≤ i) : x.getLsbD i = false :=
  BitVec.getLsbD_of_ge x i h

/-- The bits of an assembled command word (30_encoding.md R56). -/
theorem commandWord_getLsbD (op idx fld imm : Byte) (i : Nat) :
    (commandWord op idx fld imm).getLsbD i =
      if i < 8 then imm.getLsbD i
      else if i < 16 then fld.getLsbD (i - 8)
      else if i < 24 then idx.getLsbD (i - 16)
      else op.getLsbD (i - 24) := by
  simp only [commandWord, BitVec.getLsbD_or, BitVec.getLsbD_shiftLeft, BitVec.getLsbD_setWidth]
  split
  · simp [show i < 16 by omega, show i < 24 by omega, show i < 32 by omega, *]
  split
  · simp [show i < 24 by omega, show i < 32 by omega, byte_high imm (i := i) (by omega),
      show i - 8 < 32 by omega, *]
  split
  · simp [show i - 16 < 32 by omega, show i < 32 by omega, byte_high imm (i := i) (by omega),
      byte_high fld (i := i - 8) (by omega), *]
  · by_cases h : i < 32
    · simp [byte_high imm (i := i) (by omega), byte_high fld (i := i - 8) (by omega),
        byte_high idx (i := i - 16) (by omega), show i - 24 < 32 by omega, *]
    · simp [h, byte_high imm (i := i) (by omega), byte_high op (i := i - 24) (by omega)]

@[simp] theorem opField_commandWord (op idx fld imm : Byte) :
    opField (commandWord op idx fld imm) = op := by
  apply BitVec.eq_of_getLsbD_eq
  intro i hi
  simp [opField, commandWord_getLsbD, hi, show ¬ 24 + i < 8 by omega, show ¬ 24 + i < 16 by omega,
    BitVec.getLsbD_extractLsb', -BitVec.getLsbD_eq_getElem]

@[simp] theorem idxField_commandWord (op idx fld imm : Byte) :
    idxField (commandWord op idx fld imm) = idx := by
  apply BitVec.eq_of_getLsbD_eq
  intro i hi
  simp [idxField, commandWord_getLsbD, hi, show ¬ 16 + i < 8 by omega, show 16 + i < 24 by omega,
    BitVec.getLsbD_extractLsb', -BitVec.getLsbD_eq_getElem]

@[simp] theorem fldField_commandWord (op idx fld imm : Byte) :
    fldField (commandWord op idx fld imm) = fld := by
  apply BitVec.eq_of_getLsbD_eq
  intro i hi
  simp [fldField, commandWord_getLsbD, hi, show 8 + i < 16 by omega,
    BitVec.getLsbD_extractLsb', -BitVec.getLsbD_eq_getElem]

/-- Bit `j` of the byte at bits k+7:k of a word. -/
theorem getLsbD_byteAt (w : Word) (k : Nat) {j : Nat} (h : j < 8) :
    (w.extractLsb' k 8).getLsbD j = w.getLsbD (k + j) := by simp [h]

/-- An assembled word has no bit of a mask when none of its fields has. -/
theorem commandWord_and_eq_zero (op idx fld imm : Byte) (m : Word)
    (h : m.extractLsb' 24 8 = 0#8) (h1 : idx &&& m.extractLsb' 16 8 = 0#8)
    (h2 : fld &&& m.extractLsb' 8 8 = 0#8) (h3 : imm &&& m.extractLsb' 0 8 = 0#8) :
    commandWord op idx fld imm &&& m = 0#32 := by
  apply BitVec.eq_of_getLsbD_eq
  intro i hi
  have g (a b : Byte) (j : Nat) (h : a &&& b = 0#8) : (a.getLsbD j && b.getLsbD j) = false := by
    rw [← BitVec.getLsbD_and, h]; simp
  have e (k j : Nat) (h : j < 8) := getLsbD_byteAt m k h
  simp only [BitVec.getLsbD_and, commandWord_getLsbD, BitVec.getLsbD_zero]
  split
  · have := g _ _ i h3; rwa [e _ _ (by omega), show 0 + i = i by omega] at this
  split
  · have := g _ _ (i - 8) h2; rwa [e _ _ (by omega), show 8 + (i - 8) = i by omega] at this
  split
  · have := g _ _ (i - 16) h1; rwa [e _ _ (by omega), show 16 + (i - 16) = i by omega] at this
  · have := e 24 (i - 24) (by omega)
    rw [h, show 24 + (i - 24) = i by omega] at this
    simp [← this]

/-- A word is its four fields assembled. -/
theorem commandWord_fields (w : Word) :
    commandWord (opField w) (idxField w) (fldField w) (immField w) = w := by
  apply BitVec.eq_of_getLsbD_eq
  intro i hi
  rw [commandWord_getLsbD]
  unfold opField idxField fldField immField
  repeat' split
  all_goals
    rw [getLsbD_byteAt _ _ (by omega)]
    congr 1
    omega

/-- The fields of a word whose masked bits are zero. -/
theorem fields_of_and_eq_zero {w m : Word} (h : w &&& m = 0#32) :
    idxField w &&& m.extractLsb' 16 8 = 0#8 ∧ fldField w &&& m.extractLsb' 8 8 = 0#8 ∧
      immField w &&& m.extractLsb' 0 8 = 0#8 := by
  have g : ∀ k, k + 8 ≤ 32 → w.extractLsb' k 8 &&& m.extractLsb' k 8 = 0#8 := by
    intro k hk
    rw [← BitVec.extractLsb'_and, h]; simp
  exact ⟨g 16 (by omega), g 8 (by omega), g 0 (by omega)⟩

/-- IMM holds the low eight bits of the word. -/
theorem getLsbD_immField (w : Word) {i : Nat} (h : i < 8) :
    w.getLsbD i = (immField w).getLsbD i := by simp [immField, h]

/-- What a format check that succeeds says. -/
theorem checkFormat_eq_ok {w : Word} {i j : Instr} (h : checkFormat w i = .ok j) :
    i = j ∧ w &&& i.format.zeroMask = 0#32 := by
  unfold checkFormat at h
  by_cases hm : w &&& i.format.zeroMask = 0
  · rw [if_pos hm] at h; injection h with h; exact ⟨h, hm⟩
  · rw [if_neg hm] at h; cases h

end Sys2Proof
end

