-- ==== Sys2Proof/Laws/Fields.lean ====
section
/-! SUPPORT. The fields of a Message Event record: what a write of a field does to a read of it and of any
other. -/

namespace Sys2Proof.Machine

/-- The code of a field (30_encoding.md R61). -/
def Field.code : Field → Byte
  | .ts => 0x00#8
  | .id => 0x01#8
  | .ext => 0x02#8
  | .rtr => 0x03#8
  | .len => 0x04#8
  | .data j => 0x08#8 + BitVec.ofNat 8 j.val

/-- The bits of operand word A a write of the field takes (30_encoding.md R61). -/
def Field.mask (c : Config) : Field → Word
  | .ts => 0xFFFFFFFF#32
  | .id => lowBits c.extIdBits 0x1FFFFFFF#32
  | .ext => 0x00000001#32
  | .rtr => 0x00000001#32
  | .len => 0x0000000F#32
  | .data _ => 0x000000FF#32

theorem fieldOf_all : ∀ f : Byte, ((fieldOf f).all fun F => f == F.code) = true := by decide

/-- A field has one code. -/
theorem fieldOf_eq_some {f : Byte} {F : Field} (h : fieldOf f = some F) : f = F.code := by
  have := fieldOf_all f
  rw [h] at this
  simpa using this

@[simp] theorem fieldOf_code (F : Field) : fieldOf F.code = some F := by
  cases F with
  | data j => fin_cases j <;> rfl
  | _ => rfl

/-- The record holds a field iff its code is one of the payload length's (00_scope.md R6). -/
theorem held_eq_codeHeld (c : Config) (F : Field) : F.held c = codeHeld c F.code := by
  cases F with
  | data j => fin_cases j <;> simp [Field.held, codeHeld, Field.code] <;> omega
  | _ => simp [Field.held, codeHeld, Field.code] <;> omega

theorem heldField_eq_some {c : Config} {f : Byte} {F : Field} :
    heldField c f = some F ↔ f = F.code ∧ codeHeld c f = true := by
  unfold heldField
  rw [Option.filter_eq_some_iff]
  constructor
  · rintro ⟨h, hh⟩
    obtain rfl := fieldOf_eq_some h
    exact ⟨rfl, by rw [← held_eq_codeHeld]; exact hh⟩
  · rintro ⟨rfl, h⟩
    exact ⟨fieldOf_code F, by rw [held_eq_codeHeld]; exact h⟩

/-- Different codes name different fields. -/
theorem field_ne {c : Config} {f g : Byte} {F G : Field} (hf : heldField c f = some F)
    (hg : heldField c g = some G) (h : f ≠ g) : F ≠ G := by
  rintro rfl
  exact h ((heldField_eq_some.mp hf).1.trans (heldField_eq_some.mp hg).1.symm)

/-- The fields of a record in the order of their codes (30_encoding.md R61). -/
def Field.all : List Field :=
  [.ts, .id, .ext, .rtr, .len] ++ (List.finRange 8).map .data

theorem Field.mem_all (F : Field) : F ∈ Field.all := by
  cases F <;> simp [Field.all]

/-- The table of masks lists each field the record holds by its code. -/
theorem fieldMasks_eq (c : Config) :
    fieldMasks c = (Field.all.map fun F => (F.code, F.mask c)).filter fun p => codeHeld c p.1 := rfl

/-- The table of values lists each field the record holds by its code. -/
theorem fieldValues_eq (c : Config) (m : MessageEvent) :
    fieldValues c m = (Field.all.map fun F => (F.code, m.read F)).filter fun p => codeHeld c p.1 := by
  have hb (b : Bool) : (if b then 1#32 else 0#32) = (BitVec.ofBool b).setWidth 32 := by
    cases b <;> rfl
  simp only [fieldValues, hb]
  rfl

/-- An entry of a table that lists the fields by their codes is of a held field. -/
theorem heldField_of_table {c : Config} {v : Field → Word} {f : Byte} {x : Word}
    (h : (f, x) ∈ (Field.all.map fun F => (F.code, v F)).filter fun p => codeHeld c p.1) :
    ∃ F, heldField c f = some F ∧ v F = x := by
  obtain ⟨hm, hc⟩ := List.mem_filter.mp h
  obtain ⟨F, -, hF⟩ := List.mem_map.mp hm
  obtain ⟨hcode, hv⟩ := Prod.mk.inj hF
  exact ⟨F, heldField_eq_some.mpr ⟨hcode.symm, hc⟩, hv⟩

/-- A code of the table with its mask is a held field with that mask. -/
theorem heldField_mem {c : Config} {f : Byte} {m : Word} (h : (f, m) ∈ fieldMasks c) :
    ∃ F, heldField c f = some F ∧ F.mask c = m :=
  heldField_of_table (fieldMasks_eq c ▸ h)

/-- A code of the table of values is a held field that reads as that value. -/
theorem heldField_value {c : Config} {m : MessageEvent} {f : Byte} {x : Word}
    (h : (f, x) ∈ fieldValues c m) : ∃ F, heldField c f = some F ∧ m.read F = x :=
  heldField_of_table (fieldValues_eq c m ▸ h)

/-- A code that is not in the table is no held field. -/
theorem heldField_not_mem {c : Config} {f : Byte} (h : ∀ m, (f, m) ∉ fieldMasks c) :
    heldField c f = none := by
  rcases hf : heldField c f with _ | F
  · rfl
  · obtain ⟨rfl, hc⟩ := heldField_eq_some.mp hf
    refine absurd ?_ (h (F.mask c))
    rw [fieldMasks_eq]
    exact List.mem_filter.mpr ⟨List.mem_map.mpr ⟨F, F.mem_all, rfl⟩, hc⟩

/-- The low bits of a word narrowed to a field and widened back are the bits of the field's mask. -/
theorem lowBits_narrow_widen (n : Nat) (x : Word) :
    ((lowBits n x).setWidth 29).setWidth 32 = x &&& lowBits n 0x1FFFFFFF#32 := by
  apply BitVec.eq_of_getLsbD_eq
  intro i hi
  simp only [lowBits, BitVec.getLsbD_setWidth, BitVec.getLsbD_and]
  interval_cases i <;> simp [Bool.and_comm]

/-- Narrowing a word and widening it back keeps the bits of the mask. -/
theorem narrow_widen (x : Word) :
    (x.setWidth 4).setWidth 32 = x &&& 0xF#32 ∧ (x.setWidth 8).setWidth 32 = x &&& 0xFF#32 ∧
    (BitVec.ofBool (x.getLsbD 0)).setWidth 32 = x &&& 1#32 ∧ x = x &&& 0xFFFFFFFF#32 := by
  refine ⟨?_, ?_, ?_, ?_⟩ <;>
  · apply BitVec.eq_of_getLsbD_eq
    intro i hi
    interval_cases i <;> simp

/-- DATA[j] reads as written. -/
@[simp] theorem Payload.get_set (d : Payload) (j : Fin 8) (x : Byte) : (d.set j x).get j = x := by
  fin_cases j <;> rfl

/-- The other payload bytes read as before. -/
theorem Payload.get_set_ne (d : Payload) {i j : Fin 8} (x : Byte) (h : i ≠ j) :
    (d.set i x).get j = d.get j := by
  revert h
  fin_cases i <;> fin_cases j <;> simp [Payload.set, Payload.get]

/-- A field reads back as the bits of A that a write takes (30_encoding.md R61). -/
theorem read_write (c : Config) (m : MessageEvent) (a : Word) (F : Field) :
    (m.write c a F).read F = a &&& F.mask c := by
  obtain ⟨h2, h3, h4, h5⟩ := narrow_widen a
  have h1 := lowBits_narrow_widen c.extIdBits a
  cases F <;> simp only [MessageEvent.write, MessageEvent.read, Field.mask, Payload.get_set] <;>
    assumption

/-- Every other field reads as before. -/
theorem read_write_ne (c : Config) (m : MessageEvent) (a : Word) {F G : Field} (h : F ≠ G) :
    (m.write c a F).read G = m.read G := by
  cases F <;> cases G <;> simp only [MessageEvent.write, MessageEvent.read] <;>
    first
    | exact absurd rfl h
    | (rw [Payload.get_set_ne]; simpa using h)

end Sys2Proof.Machine
end

