-- ==== Sys2Proof/Laws/Handlers.lean ====
section
/-! SUPPORT. The CAN interrupt handler and the drains, said once: each step as the state it was given with
the fields it writes. -/

namespace Sys2Proof.Machine

/-- The first step of the CAN handler touches the queues' ends, IN_FLIGHT, the SPI wire and the
environment, and nothing else (43_bd_interrupt.md R110). -/
theorem canPhase1_frame (s : State) :
    s.canPhase1 = { s with
      bd := s.canPhase1.bd
      env := s.canPhase1.env
      trace := s.canPhase1.trace } := by
  apply State.ext <;> simp only [State.canPhase1, State.errorBranch, State.transmitBranch,
    State.receiveBranch] <;> (repeat' split) <;> simp

/-- The error branch queues one Error Event, or nothing when the queue is full (43_bd_interrupt.md R110,
R111). -/
theorem errorBranch_bd (s : State) (eflg : Byte) :
    (queueFull s.bd.eqNext s.bd.eqFree s.cfg.eQueue = true ∧ (s.errorBranch eflg).bd = s.bd) ∨
    (queueFull s.bd.eqNext s.bd.eqFree s.cfg.eQueue = false ∧
      (s.errorBranch eflg).bd = { s.bd with
        eq := s.bd.eq.set s.bd.eqFree.toNat ⟨s.time, eflg⟩
        eqFree := bump s.bd.eqFree s.cfg.eQueue }) := by
  unfold State.errorBranch
  split
  · exact .inl ⟨‹_›, rfl⟩
  · exact .inr ⟨Bool.eq_false_iff.mpr ‹_›, rfl⟩

/-- The transmit-complete branch frees the completed frame's slot; IN_FLIGHT stays set iff a frame is left
to send (43_bd_interrupt.md R110). -/
theorem transmitBranch_bd (s : State) :
    (s.bd.inFlight = false ∧ s.transmitBranch = s) ∨
    (s.bd.inFlight = true ∧
      s.transmitBranch.bd = { s.bd with
        sqNext := bump s.bd.sqNext s.cfg.mQueue
        inFlight := !queueEmpty (bump s.bd.sqNext s.cfg.mQueue) s.bd.sqFree }) := by
  unfold State.transmitBranch
  split
  · rename_i h
    refine .inr ⟨h, ?_⟩
    simp only
    split
    · simp [*]
    · rename_i he
      simp [Bool.eq_false_iff.mpr he, h]
  · exact .inl ⟨Bool.eq_false_iff.mpr ‹_›, rfl⟩

/-- The receive branch queues one Message Event, or reads nothing when the queue is full
(43_bd_interrupt.md R109, R110, R111). -/
theorem receiveBranch_bd (s : State) :
    (queueFull s.bd.rqNext s.bd.rqFree s.cfg.mQueue = true ∧ s.receiveBranch = s) ∨
    (queueFull s.bd.rqNext s.bd.rqFree s.cfg.mQueue = false ∧ ∃ m,
      s.receiveBranch.bd = { s.bd with
        rq := s.bd.rq.set s.bd.rqFree.toNat m
        rqFree := bump s.bd.rqFree s.cfg.mQueue }) := by
  unfold State.receiveBranch
  split
  · exact .inl ⟨‹_›, rfl⟩
  · exact .inr ⟨Bool.eq_false_iff.mpr ‹_›, _, rfl⟩

/-- What the first step of the CAN handler does to the Bus Driver: it queues an Error Event, frees the
completed frame's slot with or without sending the next, queues a Message Event, or does nothing
(43_bd_interrupt.md R110, R111). -/
theorem canPhase1_bd (s : State) :
    s.canPhase1.bd = s.bd ∨
    (∃ e, queueFull s.bd.eqNext s.bd.eqFree s.cfg.eQueue = false ∧
      s.canPhase1.bd = { s.bd with
        eq := s.bd.eq.set s.bd.eqFree.toNat e
        eqFree := bump s.bd.eqFree s.cfg.eQueue }) ∨
    (s.bd.inFlight = true ∧
      s.canPhase1.bd = { s.bd with
        sqNext := bump s.bd.sqNext s.cfg.mQueue
        inFlight := !queueEmpty (bump s.bd.sqNext s.cfg.mQueue) s.bd.sqFree }) ∨
    (∃ m, queueFull s.bd.rqNext s.bd.rqFree s.cfg.mQueue = false ∧
      s.canPhase1.bd = { s.bd with
        rq := s.bd.rq.set s.bd.rqFree.toNat m
        rqFree := bump s.bd.rqFree s.cfg.mQueue }) := by
  simp only [State.canPhase1]
  generalize hu : (s.spi _).spi _ = u
  have hb : u.bd = s.bd := by rw [← hu]; rfl
  have hc : u.cfg = s.cfg := by rw [← hu]; rfl
  rw [← hb, ← hc]
  split
  · rcases errorBranch_bd u (s.answer 3) with ⟨_, h⟩ | ⟨hf, h⟩
    · exact .inl h
    · exact .inr (.inl ⟨_, hf, h⟩)
  split
  · rcases transmitBranch_bd u with ⟨_, h⟩ | ⟨hf, h⟩
    · exact .inl (by rw [h])
    · exact .inr (.inr (.inl ⟨hf, h⟩))
  split
  · rcases receiveBranch_bd u with ⟨_, h⟩ | ⟨hf, m, h⟩
    · exact .inl (by rw [h])
    · exact .inr (.inr (.inr ⟨m, hf, h⟩))
  · exact .inl rfl

/-- The handler only adds to the trace. -/
theorem canPhase1_trace (s : State) : ∃ new, s.canPhase1.trace = new ++ s.trace := by
  simp only [State.canPhase1, State.errorBranch, State.transmitBranch, State.receiveBranch]
  repeat' split
  all_goals simp only [State.timeDrawn_trace, State.transmit_trace, State.spi_trace]
  all_goals first
    | exact ⟨[_, _, _, _], rfl⟩
    | exact ⟨[_, _, _], rfl⟩
    | exact ⟨[_, _], rfl⟩

/-- The step position of an interrupt context, set. -/
theorem setIsrPos_of_isr {s : State} {v : Irq} {p : IsrPos} {below : List Context}
    (h : s.stack = .isr v p :: below) (pos : IsrPos) :
    s.setIsrPos pos = { s with stack := .isr v pos :: below } := by
  unfold State.setIsrPos
  split
  · rename_i heq
    rw [h] at heq
    simp only [List.cons.injEq, Context.isr.injEq] at heq
    obtain ⟨⟨rfl, rfl⟩, rfl⟩ := heq
    rfl
  · rename_i hne
    exact absurd h (hne _ _ _)

/-- The end of a drain (43_bd_interrupt.md R110, R112). -/
theorem drainDone_error {s : State} {v : Irq} {p : IsrPos} {below : List Context}
    (h : s.stack = .isr v p :: below) :
    s.drainDone .error = { s with stack := .isr v (.guard .message) :: below } :=
  setIsrPos_of_isr h _

theorem drainDone_message {s : State} {v : Irq} {p : IsrPos} {below : List Context}
    (h : s.stack = .isr v p :: below) :
    s.drainDone .message = { s with stack := below, ie := true } := by
  simp [State.drainDone, State.interruptReturn, h]

/-- The entry step of a drain (43_bd_interrupt.md R112). -/
theorem drainGuard_eq {s : State} {v : Irq} {p : IsrPos} {below : List Context}
    (h : s.stack = .isr v p :: below) (q : EventKind) :
    s.drainGuard q =
      if s.bd.draining q then s.drainDone q
      else { s with bd := s.bd.setDraining q true, stack := .isr v (.check q) :: below } := by
  unfold State.drainGuard
  split
  · rfl
  · exact setIsrPos_of_isr (s := { s with bd := s.bd.setDraining q true }) h _

/-- The head of the drain loop (43_bd_interrupt.md R112, R113). -/
theorem drainCheck_eq {s : State} {v : Irq} {p : IsrPos} {below : List Context}
    (h : s.stack = .isr v p :: below) (q : EventKind) :
    s.drainCheck q =
      if queueEmpty (s.bd.next q) (s.bd.free q) then
        ({ s with ie := false, bd := s.bd.setDraining q false } : State).drainDone q
      else if s.bd.present q then
        { s with
          ie := true
          bd.evtValid := true
          bd.evtKind := (s.bd.oldest q).kind
          bd.evtRec := s.bd.oldest q
          stack := .handler (s.bd.oldest q) [] :: .isr v (.advance q) :: below }
      else { s with ie := false, stack := .isr v (.advance q) :: below } := by
  simp only [State.drainCheck]
  rw [setIsrPos_of_isr (s := { s with ie := true }) h,
    setIsrPos_of_isr (s := { s with ie := false }) h]
  rfl

/-- The step that advances NEXT (43_bd_interrupt.md R112). -/
theorem drainAdvance_eq {s : State} {v : Irq} {p : IsrPos} {below : List Context}
    (h : s.stack = .isr v p :: below) (q : EventKind) :
    s.drainAdvance q =
      { s with ie := false, bd := s.bd.advanceNext s.cfg q, stack := .isr v (.check q) :: below } :=
  setIsrPos_of_isr (s := { s with ie := false, bd := s.bd.advanceNext s.cfg q }) h _

/-- The core's step in an interrupt context. -/
theorem coreStep_of_isr {s : State} {v : Irq} {pos : IsrPos} {below : List Context}
    (h : s.stack = .isr v pos :: below) : s.coreStep = s.isrStep v pos := by
  simp [State.coreStep, h]

/-- The oldest record of a queue is of the queue's kind. -/
@[simp] theorem oldest_kind (d : BusDriver) (q : EventKind) : (d.oldest q).kind = q := by
  cases q <;> rfl

end Sys2Proof.Machine
end

