-- ==== Sys2Proof/Laws/Layout.lean ====
section
/-! SUPPORT. The controller's byte layouts and the message word read back field by field. -/

namespace Sys2Proof.Machine

/-- The fields of an SIDL byte read back (30_encoding.md R69). -/
@[simp] theorem sidl_sid (sid : BitVec 3) (x : Bool) (eid : BitVec 2) :
    (sidl sid x eid).extractLsb' 5 3 = sid := by
  revert sid x eid; decide

@[simp] theorem sidl_eid (sid : BitVec 3) (x : Bool) (eid : BitVec 2) :
    (sidl sid x eid).extractLsb' 0 2 = eid := by
  revert sid x eid; decide

theorem sidl_exide (sid : BitVec 3) (x : Bool) (eid : BitVec 2) :
    (sidl sid x eid).getLsbD 3 = x := by
  revert sid x eid; decide

theorem sidl_srr (sid : BitVec 3) (x : Bool) (eid : BitVec 2) :
    (sidl sid x eid).getLsbD 4 = false := by
  revert sid x eid; decide

/-- An SIDL byte bit by bit (30_encoding.md R69). -/
theorem sidl_getLsbD (sid : BitVec 3) (x : Bool) (eid : BitVec 2) : ∀ i, i < 8 →
    (sidl sid x eid).getLsbD i =
      if 5 ≤ i then sid.getLsbD (i - 5)
      else if i = 3 then x
      else (decide (i < 2) && eid.getLsbD i) := by
  revert sid x eid; decide

/-- The fields of a DLC byte read back (30_encoding.md R70). -/
theorem dlcByte_rtr (rtr : Bool) (len : BitVec 4) : (dlcByte rtr len).getLsbD 6 = rtr := by
  revert rtr len; decide

@[simp] theorem dlcByte_len (rtr : Bool) (len : BitVec 4) :
    (dlcByte rtr len).setWidth 4 = len := by
  revert rtr len; decide

/-- A DLC byte as the RTR bit over the length (30_encoding.md R70). -/
theorem dlcByte_eq (rtr : Bool) (len : BitVec 4) :
    dlcByte rtr len = (if rtr then 0x40#8 else 0x00#8) ||| len.setWidth 8 := by
  revert rtr len; decide

/-- The identifier read from the first two bytes of a standard identifier (30_encoding.md R69). -/
theorem receivedId_standard {b : Nat → Byte} {y : Word} (h0 : b 0 = y.extractLsb' 3 8)
    (h1 : b 1 = sidl (y.extractLsb' 0 3) false 0b00#2) :
    receivedId b = y.setWidth 29 &&& 0x7FF#29 := by
  simp only [receivedId, h0, h1, sidl_exide, sidl_sid, Bool.false_eq_true, if_false]
  apply BitVec.eq_of_getLsbD_eq
  intro i hi
  simp only [BitVec.getLsbD_append, BitVec.getLsbD_extractLsb', BitVec.getLsbD_setWidth,
    BitVec.getLsbD_and]
  interval_cases i <;> simp

/-- The identifier read from the four bytes of an extended identifier (30_encoding.md R69). -/
theorem receivedId_extended {b : Nat → Byte} {y : Word} (h0 : b 0 = y.extractLsb' 21 8)
    (h1 : b 1 = sidl (y.extractLsb' 18 3) true (y.extractLsb' 16 2))
    (h2 : b 2 = y.extractLsb' 8 8) (h3 : b 3 = y.extractLsb' 0 8) :
    receivedId b = y.setWidth 29 := by
  simp only [receivedId, h0, h1, h2, h3, sidl_exide, sidl_sid, sidl_eid, if_true]
  apply BitVec.eq_of_getLsbD_eq
  intro i hi
  simp only [BitVec.getLsbD_append, BitVec.getLsbD_extractLsb', BitVec.getLsbD_setWidth]
  interval_cases i <;> simp

/-- The low bits of a word, bit by bit. -/
theorem lowBits_getLsbD (n : Nat) (x : Word) {i : Nat} (h : i < 32) :
    (lowBits n x).getLsbD i = (decide (i < n) && x.getLsbD i) := by
  simp only [lowBits, BitVec.getLsbD_and, BitVec.getLsbD_ofNat, Nat.testBit_two_pow_sub_one, h,
    decide_true, Bool.true_and, Bool.and_comm]

/-- A payload reads the same from two byte sources that agree as far as MAX_PAYLOAD goes. -/
theorem payloadOf_congr {c : Config} {b d : Nat → Byte} (h : ∀ j, j < c.maxPayload → b j = d j) :
    payloadOf c b = payloadOf c d := by
  have hd : ∀ j, (if j < c.maxPayload then b j else 0x00#8) =
      (if j < c.maxPayload then d j else 0x00#8) := by
    intro j
    split
    · exact h j ‹_›
    · rfl
  simp only [payloadOf, hd]

/-- The fields of a message word put together from data, function and address (30_encoding.md R62). -/
theorem messageWord_fields (data : Byte) (fn : BitVec 2) (addr : Byte) :
    ((data ++ fn ++ addr : BitVec 18).setWidth 32 : Word).extractLsb' 0 8 = addr ∧
    ((data ++ fn ++ addr : BitVec 18).setWidth 32 : Word).extractLsb' 8 2 = fn ∧
    (∀ i, i < 4 → ((data ++ fn ++ addr : BitVec 18).setWidth 32 : Word).extractLsb' (10 + 2 * i) 2
      = data.extractLsb' (2 * i) 2) ∧
    ((data ++ fn ++ addr : BitVec 18).setWidth 32 : Word).extractLsb' 18 14 = 0#14 := by
  refine ⟨?_, ?_, ?_, ?_⟩
  all_goals try intro j hj
  all_goals
    apply BitVec.eq_of_getLsbD_eq
    intro i hi
    simp only [BitVec.getLsbD_append, BitVec.getLsbD_extractLsb', BitVec.getLsbD_setWidth]
  all_goals try interval_cases j
  all_goals interval_cases i <;> simp

/-- A nibble's bits, each doubled (30_encoding.md R65). -/
theorem nibbleField_trit (n : BitVec 4) (i : Nat) (h : i < 4) :
    (nibbleField n).extractLsb' (2 * i) 2 = if n.getLsbD i then 0b11#2 else 0b00#2 := by
  revert i; revert n; decide

end Sys2Proof.Machine
end

