-- ==== Sys2Proof/Laws/Sequencer.lean ====
section
/-! SUPPORT. The sequencer's operations, said once: which slot a load picks, what a tick advances and
programs, and what neither of them touches. -/

namespace Sys2Proof.Machine

/-- A value that fits the generator register is stored whole (41_te_sequencer.md R87 (e)). -/
theorem wgStore_of_lt {c : Config} {n : Nat} (h : n < 2 ^ c.wgWidth) : wgStore c n = n :=
  Nat.mod_eq_of_lt h

/-- A stored value fits the generator register (10_state.md R25). -/
theorem wgStore_lt (c : Config) (n : Nat) : wgStore c n < 2 ^ c.wgWidth :=
  Nat.mod_lt _ (by positivity)

theorem speedScale_le (b : Bool) : speedScale b ≤ 2 := by cases b <;> decide

/-- No mark is longer than the base period (00_scope.md R8). -/
theorem markOf_le {c : Config} (h : c.wf = true) (m : Word) (b : Nat) :
    markOf c m b ≤ c.unitTicks := by
  obtain ⟨h1, h2, -, -⟩ := wf_generator h
  unfold markOf
  repeat' split
  all_goals omega

/-- A period or a mark of either speed mode fits the generator register (41_te_sequencer.md R87 (e)). -/
theorem wgStore_scaled {c : Config} (h : c.wf = true) {n : Nat} (hn : n ≤ c.unitTicks) (b : Bool) :
    wgStore c (n * speedScale b) = n * speedScale b := by
  obtain ⟨-, -, -, h4⟩ := wf_generator h
  apply wgStore_of_lt
  have := speedScale_le b
  calc n * speedScale b ≤ c.unitTicks * 2 := Nat.mul_le_mul hn this
    _ < _ := by omega

/-! ## The load -/

/-- The slot at distance `j` from CUR_SLOT is the one picked when it is enabled and no nearer slot is
(41_te_sequencer.md R86). -/
theorem nextEnabled_eq_some {c : Config} {e : TimingEngine} {j : Nat} (h1 : 1 ≤ j)
    (hj : j ≤ c.nSlots)
    (hno : ∀ i, 1 ≤ i → i < j → e.en.getD ((e.curSlot.toNat + i) % c.nSlots) false = false)
    (hyes : e.en.getD ((e.curSlot.toNat + j) % c.nSlots) false = true) :
    e.nextEnabled c = some ((e.curSlot.toNat + j) % c.nSlots) := by
  have key : ∀ (l : List Nat) (f : Nat → Nat), (∀ i ∈ l, i + 1 < j → e.en.getD (f i) false = false) →
      ∀ n, l = List.range' n l.length → n ≤ j - 1 → j - 1 < n + l.length →
      e.en.getD (f (j - 1)) false = true →
      (l.map f).find? (fun k => e.en.getD k false) = some (f (j - 1)) := by
    intro l f
    induction l with
    | nil => intro _ n _ h1 h2; simp at h2; omega
    | cons a l ih =>
      intro hl n hr hn hlt hy
      simp only [List.length_cons, List.range'_succ, List.cons.injEq] at hr
      obtain ⟨rfl, hr⟩ := hr
      rw [List.map_cons]
      by_cases ha : a = j - 1
      · subst ha; rw [List.find?_cons_of_pos (by simpa using hy)]
      · rw [List.find?_cons_of_neg]
        · exact ih (fun i hi => hl i (by simp [hi])) (a + 1) hr (by omega)
            (by simp only [List.length_cons] at hlt; omega) hy
        · have := hl a (by simp) (by omega)
          simp only [this]; decide
  have := key (List.range c.nSlots) (fun j => (e.curSlot.toNat + (j + 1)) % c.nSlots)
    (fun i hi hlt => hno (i + 1) (by omega) (by omega)) 0
    (by simp [List.range_eq_range']) (by omega) (by simp; omega)
    (by simpa [show j - 1 + 1 = j by omega] using hyes)
  unfold TimingEngine.nextEnabled scanOrder
  rw [this]
  simp [show j - 1 + 1 = j by omega]

/-- No slot is picked when none is enabled. -/
theorem nextEnabled_eq_none {c : Config} {e : TimingEngine}
    (h : ∀ k, k < c.nSlots → e.en.getD k false = false) : e.nextEnabled c = none := by
  unfold TimingEngine.nextEnabled scanOrder
  rw [List.find?_eq_none]
  intro k hk
  obtain ⟨j, hj, rfl⟩ := List.mem_map.mp hk
  have hn : 0 < c.nSlots := by have := List.mem_range.mp hj; omega
  simp only [h _ (Nat.mod_lt _ hn)]
  decide

/-- The slot picked is one of the table's and enabled. -/
theorem nextEnabled_some {c : Config} {e : TimingEngine} {k : Nat} (h : e.nextEnabled c = some k) :
    k < c.nSlots ∧ e.en.getD k false = true := by
  unfold TimingEngine.nextEnabled scanOrder at h
  refine ⟨?_, by simpa using List.find?_some h⟩
  obtain ⟨j, hj, rfl⟩ := List.mem_map.mp (List.mem_of_find?_eq_some h)
  exact Nat.mod_lt _ (by have := List.mem_range.mp hj; omega)

/-- A load writes the current slot, the two snapshots and the enable bits, and nothing else. -/
theorem load_frame (c : Config) (e : TimingEngine) :
    TimingEngine.load c e = { e with
      curSlot := (TimingEngine.load c e).curSlot
      curMsg := (TimingEngine.load c e).curMsg
      curSpd := (TimingEngine.load c e).curSpd
      en := (TimingEngine.load c e).en } := by
  unfold TimingEngine.load
  split <;> rfl

/-- A load clears no enable bit but that of a one-shot slot, which becomes the current slot, and sets none
(10_state.md R21, 41_te_sequencer.md R86). -/
theorem load_en {c : Config} (hwf : c.wf = true) (e : TimingEngine) (j : Nat) :
    (TimingEngine.load c e).en.getD j false = e.en.getD j false ∨
    (e.os.getD j false = true ∧ (TimingEngine.load c e).curSlot.toNat = j ∧
      (TimingEngine.load c e).en.getD j false = false) := by
  unfold TimingEngine.load
  split
  · rename_i k hk
    have hk := (nextEnabled_some hk).1
    have hn := wf_slots hwf
    by_cases ho : e.os.getD k false = true
    · by_cases hj : k = j
      · subst hj
        refine .inr ⟨ho, by simp only [BitVec.toNat_ofNat]; omega, ?_⟩
        simp only [ho, if_true, List.getD_eq_getElem?_getD, List.getElem?_set]
        split <;> simp
      · exact .inl (by simp only [ho, if_true, List.getD_eq_getElem?_getD, List.getElem?_set_ne hj])
    · exact .inl (by simp only [ho, Bool.false_eq_true, if_false])
  · exact .inl rfl

/-- A load looks only at the table and the current slot. -/
theorem load_cursor (c : Config) (e : TimingEngine) (b : BitVec 9) (h : Bool) :
    TimingEngine.load c { e with curBit := b, curHalf := h } =
      { TimingEngine.load c e with curBit := b, curHalf := h } := by
  have : TimingEngine.nextEnabled c { e with curBit := b, curHalf := h } = e.nextEnabled c := rfl
  unfold TimingEngine.load
  rw [this]
  split <;> rfl

/-! ## The tick -/

/-- A tick writes the cursor, the snapshots, the enable bits and the programmed period, and nothing
else. -/
theorem tick_frame (c : Config) (e : TimingEngine) :
    TimingEngine.tick c e = { e with
      curSlot := (TimingEngine.tick c e).curSlot
      curBit := (TimingEngine.tick c e).curBit
      curHalf := (TimingEngine.tick c e).curHalf
      curMsg := (TimingEngine.tick c e).curMsg
      curSpd := (TimingEngine.tick c e).curSpd
      en := (TimingEngine.tick c e).en
      wgPeriod := (TimingEngine.tick c e).wgPeriod
      wgDuty := (TimingEngine.tick c e).wgDuty } := by
  unfold TimingEngine.tick TimingEngine.advance TimingEngine.program
  have := load_frame c { e with curBit := 0#9, curHalf := false }
  repeat' split
  all_goals first | rfl | (rw [this])

/-- The engine after steps (2) and (3) of a tick, as its three cases (41_te_sequencer.md R87). -/
theorem advance_cases (c : Config) (e : TimingEngine) :
    (e.curBit.toNat = lastSignalBit c + e.pause c ∧ e.curHalf = true ∧
      e.advance c = { TimingEngine.load c e with curBit := 0#9, curHalf := false }) ∨
    (e.curBit.toNat = lastSignalBit c + e.pause c ∧ e.curHalf = false ∧
      e.advance c = { e with curBit := 0#9, curHalf := true }) ∨
    (e.curBit.toNat ≠ lastSignalBit c + e.pause c ∧
      e.advance c = { e with curBit := e.curBit + 1#9 }) := by
  unfold TimingEngine.advance
  by_cases h1 : e.curBit.toNat = lastSignalBit c + e.pause c
  · rw [if_pos h1]
    by_cases h2 : e.curHalf = true
    · rw [if_pos h2]
      exact .inl ⟨h1, h2, load_cursor _ _ _ _⟩
    · rw [if_neg h2]
      exact .inr (.inl ⟨h1, by simpa using h2, rfl⟩)
  · rw [if_neg h1]
    exact .inr (.inr ⟨h1, rfl⟩)

/-- The signal index never overflows its 9 bits (41_te_sequencer.md R87 (e)). -/
theorem curBit_succ {c : Config} {e : TimingEngine} (h : c.wf = true)
    (hs : e.curBit.toNat ≤ lastSignalBit c + e.pause c) :
    (e.curBit + 1#9).toNat = e.curBit.toNat + 1 := by
  obtain ⟨h1, h2⟩ := wf_pauses h
  have : e.pause c ≤ 255 := by unfold TimingEngine.pause; split <;> assumption
  have := wf_layout h
  unfold lastSignalBit at hs
  rw [BitVec.toNat_add]
  simp only [BitVec.toNat_ofNat]
  omega

/-! ## Storage and ranges -/

/-- A load keeps the storage sizes and the ranges. -/
theorem load_sized {c : Config} (hwf : c.wf = true) {e : TimingEngine} (h : e.Sized c) :
    (TimingEngine.load c e).Sized c := by
  obtain ⟨x1, x2, x3, x4, x5, x6, x7, x8, x9, x10⟩ := h
  have := wf_slots hwf
  unfold TimingEngine.load
  split
  · rename_i k hk
    have hk := (nextEnabled_some hk).1
    refine ⟨x1, ?_, x3, x4, ?_, x6, x7, x8, x9, x10⟩
    · simp only; split <;> simp [x2]
    · simp only [BitVec.toNat_ofNat]; omega
  · exact ⟨x1, x2, x3, x4, x5, x6, x7, x8, x9, x10⟩

/-- A tick keeps the storage sizes and the ranges. -/
theorem tick_sized {c : Config} (hwf : c.wf = true) {e : TimingEngine} (h : e.Sized c) :
    (TimingEngine.tick c e).Sized c := by
  have hp : ∀ (f : TimingEngine) b, f.Sized c → (f.program c b).Sized c := by
    intro f b ⟨x1, x2, x3, x4, x5, x6, _, _, x9, x10⟩
    exact ⟨x1, x2, x3, x4, x5, x6, wgStore_lt _ _, wgStore_lt _ _, x9, x10⟩
  unfold TimingEngine.tick
  split
  · apply hp
    rcases advance_cases c e with ⟨-, -, h3⟩ | ⟨-, -, h3⟩ | ⟨h1, h3⟩ <;> rw [h3]
    · obtain ⟨x1, x2, x3, x4, x5, -, x7, x8, x9, x10⟩ := load_sized hwf h
      exact ⟨x1, x2, x3, x4, x5, by simp, x7, x8, x9, x10⟩
    · obtain ⟨x1, x2, x3, x4, x5, -, x7, x8, x9, x10⟩ := h
      exact ⟨x1, x2, x3, x4, x5, by simp, x7, x8, x9, x10⟩
    · obtain ⟨x1, x2, x3, x4, x5, x6, x7, x8, x9, x10⟩ := h
      refine ⟨x1, x2, x3, x4, x5, ?_, x7, x8, x9, x10⟩
      show (e.curBit + 1#9).toNat ≤ _ + e.pause c
      rw [curBit_succ hwf x6]
      omega
  · exact h

/-- A start keeps the storage sizes and the ranges. -/
theorem start_sized {c : Config} (hwf : c.wf = true) {e : TimingEngine} {x : Bool}
    (h : e.Sized c) : (TimingEngine.start c x e).Sized c := by
  have hn := wf_slots hwf
  have : (TimingEngine.load c { e with curSlot := BitVec.ofNat 8 (c.nSlots - 1) }).Sized c := by
    apply load_sized hwf
    obtain ⟨x1, x2, x3, x4, -, x6, x7, x8, x9, x10⟩ := h
    exact ⟨x1, x2, x3, x4, by simp only [BitVec.toNat_ofNat]; omega, x6, x7, x8, x9, x10⟩
  obtain ⟨x1, x2, x3, x4, x5, -, -, -, x9, x10⟩ := this
  exact ⟨x1, x2, x3, x4, x5, by simp [TimingEngine.start], wgStore_lt _ _, wgStore_lt _ _, x9, x10⟩

end Sys2Proof.Machine
end

