-- ==== Sys2Proof/Laws/Machine.lean ====
section
/-! SUPPORT. What a command, a move and a step can do to each engine and to the control state: the case
splits that statements about the whole machine rest on. -/

namespace Sys2Proof.Machine

/-! ## A command -/

/-- A filter command or any other command that begins with a mode request touches nothing of either engine
(42_bd_commands.md R96). -/
theorem begin_filterSeq_frame (s : State) (fb mb : List Byte) :
    s.begin (filterSeq s.cfg fb mb) = { s with
      fg := (s.begin (filterSeq s.cfg fb mb)).fg
      stack := (s.begin (filterSeq s.cfg fb mb)).stack
      env := (s.begin (filterSeq s.cfg fb mb)).env
      trace := (s.begin (filterSeq s.cfg fb mb)).trace
      status := (s.begin (filterSeq s.cfg fb mb)).status
      r := (s.begin (filterSeq s.cfg fb mb)).r } := by
  apply State.ext <;> simp [State.begin, filterSeq, State.runMicro]

/-- Its first step is one transaction (42_bd_commands.md R95, R96). -/
theorem begin_filterSeq_trace (s : State) (fb mb : List Byte) :
    (s.begin (filterSeq s.cfg fb mb)).trace =
      [.spi (writeTx s.cfg s.cfg.regmap.canctrl [modeByte s.cfg s.cfg.regmap.modeConfig])]
        ++ s.trace := by
  simp [State.begin, filterSeq, State.runMicro]

/-- A `bd.commit` that succeeds (42_bd_commands.md R104). -/
theorem execBdCommit_eq {s : State} {p : Byte} (h : s.bd.resvValid = true) (hp : p = s.bd.sqFree) :
    ∃ t, execBdCommit p s = .next t ∧
      (∃ new, t.trace = new ++ s.trace) ∧
      t = { s with
        ie := s.bd.savedIe
        bd := { s.bd with
          sqFree := bump s.bd.sqFree s.cfg.mQueue
          resvValid := false
          inFlight := true }
        env := t.env
        trace := t.trace
        status := 0x00#8
        r := 0#32 } := by
  simp only [execBdCommit]
  rw [if_pos (by simp [h, hp])]
  refine ⟨_, rfl, ?_, ?_⟩
  · split
    · exact ⟨[], rfl⟩
    · exact ⟨[_, _], rfl⟩
  · split
    · rename_i hf
      apply State.ext <;> simp [hf, StatusCode.code]
    · apply State.ext <;> simp [StatusCode.code]

/-- A `bd.commit` that fails changes nothing but STATUS and R (42_bd_commands.md R104). -/
theorem execBdCommit_fail {s : State} {p : Byte} (h : ¬ (s.bd.resvValid = true ∧ p = s.bd.sqFree)) :
    execBdCommit p s = .next (s.ret .fail commitFailed) := by
  simp only [execBdCommit]
  rw [if_neg (by simpa using h)]

/-- A command that answers a next state touches the configuration, the operand words, W, the host's moves,
the TIME samples and the model's other environment fields never. -/
theorem exec_keeps {i : Instr} {s t : State} (h : exec i s = .next t) :
    t.cfg = s.cfg ∧ t.w = s.w ∧ t.a = s.a ∧ t.b = s.b ∧
      (∀ x, x ∈ s.mfault → x ∈ t.mfault) ∧ (∃ new, t.trace = new ++ s.trace) := by
  cases i <;> simp only [exec] at h
  case bdCommit p =>
    by_cases hc : s.bd.resvValid = true ∧ p = s.bd.sqFree
    · obtain ⟨u, hu, ⟨new, hn⟩, he⟩ := execBdCommit_eq hc.1 hc.2
      rw [hu] at h
      injection h with h
      subst h
      refine ⟨?_, ?_, ?_, ?_, ?_, ⟨new, hn⟩⟩ <;> rw [he]
      simp
    · rw [execBdCommit_fail hc] at h
      injection h with h
      subst h
      exact ⟨rfl, rfl, rfl, rfl, fun x hx => hx, [], rfl⟩
  case bdFiltStd | bdFiltExt | bdFiltClr =>
    simp only [execBdFiltStd, execBdFiltExt, execBdFiltClr] at h
    injection h with h
    subst h
    refine ⟨?_, ?_, ?_, ?_, ?_, ⟨[_], begin_filterSeq_trace _ _ _⟩⟩
    all_goals rw [begin_filterSeq_frame]
    simp
  all_goals simp only [execTeStart, execTeWr, execTeRd, execTeEn, execTeDis, execTeSpeed,
    execTeOneshot, execBdStart, execBdPrep, execBdFw, execBdFr, execBdAck, execIeSet,
    execIeClr] at h
  all_goals repeat' split at h
  all_goals
    injection h with h
    subst h
    refine ⟨by simp, by simp, by simp, by simp, by simp +contextual, [], by simp⟩

/-- What a command does to the Timing Engine: a `te.start` of a stopped engine starts it, a slot command
writes its one list, and every other command nothing. -/
theorem exec_te {i : Instr} {s t : State} (h : exec i s = .next t) :
    t.te = s.te ∨
    (i = .teStart ∧ s.te.running = false ∧ t.te = s.te.start s.cfg s.env.faultPin) ∨
    (∃ k j, i = .teWr k ∧ t.te = { s.te with msg := s.te.msg.set j s.a }) ∨
    (∃ k j v, (i = .teEn k ∧ v = true ∨ i = .teDis k ∧ v = false) ∧
      t.te = { s.te with en := s.te.en.set j v }) ∨
    (∃ k j v, i = .teSpeed k v ∧ t.te = { s.te with spd := s.te.spd.set j v }) ∨
    (∃ k j v, i = .teOneshot k v ∧ t.te = { s.te with os := s.te.os.set j v }) := by
  cases i <;> simp only [exec] at h
  case teStart =>
    unfold execTeStart at h
    split at h
    · injection h with h; subst h; exact .inl rfl
    · rename_i hr
      injection h with h
      subst h
      exact .inr (.inl ⟨rfl, Bool.eq_false_iff.mpr hr, by simp⟩)
  case teWr k | teEn k | teDis k | teSpeed k v | teOneshot k v | teRd k =>
    simp only [execTeWr, execTeEn, execTeDis, execTeSpeed, execTeOneshot, execTeRd] at h
    injection h with h
    subst h
    simp only [State.ret_te, State.onSlot_te]
    cases resolve s.cfg k with
    | none => exact .inl rfl
    | some j =>
      first
      | exact .inl rfl
      | exact .inr (.inr (.inl ⟨k, j, rfl, rfl⟩))
      | exact .inr (.inr (.inr (.inl ⟨k, j, true, .inl ⟨rfl, rfl⟩, rfl⟩)))
      | exact .inr (.inr (.inr (.inl ⟨k, j, false, .inr ⟨rfl, rfl⟩, rfl⟩)))
      | exact .inr (.inr (.inr (.inr (.inl ⟨k, j, v, rfl, rfl⟩))))
      | exact .inr (.inr (.inr (.inr (.inr ⟨k, j, v, rfl, rfl⟩))))
  case bdCommit p =>
    by_cases hc : s.bd.resvValid = true ∧ p = s.bd.sqFree
    · obtain ⟨u, hu, -, he⟩ := execBdCommit_eq hc.1 hc.2
      rw [hu] at h
      injection h with h
      subst h
      exact .inl (by rw [he])
    · rw [execBdCommit_fail hc] at h
      injection h with h
      subst h
      exact .inl rfl
  case bdFiltStd | bdFiltExt | bdFiltClr =>
    simp only [execBdFiltStd, execBdFiltExt, execBdFiltClr] at h
    injection h with h
    subst h
    exact .inl (by rw [begin_filterSeq_frame])
  all_goals simp only [execBdStart, execBdPrep, execBdFw, execBdFr, execBdAck, execIeSet,
    execIeClr] at h
  all_goals repeat' split at h
  all_goals
    injection h with h
    subst h
    exact .inl (by simp)

/-- What a command does to the Bus Driver. -/
theorem exec_bd {i : Instr} {s t : State} (h : exec i s = .next t) :
    t.bd = s.bd ∨
    (∃ hm he, i = .bdStart hm he ∧ t.bd = s.bd.start hm he) ∨
    (∃ x, i = .bdPrep ∧ queueFull s.bd.sqNext s.bd.sqFree s.cfg.mQueue = false ∧
      t.bd = { s.bd with savedIe := x, resvValid := true }) ∨
    (∃ p f m, i = .bdFw p f ∧ t.bd = { s.bd with sq := s.bd.sq.set p.toNat m }) ∨
    (i = .bdCommit s.bd.sqFree ∧ s.bd.resvValid = true ∧
      t.bd = { s.bd with
        sqFree := bump s.bd.sqFree s.cfg.mQueue, resvValid := false, inFlight := true }) ∨
    (∃ rec prog below, i = .bdAck ∧ s.stack = .handler rec prog :: below ∧
      t.bd = ({ s with stack := below } : State).restorePort.bd) := by
  cases i <;> simp only [exec] at h
  case bdStart hm he =>
    simp only [execBdStart] at h
    injection h with h
    subst h
    exact .inr (.inl ⟨hm, he, rfl, by simp⟩)
  case bdPrep =>
    simp only [execBdPrep] at h
    split at h
    · injection h with h; subst h; exact .inl rfl
    · rename_i hf
      injection h with h
      subst h
      exact .inr (.inr (.inl ⟨_, rfl, Bool.eq_false_iff.mpr hf, rfl⟩))
  case bdFw p f =>
    simp only [execBdFw] at h
    split at h
    · injection h with h; subst h; exact .inl rfl
    · split at h
      · injection h with h; subst h; exact .inl rfl
      · injection h with h
        subst h
        exact .inr (.inr (.inr (.inl ⟨p, f, _, rfl, rfl⟩)))
  case bdCommit p =>
    by_cases hc : s.bd.resvValid = true ∧ p = s.bd.sqFree
    · obtain ⟨u, hu, -, he⟩ := execBdCommit_eq hc.1 hc.2
      rw [hu] at h
      injection h with h
      subst h
      exact .inr (.inr (.inr (.inr (.inl ⟨by rw [hc.2], hc.1, by rw [he]⟩))))
    · rw [execBdCommit_fail hc] at h
      injection h with h
      subst h
      exact .inl rfl
  case bdAck =>
    unfold execBdAck at h
    split at h
    · rename_i rec prog below hs
      injection h with h
      subst h
      exact .inr (.inr (.inr (.inr (.inr ⟨rec, prog, below, rfl, hs, rfl⟩))))
    · injection h with h; subst h; exact .inl rfl
  case bdFiltStd | bdFiltExt | bdFiltClr =>
    simp only [execBdFiltStd, execBdFiltExt, execBdFiltClr] at h
    injection h with h
    subst h
    exact .inl (by rw [begin_filterSeq_frame])
  all_goals simp only [execTeStart, execTeWr, execTeRd, execTeEn, execTeDis, execTeSpeed,
    execTeOneshot, execBdFr, execIeSet, execIeClr] at h
  all_goals repeat' split at h
  all_goals
    injection h with h
    subst h
    exact .inl (by simp)

/-- Which commands write IE (10_state.md R16). -/
theorem exec_ie {i : Instr} {s t : State} (h : exec i s = .next t) :
    t.ie = s.ie ∨ i = .teStart ∨ i = .bdPrep ∨ (∃ p, i = .bdCommit p) ∨ i = .ieSet ∨ i = .ieClr := by
  cases i <;> simp only [exec] at h
  case teStart | bdPrep | bdCommit | ieSet | ieClr => simp
  case bdFiltStd | bdFiltExt | bdFiltClr =>
    simp only [execBdFiltStd, execBdFiltExt, execBdFiltClr] at h
    injection h with h
    subst h
    exact .inl (by rw [begin_filterSeq_frame])
  all_goals simp only [execTeWr, execTeRd, execTeEn, execTeDis, execTeSpeed,
    execTeOneshot, execBdStart, execBdFw, execBdFr, execBdAck] at h
  all_goals repeat' split at h
  all_goals
    injection h with h
    subst h
    exact .inl (by simp)

/-- What a command does to the context stack: nothing, a new progress for its own context, or, for
`bd.ack` in a handler context, that context's end. -/
theorem exec_stack {i : Instr} {s t : State} (h : exec i s = .next t) :
    t.stack = s.stack ∨ (∃ p, t.stack = (s.setProgress p).stack) ∨
    (∃ rec prog below, i = .bdAck ∧ s.stack = .handler rec prog :: below ∧ t.stack = below) := by
  cases i <;> simp only [exec] at h
  case teStart =>
    unfold execTeStart at h
    split at h
    · injection h with h; subst h; exact .inl rfl
    · injection h with h
      subst h
      refine .inr (.inl ⟨[.releaseGo], ?_⟩)
      unfold State.setProgress
      simp only
      split <;> rfl
  case bdStart hm he =>
    unfold execBdStart at h
    injection h with h
    subst h
    refine .inr (.inl ⟨startSeq s.cfg, ?_⟩)
    unfold State.setProgress
    simp only
    split <;> rfl
  case bdCommit p =>
    by_cases hc : s.bd.resvValid = true ∧ p = s.bd.sqFree
    · obtain ⟨u, hu, -, he⟩ := execBdCommit_eq hc.1 hc.2
      rw [hu] at h
      injection h with h
      subst h
      exact .inl (by rw [he])
    · rw [execBdCommit_fail hc] at h
      injection h with h
      subst h
      exact .inl rfl
  case bdAck =>
    unfold execBdAck at h
    split at h
    · rename_i rec prog below hs
      injection h with h
      subst h
      exact .inr (.inr ⟨rec, prog, below, rfl, hs, by simp⟩)
    · injection h with h; subst h; exact .inl rfl
  case bdFiltStd | bdFiltExt | bdFiltClr =>
    simp only [execBdFiltStd, execBdFiltExt, execBdFiltClr, State.begin, filterSeq] at h
    injection h with h
    subst h
    obtain ⟨p, hp, -⟩ := runMicro_stack s (.requestMode s.cfg.regmap.modeConfig) _
    exact .inr (.inl ⟨p, hp⟩)
  all_goals simp only [execTeWr, execTeRd, execTeEn, execTeDis, execTeSpeed,
    execTeOneshot, execBdPrep, execBdFw, execBdFr, execIeSet, execIeClr] at h
  all_goals repeat' split at h
  all_goals
    injection h with h
    subst h
    exact .inl (by simp)

/-! ## A move and a step -/

/-- A command issued is an exec of the decoded instruction, or an illegal word's answer. -/
theorem issue_next {w : Word} {s t : State} (h : issue w s = .next t) :
    (∃ i, decode w = .ok i ∧ exec i { s with w := w } = .next t) ∨
    (∃ e, decode w = .error e ∧ t = ({ s with w := w } : State).illegalCommand) := by
  rcases issue_cases w s with ⟨i, hd, he⟩ | ⟨e, hd, he⟩
  · exact .inl ⟨i, hd, he ▸ h⟩
  · rw [he] at h
    injection h with h
    exact .inr ⟨e, hd, h.symm⟩

/-- A command step of an interrupted or waiting machine is about to be issued. -/
theorem aboutToIssue_of {s : State} {w : Word} {rest : List Move} {i : Instr}
    (hm : s.env.moves = .command w :: rest) (ha : s.awaiting = true) (hd : decode w = .ok i) :
    s.aboutToIssue i := ⟨w, rest, ha, hm, hd⟩

/-- What a step of an interrupt context does to the Timing Engine: the tick, the fault handler of a running
engine, or nothing. -/
theorem isrStep_te (s : State) (v : Irq) (pos : IsrPos) :
    (s.isrStep v pos).te = s.te ∨
    (v = .tick ∧ pos = .start ∧ (s.isrStep v pos).te = s.te.tick s.cfg) ∨
    (v = .fault ∧ pos = .start ∧ s.te.running = true ∧
      (s.isrStep v pos).te = { s.te with running := false, go := false }) := by
  cases pos with
  | start =>
    cases v with
    | fault =>
      by_cases hr : s.te.running = true
      · exact .inr (.inr ⟨rfl, rfl, hr, by
          simp [State.isrStep, State.isrStart, State.faultHandler, hr]⟩)
      · exact .inl (by simp [State.isrStep, State.isrStart, State.faultHandler, hr])
    | tick => exact .inr (.inl ⟨rfl, rfl, rfl⟩)
    | can =>
      refine .inl ?_
      simp only [State.isrStep, State.isrStart, State.setIsrPos_te]
      rw [canPhase1_frame]
  | guard q =>
    refine .inl ?_
    simp only [State.isrStep, State.drainGuard]
    split <;> (try cases q) <;> simp [State.drainDone]
  | check q =>
    refine .inl ?_
    simp only [State.isrStep, State.drainCheck]
    split
    · cases q <;> simp [State.drainDone]
    · split <;> simp
  | advance q => exact .inl (by simp [State.isrStep, State.drainAdvance])

/-- What a step of an interrupt context does to the Bus Driver. -/
theorem isrStep_bd (s : State) (v : Irq) (pos : IsrPos) :
    (s.isrStep v pos).bd = s.bd ∨
    (v = .can ∧ pos = .start ∧ (s.isrStep v pos).bd = s.canPhase1.bd) ∨
    (∃ q g, (s.isrStep v pos).bd = s.bd.setDraining q g) ∨
    (∃ q, pos = .check q ∧ queueEmpty (s.bd.next q) (s.bd.free q) = false ∧
      (s.isrStep v pos).bd =
        { s.bd with evtValid := true, evtKind := q, evtRec := s.bd.oldest q }) ∨
    (∃ q, pos = .advance q ∧ (s.isrStep v pos).bd = s.bd.advanceNext s.cfg q) := by
  cases pos with
  | start =>
    cases v with
    | fault => exact .inl (by simp [State.isrStep, State.isrStart])
    | tick => exact .inl (by simp [State.isrStep, State.isrStart])
    | can =>
      exact .inr (.inl ⟨rfl, rfl, by simp [State.isrStep, State.isrStart]⟩)
  | guard q =>
    simp only [State.isrStep, State.drainGuard]
    split
    · exact .inl (by cases q <;> simp [State.drainDone])
    · exact .inr (.inr (.inl ⟨q, true, by simp⟩))
  | check q =>
    simp only [State.isrStep, State.drainCheck]
    split
    · exact .inr (.inr (.inl ⟨q, false, by cases q <;> simp [State.drainDone]⟩))
    · rename_i he
      split
      · exact .inr (.inr (.inr (.inl ⟨q, rfl, Bool.eq_false_iff.mpr he, by simp⟩)))
      · exact .inl (by simp)
  | advance q =>
    exact .inr (.inr (.inr (.inr ⟨q, rfl, by simp [State.isrStep, State.drainAdvance]⟩)))

/-- The branches of the CAN handler do not read the moves still to come. -/
theorem errorBranch_bd_moves (s : State) (rest : List Move) (x : Byte) :
    (({ s with env.moves := rest } : State).errorBranch x).bd = (s.errorBranch x).bd := by
  by_cases h : queueFull s.bd.eqNext s.bd.eqFree s.cfg.eQueue = true
  · simp [State.errorBranch, h]
  · simp [State.errorBranch, h, State.time]

theorem transmitBranch_bd_moves (s : State) (rest : List Move) :
    (({ s with env.moves := rest } : State).transmitBranch).bd = s.transmitBranch.bd := by
  simp only [State.transmitBranch]
  split
  · split <;> simp
  · rfl

theorem receiveBranch_bd_moves (s : State) (rest : List Move) :
    (({ s with env.moves := rest } : State).receiveBranch).bd = s.receiveBranch.bd := by
  by_cases h : queueFull s.bd.rqNext s.bd.rqFree s.cfg.mQueue = true
  · simp [State.receiveBranch, h]
  · simp only [State.receiveBranch, h]
    rfl

/-- A transaction does not read the moves still to come. -/
theorem spi_moves (s : State) (rest : List Move) (out : List Byte) :
    ({ s with env.moves := rest } : State).spi out =
      { s.spi out with env.moves := rest } := rfl

theorem canPhase1_bd_moves (s : State) (rest : List Move) :
    (({ s with env.moves := rest } : State).canPhase1).bd = s.canPhase1.bd := by
  have ha (j : Nat) : ({ s with env.moves := rest } : State).answer j = s.answer j := rfl
  simp only [State.canPhase1, ha, spi_moves]
  split
  · exact errorBranch_bd_moves _ rest _
  split
  · exact transmitBranch_bd_moves _ rest
  split
  · exact receiveBranch_bd_moves _ rest
  · rfl

/-- What a step of an interrupt context does does not depend on the moves still to come. -/
theorem isrStep_bd_moves (s : State) (rest : List Move) (v : Irq) (pos : IsrPos) :
    (({ s with env.moves := rest } : State).isrStep v pos).bd = (s.isrStep v pos).bd := by
  cases pos with
  | start =>
    cases v with
    | fault => simp [State.isrStep, State.isrStart]
    | tick => simp [State.isrStep, State.isrStart]
    | can =>
      simp only [State.isrStep, State.isrStart, State.setIsrPos_bd, canPhase1_bd_moves]
  | guard q =>
    simp only [State.isrStep, State.drainGuard]
    split <;> cases q <;> simp [State.drainDone]
  | check q =>
    simp only [State.isrStep, State.drainCheck]
    split
    · cases q <;> simp [State.drainDone]
    · split <;> simp
  | advance q => simp [State.isrStep, State.drainAdvance]

/-- What a step of the core does to the Timing Engine. -/
theorem coreStep_te (s : State) :
    s.coreStep.te = s.te ∨
    (∃ below, s.stack = .isr .tick .start :: below ∧ s.coreStep.te = s.te.tick s.cfg) ∨
    (∃ below, s.stack = .isr .fault .start :: below ∧ s.te.running = true ∧
      s.coreStep.te = { s.te with running := false, go := false }) ∨
    (∃ rest, s.progress = some (.releaseGo :: rest) ∧
      s.coreStep.te = { s.te with go := true }) := by
  rcases coreStep_cases s with ⟨v, pos, below, hs, he⟩ | ⟨m, rest, hp, he⟩ | ⟨-, he⟩
  · rw [he]
    rcases isrStep_te s v pos with h | ⟨rfl, rfl, h⟩ | ⟨rfl, rfl, hr, h⟩
    · exact .inl h
    · exact .inr (.inl ⟨below, hs, h⟩)
    · exact .inr (.inr (.inl ⟨below, hs, hr, h⟩))
  · rw [he]
    by_cases hm : m = .releaseGo
    · subst hm
      exact .inr (.inr (.inr ⟨rest, hp, by simp [State.runMicro]⟩))
    · refine .inl ?_
      rw [runMicro_frame]
      simp [runMicro_go, hm]
  · exact .inl (by rw [he])

/-- What a step of the machine does to the Timing Engine: nothing, a period boundary, a sample of FAULT, an
interrupt entry, a step of the core, or a command. -/
theorem step_te_cases {s t : State} (h : step s = .next t) :
    t.te = s.te ∨
    (s.te.timerArmed = true ∧
      t.te = { s.te with
        wgLPeriod := s.te.wgPeriod, wgLDuty := s.te.wgDuty, tickPend := true }) ∨
    (∃ x b, (b = true → s.te.faultPend = true ∨ s.te.running = true) ∧
      t.te = { s.te with faultPend := b, faultPrev := x }) ∨
    (∃ b d, (b = true → s.te.faultPend = true) ∧ (d = true → s.te.tickPend = true) ∧
      t.te = { s.te with faultPend := b, tickPend := d }) ∨
    (∃ below, s.stack = .isr .tick .start :: below ∧ t.te = s.te.tick s.cfg) ∨
    (∃ below, s.stack = .isr .fault .start :: below ∧ s.te.running = true ∧
      t.te = { s.te with running := false, go := false }) ∨
    (∃ rest, s.progress = some (.releaseGo :: rest) ∧ t.te = { s.te with go := true }) ∨
    (s.aboutToIssue .teStart ∧ s.te.running = false ∧
      t.te = s.te.start s.cfg s.env.faultPin) ∨
    (∃ k j, s.aboutToIssue (.teWr k) ∧ t.te = { s.te with msg := s.te.msg.set j s.a }) ∨
    (∃ k j v, (s.aboutToIssue (.teEn k) ∧ v = true ∨ s.aboutToIssue (.teDis k) ∧ v = false) ∧
      t.te = { s.te with en := s.te.en.set j v }) ∨
    (∃ k j v, s.aboutToIssue (.teSpeed k v) ∧ t.te = { s.te with spd := s.te.spd.set j v }) ∨
    (∃ k j v, s.aboutToIssue (.teOneshot k v) ∧ t.te = { s.te with os := s.te.os.set j v }) := by
  obtain ⟨-, ⟨-, rfl⟩ | ⟨m, rest, hm, hh, ha⟩⟩ := step_next_cases h
  · rcases coreStep_te s with h1 | h1 | h1 | h1
    · exact .inl h1
    · exact .inr (.inr (.inr (.inr (.inl h1))))
    · exact .inr (.inr (.inr (.inr (.inr (.inl h1)))))
    · exact .inr (.inr (.inr (.inr (.inr (.inr (.inl h1))))))
  · cases m with
    | core =>
      simp only [applyMove] at ha
      injection ha with ha
      subst ha
      rcases coreStep_te { s with env.moves := rest } with h1 | h1 | h1 | h1
      · exact .inl h1
      · exact .inr (.inr (.inr (.inr (.inl h1))))
      · exact .inr (.inr (.inr (.inr (.inr (.inl h1)))))
      · exact .inr (.inr (.inr (.inr (.inr (.inr (.inl h1))))))
    | emit =>
      simp only [applyMove] at ha
      injection ha with ha
      subst ha
      unfold State.emit
      split
      · exact .inr (.inl ⟨‹_›, rfl⟩)
      · exact .inl rfl
    | fault x =>
      simp only [applyMove] at ha
      injection ha with ha
      subst ha
      refine .inr (.inr (.inl ⟨x, _, ?_, rfl⟩))
      intro hb
      by_cases hc : (!s.te.faultPrev && x && s.te.running) = true
      · simp only [Bool.and_eq_true] at hc
        exact .inr hc.2
      · exact .inl (by simpa [hc] using hb)
    | take v =>
      simp only [applyMove] at ha
      injection ha with ha
      subst ha
      unfold State.take
      split
      · refine .inr (.inr (.inr (.inl ⟨_, _, ?_, ?_, rfl⟩)))
        · cases v <;> simp
        · cases v <;> simp
      · exact .inl rfl
    | writeA x =>
      simp only [applyMove] at ha
      injection ha with ha
      subst ha
      exact .inl rfl
    | writeB x =>
      simp only [applyMove] at ha
      injection ha with ha
      subst ha
      exact .inl rfl
    | command w =>
      simp only [applyMove] at ha
      have haw := hh rfl
      rcases issue_next ha with ⟨i, hd, he⟩ | ⟨e, -, rfl⟩
      · have hi := aboutToIssue_of hm haw hd
        rcases exec_te he with h1 | ⟨rfl, h1, h2⟩ | ⟨k, j, rfl, h1⟩ | ⟨k, j, v, h0, h1⟩ |
          ⟨k, j, v, rfl, h1⟩ | ⟨k, j, v, rfl, h1⟩
        · exact .inl h1
        · exact .inr (.inr (.inr (.inr (.inr (.inr (.inr (.inl ⟨hi, h1, h2⟩)))))))
        · exact .inr (.inr (.inr (.inr (.inr (.inr (.inr (.inr (.inl ⟨k, j, hi, h1⟩))))))))
        · refine .inr (.inr (.inr (.inr (.inr (.inr (.inr (.inr (.inr (.inl
            ⟨k, j, v, ?_, h1⟩)))))))))
          rcases h0 with ⟨rfl, hv⟩ | ⟨rfl, hv⟩
          · exact .inl ⟨hi, hv⟩
          · exact .inr ⟨hi, hv⟩
        · exact .inr (.inr (.inr (.inr (.inr (.inr (.inr (.inr (.inr (.inr (.inl
            ⟨k, j, v, hi, h1⟩))))))))))
        · exact .inr (.inr (.inr (.inr (.inr (.inr (.inr (.inr (.inr (.inr (.inr
            ⟨k, j, v, hi, h1⟩))))))))))
      · exact .inl rfl

/-- What a step of the machine does to the Bus Driver: nothing, a step of an interrupt context, or a
command. -/
theorem step_bd_cases {s t : State} (h : step s = .next t) :
    t.bd = s.bd ∨
    (∃ v pos below, s.stack = .isr v pos :: below ∧ t.bd = (s.isrStep v pos).bd) ∨
    (∃ hm he, s.aboutToIssue (.bdStart hm he) ∧ t.bd = s.bd.start hm he) ∨
    (∃ x, s.aboutToIssue .bdPrep ∧ queueFull s.bd.sqNext s.bd.sqFree s.cfg.mQueue = false ∧
      t.bd = { s.bd with savedIe := x, resvValid := true }) ∨
    (∃ p f m, s.aboutToIssue (.bdFw p f) ∧ t.bd = { s.bd with sq := s.bd.sq.set p.toNat m }) ∨
    (s.aboutToIssue (.bdCommit s.bd.sqFree) ∧ s.bd.resvValid = true ∧
      t.bd = { s.bd with
        sqFree := bump s.bd.sqFree s.cfg.mQueue, resvValid := false, inFlight := true }) ∨
    (∃ rec prog below, s.aboutToIssue .bdAck ∧ s.stack = .handler rec prog :: below ∧
      t.bd = ({ s with stack := below } : State).restorePort.bd) := by
  obtain ⟨-, ⟨-, rfl⟩ | ⟨m, rest, hm, hh, ha⟩⟩ := step_next_cases h
  · rcases coreStep_cases s with ⟨v, pos, below, hs, he⟩ | ⟨m, rest, -, he⟩ | ⟨-, he⟩
    · exact .inr (.inl ⟨v, pos, below, hs, by rw [he]⟩)
    · exact .inl (by rw [he, runMicro_frame])
    · exact .inl (by rw [he])
  · cases m with
    | core =>
      simp only [applyMove] at ha
      injection ha with ha
      subst ha
      rcases coreStep_cases { s with env.moves := rest } with ⟨v, pos, below, hs, he⟩ |
        ⟨m, rest, -, he⟩ | ⟨-, he⟩
      · refine .inr (.inl ⟨v, pos, below, hs, ?_⟩)
        rw [he]
        exact isrStep_bd_moves s rest v pos
      · exact .inl (by rw [he, runMicro_frame])
      · exact .inl (by rw [he])
    | emit =>
      simp only [applyMove] at ha
      injection ha with ha
      subst ha
      exact .inl (by simp)
    | fault x =>
      simp only [applyMove] at ha
      injection ha with ha
      subst ha
      exact .inl rfl
    | take v =>
      simp only [applyMove] at ha
      injection ha with ha
      subst ha
      unfold State.take
      split <;> exact .inl rfl
    | writeA x =>
      simp only [applyMove] at ha
      injection ha with ha
      subst ha
      exact .inl rfl
    | writeB x =>
      simp only [applyMove] at ha
      injection ha with ha
      subst ha
      exact .inl rfl
    | command w =>
      simp only [applyMove] at ha
      have haw := hh rfl
      rcases issue_next ha with ⟨i, hd, he⟩ | ⟨e, -, rfl⟩
      · have hi := aboutToIssue_of hm haw hd
        rcases exec_bd he with h1 | ⟨x, y, rfl, h1⟩ | ⟨x, rfl, h1, h2⟩ | ⟨p, f, m, rfl, h1⟩ |
          ⟨rfl, h1, h2⟩ | ⟨rec, prog, below, rfl, h1, h2⟩
        · exact .inl h1
        · exact .inr (.inr (.inl ⟨x, y, hi, h1⟩))
        · exact .inr (.inr (.inr (.inl ⟨x, hi, h1, h2⟩)))
        · exact .inr (.inr (.inr (.inr (.inl ⟨p, f, m, hi, h1⟩))))
        · exact .inr (.inr (.inr (.inr (.inr (.inl ⟨hi, h1, h2⟩)))))
        · refine .inr (.inr (.inr (.inr (.inr (.inr ⟨rec, prog, below, hi, h1, ?_⟩)))))
          rw [h2]
          unfold State.restorePort
          simp only
          split <;> rfl
      · exact .inl rfl

/-! ## The control state -/

/-- Two Bus Drivers show the same on the event port (10_state.md R30). -/
abbrev SamePort (d e : BusDriver) : Prop :=
  d.evtValid = e.evtValid ∧ d.evtKind = e.evtKind ∧ d.evtRec = e.evtRec

theorem samePort_setDraining (d : BusDriver) (q : EventKind) (g : Bool) :
    SamePort (d.setDraining q g) d := by
  cases q <;> exact ⟨rfl, rfl, rfl⟩

theorem samePort_advanceNext (d : BusDriver) (c : Config) (q : EventKind) :
    SamePort (d.advanceNext c q) d := by
  cases q <;> exact ⟨rfl, rfl, rfl⟩

theorem samePort_canPhase1 (s : State) : SamePort s.canPhase1.bd s.bd := by
  rcases canPhase1_bd s with h | ⟨_, _, h⟩ | ⟨_, h⟩ | ⟨_, _, h⟩ <;> rw [h] <;>
    exact ⟨rfl, rfl, rfl⟩

/-- What a step of an interrupt context does to the context stack, IE and the port: the handler returns,
moves to a later step with IE left alone or cleared, or delivers an event (60_exceptions.md R123,
43_bd_interrupt.md R112, R113). -/
theorem isrStep_control {s : State} {v : Irq} {pos : IsrPos} {below : List Context}
    (h : s.stack = .isr v pos :: below) :
    ((s.isrStep v pos).stack = below ∧ (s.isrStep v pos).ie = true ∧
      SamePort (s.isrStep v pos).bd s.bd) ∨
    (∃ pos', (v = .can ∨ pos ≠ .start) ∧ (s.isrStep v pos).stack = .isr v pos' :: below ∧
      ((interruptible s.stack = false ∧ (s.isrStep v pos).ie = s.ie) ∨
        (s.isrStep v pos).ie = false) ∧ SamePort (s.isrStep v pos).bd s.bd) ∨
    (∃ q, pos = .check q ∧
      (s.isrStep v pos).stack = .handler (s.bd.oldest q) [] :: .isr v (.advance q) :: below ∧
      (s.isrStep v pos).ie = true ∧
      (s.isrStep v pos).bd =
        { s.bd with evtValid := true, evtKind := q, evtRec := s.bd.oldest q }) := by
  have same : SamePort s.bd s.bd := ⟨rfl, rfl, rfl⟩
  have hd : ∀ (u : State) (q : EventKind), u.stack = .isr v pos :: below →
      ((u.drainDone q).stack = below ∧ (u.drainDone q).ie = true ∧
        (u.drainDone q).bd = u.bd) ∨
      ((u.drainDone q).stack = .isr v (.guard .message) :: below ∧ (u.drainDone q).ie = u.ie ∧
        (u.drainDone q).bd = u.bd) := by
    intro u q hu
    cases q with
    | error => exact .inr (by rw [drainDone_error hu]; simp)
    | message => exact .inl (by rw [drainDone_message hu]; simp)
  cases pos with
  | start =>
    cases v with
    | fault => exact .inl ⟨by simp [State.isrStep, State.isrStart, h], rfl, by
        simp only [State.isrStep, State.isrStart, State.interruptReturn_bd, State.faultHandler_bd]
        exact same⟩
    | tick => exact .inl ⟨by simp [State.isrStep, State.isrStart, h], rfl, same⟩
    | can =>
      have hc : s.canPhase1.stack = .isr .can .start :: below := by rw [canPhase1_frame]; exact h
      refine .inr (.inl ⟨.guard .error, .inl rfl, ?_, .inl ⟨by rw [h]; rfl, ?_⟩, ?_⟩)
      · simp only [State.isrStep, State.isrStart, setIsrPos_of_isr hc]
      · simp only [State.isrStep, State.isrStart, setIsrPos_of_isr hc]
        rw [canPhase1_frame]
      · simp only [State.isrStep, State.isrStart, State.setIsrPos_bd]
        exact samePort_canPhase1 s
  | guard q =>
    simp only [State.isrStep, drainGuard_eq h]
    split
    · rcases hd s q h with ⟨h1, h2, h3⟩ | ⟨h1, h2, h3⟩
      · exact .inl ⟨h1, h2, by rw [h3]; exact same⟩
      · exact .inr (.inl ⟨_, .inr (by simp), h1, .inl ⟨by rw [h]; rfl, h2⟩, by rw [h3]; exact same⟩)
    · exact .inr (.inl ⟨.check q, .inr (by simp), rfl, .inl ⟨by rw [h]; rfl, rfl⟩,
        samePort_setDraining _ _ _⟩)
  | check q =>
    simp only [State.isrStep, drainCheck_eq h]
    split
    · rcases hd { s with ie := false, bd := s.bd.setDraining q false } q h with
        ⟨h1, h2, h3⟩ | ⟨h1, h2, h3⟩
      · exact .inl ⟨h1, h2, by rw [h3]; exact samePort_setDraining _ _ _⟩
      · exact .inr (.inl ⟨_, .inr (by simp), h1, .inr h2, by
          rw [h3]; exact samePort_setDraining _ _ _⟩)
    · split
      · exact .inr (.inr ⟨q, rfl, rfl, rfl, by simp⟩)
      · exact .inr (.inl ⟨.advance q, .inr (by simp), rfl, .inr (by simp), same⟩)
  | advance q =>
    simp only [State.isrStep, drainAdvance_eq h]
    exact .inr (.inl ⟨.check q, .inr (by simp), rfl, .inr (by simp), samePort_advanceNext _ _ _⟩)

/-- What a step of an interrupt context does to the stack and IE does not depend on the moves still to
come. -/
theorem isrStep_control_moves (s : State) (rest : List Move) {v : Irq} {pos : IsrPos}
    {below : List Context} (h : s.stack = .isr v pos :: below) :
    (({ s with env.moves := rest } : State).isrStep v pos).stack = (s.isrStep v pos).stack ∧
      (({ s with env.moves := rest } : State).isrStep v pos).ie = (s.isrStep v pos).ie := by
  have hm : ({ s with env.moves := rest } : State).stack = .isr v pos :: below := h
  cases pos with
  | start =>
    cases v with
    | fault => simp [State.isrStep, State.isrStart]
    | tick => simp [State.isrStep, State.isrStart]
    | can =>
      have hc : s.canPhase1.stack = .isr .can .start :: below := by rw [canPhase1_frame]; exact h
      have hd : ({ s with env.moves := rest } : State).canPhase1.stack =
          .isr .can .start :: below := by rw [canPhase1_frame]; exact h
      simp only [State.isrStep, State.isrStart, setIsrPos_of_isr hc, setIsrPos_of_isr hd]
      refine ⟨trivial, ?_⟩
      rw [canPhase1_frame, canPhase1_frame s]
  | guard q =>
    simp only [State.isrStep, drainGuard_eq h, drainGuard_eq hm]
    cases q <;> split <;> simp [drainDone_error h, drainDone_error hm, drainDone_message h,
      drainDone_message hm]
  | check q =>
    simp only [State.isrStep, State.drainCheck]
    split
    · cases q <;> simp [State.drainDone, State.setIsrPos, h]
    · split <;> simp [State.setIsrPos, h]
  | advance q => simp [State.isrStep, State.drainAdvance, State.setIsrPos, h]

/-- What a step of an interrupt context does to IE: the fault and the tick handler return, and so does the
inbound drain's skipped guard; the check and advance steps of a drain write it; no other step does (10_state.md
R16). -/
theorem isrStep_ie {s : State} {v : Irq} {pos : IsrPos} {below : List Context}
    (h : s.stack = .isr v pos :: below) :
    (s.isrStep v pos).ie = s.ie ∨
    (pos = .start ∧ v ≠ .can ∧ (s.isrStep v pos).ie = true ∧ (s.isrStep v pos).stack = below) ∨
    (∃ q, pos = .check q ∨ pos = .advance q) ∨
    (pos = .guard .message ∧ s.bd.rqDraining = true ∧ (s.isrStep v pos).ie = true ∧
      (s.isrStep v pos).stack = below) := by
  cases pos with
  | start =>
    cases v with
    | fault => exact .inr (.inl ⟨rfl, by simp, rfl, by simp [State.isrStep, State.isrStart, h]⟩)
    | tick => exact .inr (.inl ⟨rfl, by simp, rfl, by simp [State.isrStep, State.isrStart, h]⟩)
    | can =>
      refine .inl ?_
      simp only [State.isrStep, State.isrStart, State.setIsrPos_ie]
      rw [canPhase1_frame]
  | guard q =>
    simp only [State.isrStep, drainGuard_eq h]
    cases q with
    | error => split <;> exact .inl (by simp [drainDone_error h])
    | message =>
      split
      · rename_i hg
        exact .inr (.inr (.inr ⟨rfl, hg, by simp [drainDone_message h], by simp [drainDone_message h]⟩))
      · exact .inl rfl
  | check q => exact .inr (.inr (.inl ⟨q, .inl rfl⟩))
  | advance q => exact .inr (.inr (.inl ⟨q, .inr rfl⟩))

/-- What a step of the machine does to the context stack and IE: nothing, an interrupt entry, a step of an
interrupt context, a new progress for a foreground or handler context, or a command. -/
theorem step_control_cases {s t : State} (h : step s = .next t) :
    (t.stack = s.stack ∧ t.ie = s.ie ∧ t.bd = s.bd) ∨
    (∃ v rest, s.env.moves = .take v :: rest ∧ s.mayTake v = true ∧
      t.stack = .isr v .start :: s.stack ∧ t.ie = false ∧ t.bd = s.bd) ∨
    (s.coreRuns ∧ ∃ v pos below, s.stack = .isr v pos :: below ∧ t.stack = (s.isrStep v pos).stack ∧
      t.ie = (s.isrStep v pos).ie ∧ t.bd = (s.isrStep v pos).bd) ∨
    (∃ m rest p, s.progress = some (m :: rest) ∧ t.stack = (s.setProgress p).stack ∧
      t.ie = s.ie ∧ t.bd = s.bd) ∨
    (∃ i u, s.aboutToIssue i ∧ u.stack = s.stack ∧ u.ie = s.ie ∧ u.fg = s.fg ∧
      u.bd = s.bd ∧ exec i u = .next t) := by
  have micro : ∀ (u : State) (m : MicroStep) (rest : Progress), u.stack = s.stack → u.fg = s.fg →
      u.ie = s.ie → u.progress = some (m :: rest) → ∃ p, s.progress = some (m :: rest) ∧
      (u.runMicro m rest).stack = (s.setProgress p).stack ∧ (u.runMicro m rest).ie = s.ie ∧
      (u.runMicro m rest).bd = u.bd := by
    intro u m rest h1 h2 h3 hp
    obtain ⟨p, hs, -⟩ := runMicro_stack u m rest
    refine ⟨p, ?_, ?_, ?_, by rw [runMicro_frame]⟩
    · rw [← hp]; unfold State.progress; rw [h1, h2]
    · rw [hs]
      unfold State.setProgress
      rw [h1]
      split <;> first | rfl | exact h1
    · rw [runMicro_frame]; exact h3
  obtain ⟨-, ⟨hr, rfl⟩ | ⟨m, rest, hm, hh, ha⟩⟩ := step_next_cases h
  · rcases coreStep_cases s with ⟨v, pos, below, hs, he⟩ | ⟨m, rest, hp, he⟩ | ⟨-, he⟩
    · exact .inr (.inr (.inl ⟨hr, v, pos, below, hs, by rw [he], by rw [he], by rw [he]⟩))
    · obtain ⟨p, h1, h2, h3, h4⟩ := micro s m rest rfl rfl rfl hp
      exact .inr (.inr (.inr (.inl ⟨m, rest, p, h1, by rw [he, h2], by rw [he, h3],
        by rw [he, h4]⟩)))
    · exact .inl (by rw [he]; simp)
  · cases m with
    | core =>
      simp only [applyMove] at ha
      injection ha with ha
      subst ha
      rcases coreStep_cases { s with env.moves := rest } with ⟨v, pos, below, hs, he⟩ |
        ⟨m, left, hp, he⟩ | ⟨-, he⟩
      · obtain ⟨h1, h2⟩ := isrStep_control_moves s rest (below := below) hs
        exact .inr (.inr (.inl ⟨.inr ⟨_, rest, hm, .inl rfl⟩, v, pos, below, hs, by rw [he, h1],
          by rw [he, h2], by rw [he, isrStep_bd_moves]⟩))
      · obtain ⟨p, h1, h2, h3, h4⟩ := micro { s with env.moves := rest } m left rfl rfl rfl hp
        exact .inr (.inr (.inr (.inl ⟨m, left, p, h1, by rw [he, h2], by rw [he, h3],
          by rw [he, h4]⟩)))
      · exact .inl (by rw [he]; simp)
    | emit =>
      simp only [applyMove] at ha
      injection ha with ha
      subst ha
      exact .inl (by simp)
    | fault x =>
      simp only [applyMove] at ha
      injection ha with ha
      subst ha
      exact .inl ⟨rfl, rfl, rfl⟩
    | take v =>
      simp only [applyMove] at ha
      injection ha with ha
      subst ha
      unfold State.take
      split
      · rename_i ht
        exact .inr (.inl ⟨v, rest, hm, by cases v <;> exact ht, rfl, rfl, rfl⟩)
      · exact .inl ⟨rfl, rfl, rfl⟩
    | writeA x =>
      simp only [applyMove] at ha
      injection ha with ha
      subst ha
      exact .inl ⟨rfl, rfl, rfl⟩
    | writeB x =>
      simp only [applyMove] at ha
      injection ha with ha
      subst ha
      exact .inl ⟨rfl, rfl, rfl⟩
    | command w =>
      simp only [applyMove] at ha
      rcases issue_next ha with ⟨i, hd, he⟩ | ⟨e, -, rfl⟩
      · refine .inr (.inr (.inr (.inr ⟨i, _, aboutToIssue_of hm (hh rfl) hd, ?_, ?_, ?_, ?_, he⟩)))
        all_goals rfl
      · exact .inl ⟨rfl, rfl, rfl⟩

/-- A step changes neither the configuration nor what is in MFAULT already, and only adds to the trace. -/
theorem coreStep_keeps (s : State) :
    s.coreStep.cfg = s.cfg ∧ s.coreStep.mfault = s.mfault ∧
      ∃ new, s.coreStep.trace = new ++ s.trace := by
  rcases coreStep_cases s with ⟨v, pos, below, hs, he⟩ | ⟨m, rest, -, he⟩ | ⟨-, he⟩
  · rw [he]
    cases pos with
    | start =>
      cases v with
      | fault =>
        refine ⟨by simp [State.isrStep, State.isrStart], by simp [State.isrStep, State.isrStart], ?_⟩
        simp only [State.isrStep, State.isrStart, State.interruptReturn_trace, State.faultHandler]
        split
        · exact ⟨[_], rfl⟩
        · exact ⟨[], rfl⟩
      | tick => exact ⟨rfl, rfl, [], rfl⟩
      | can =>
        simp only [State.isrStep, State.isrStart, State.setIsrPos_cfg, State.setIsrPos_mfault,
          State.setIsrPos_trace]
        refine ⟨?_, ?_, canPhase1_trace s⟩ <;> rw [canPhase1_frame]
    | guard q =>
      simp only [State.isrStep, State.drainGuard]
      split <;> cases q <;> exact ⟨by simp [State.drainDone], by simp [State.drainDone], [],
        by simp [State.drainDone]⟩
    | check q =>
      simp only [State.isrStep, State.drainCheck]
      split
      · cases q <;> exact ⟨by simp [State.drainDone], by simp [State.drainDone], [],
          by simp [State.drainDone]⟩
      · split <;> exact ⟨by simp, by simp, [], by simp⟩
    | advance q =>
      exact ⟨by simp [State.isrStep, State.drainAdvance], by simp [State.isrStep,
        State.drainAdvance], [], by simp [State.isrStep, State.drainAdvance]⟩
  · rw [he]
    refine ⟨by rw [runMicro_frame], by rw [runMicro_frame], ?_⟩
    cases m <;> simp only [State.runMicro] <;> (repeat' split) <;>
      simp only [State.goOn_trace, State.pollAgain_trace, State.emitTrace_trace,
        State.spi_trace] <;> exact ⟨[_], rfl⟩
  · rw [he]
    exact ⟨rfl, rfl, [], rfl⟩

/-- A step of the core writes no operand word and not W: only the host does (10_state.md R15). -/
theorem coreStep_words (s : State) :
    s.coreStep.w = s.w ∧ s.coreStep.a = s.a ∧ s.coreStep.b = s.b := by
  rcases coreStep_cases s with ⟨v, pos, below, hs, he⟩ | ⟨m, rest, -, he⟩ | ⟨-, he⟩
  · rw [he]
    cases pos with
    | start =>
      cases v with
      | fault => simp [State.isrStep, State.isrStart]
      | tick => simp [State.isrStep, State.isrStart]
      | can =>
        simp only [State.isrStep, State.isrStart, State.setIsrPos_w, State.setIsrPos_a,
          State.setIsrPos_b]
        rw [canPhase1_frame]
        exact ⟨rfl, rfl, rfl⟩
    | guard q =>
      simp only [State.isrStep, State.drainGuard]
      split <;> cases q <;> simp [State.drainDone]
    | check q =>
      simp only [State.isrStep, State.drainCheck]
      split
      · cases q <;> simp [State.drainDone]
      · split <;> simp
    | advance q => simp [State.isrStep, State.drainAdvance]
  · rw [he, runMicro_frame]
    exact ⟨rfl, rfl, rfl⟩
  · rw [he]
    exact ⟨rfl, rfl, rfl⟩

/-- A step of the core leaves the moves still to come as they are. -/
theorem coreStep_moves (s : State) : s.coreStep.env.moves = s.env.moves := by
  rcases coreStep_cases s with ⟨v, pos, below, hs, he⟩ | ⟨m, rest, -, he⟩ | ⟨-, he⟩
  · rw [he]
    cases pos with
    | start =>
      cases v with
      | fault => simp [State.isrStep, State.isrStart]
      | tick => simp [State.isrStep, State.isrStart]
      | can =>
        simp only [State.isrStep, State.isrStart, State.setIsrPos_env, State.canPhase1,
          State.errorBranch, State.transmitBranch, State.receiveBranch]
        repeat' split
        all_goals rfl
    | guard q =>
      simp only [State.isrStep, State.drainGuard]
      split <;> cases q <;> simp [State.drainDone]
    | check q =>
      simp only [State.isrStep, State.drainCheck]
      split
      · cases q <;> simp [State.drainDone]
      · split <;> simp
    | advance q => simp [State.isrStep, State.drainAdvance]
  · rw [he]
    cases m <;> simp only [State.runMicro] <;> (repeat' split) <;> simp
  · rw [he]

/-- The same for a step of the machine. -/
theorem step_keeps {s t : State} (h : step s = .next t) :
    t.cfg = s.cfg ∧ (∀ x, x ∈ s.mfault → x ∈ t.mfault) ∧ ∃ new, t.trace = new ++ s.trace := by
  obtain ⟨-, ⟨-, rfl⟩ | ⟨m, rest, hm, hh, ha⟩⟩ := step_next_cases h
  · obtain ⟨h1, h2, h3⟩ := coreStep_keeps s
    exact ⟨h1, by rw [h2]; exact fun x hx => hx, h3⟩
  · cases m with
    | core =>
      simp only [applyMove] at ha
      injection ha with ha
      subst ha
      obtain ⟨h1, h2, h3⟩ := coreStep_keeps { s with env.moves := rest }
      exact ⟨h1, by rw [h2]; exact fun x hx => hx, h3⟩
    | emit =>
      simp only [applyMove] at ha
      injection ha with ha
      subst ha
      refine ⟨by simp, by simp, ?_⟩
      unfold State.emit
      split
      · simp only
        split
        · exact ⟨[_, _], rfl⟩
        · exact ⟨[_], rfl⟩
      · exact ⟨[], rfl⟩
    | fault x =>
      simp only [applyMove] at ha
      injection ha with ha
      subst ha
      exact ⟨rfl, fun _ h => h, [], rfl⟩
    | take v =>
      simp only [applyMove] at ha
      injection ha with ha
      subst ha
      unfold State.take
      split <;> exact ⟨rfl, fun _ h => h, [], rfl⟩
    | writeA x =>
      simp only [applyMove] at ha
      injection ha with ha
      subst ha
      exact ⟨rfl, fun _ h => h, [], rfl⟩
    | writeB x =>
      simp only [applyMove] at ha
      injection ha with ha
      subst ha
      exact ⟨rfl, fun _ h => h, [], rfl⟩
    | command w =>
      simp only [applyMove] at ha
      rcases issue_next ha with ⟨i, -, he⟩ | ⟨e, -, rfl⟩
      · obtain ⟨h1, -, -, -, h5, h6⟩ := exec_keeps he
        exact ⟨h1, h5, h6⟩
      · exact ⟨rfl, fun _ h => h, [], rfl⟩

end Sys2Proof.Machine
end

