-- ==== Sys2Proof/Laws/PerInstr.lean ====
section
/-! SUPPORT. Laws stated of every command, one lemma per constructor: a command's word holds zeros wherever
its format says so, and its opcode is the table's (30_encoding.md R57, R59). -/

namespace Sys2Proof.Laws

/-- The opcode of each command (30_encoding.md R59). -/
def opcode : Instr → Byte
  | .teStart => 0x01#8
  | .teWr _ => 0x02#8
  | .teRd _ => 0x03#8
  | .teEn _ => 0x04#8
  | .teDis _ => 0x05#8
  | .teSpeed _ _ => 0x06#8
  | .teOneshot _ _ => 0x07#8
  | .bdStart _ _ => 0x10#8
  | .bdFiltStd => 0x11#8
  | .bdFiltExt => 0x12#8
  | .bdFiltClr => 0x13#8
  | .bdPrep => 0x14#8
  | .bdFw _ _ => 0x15#8
  | .bdFr _ _ => 0x16#8
  | .bdCommit _ => 0x17#8
  | .bdAck => 0x18#8
  | .ieSet => 0x20#8
  | .ieClr => 0x21#8

/-- The encoding of `i` keeps its format. -/
def EncodeFormat.Statement (i : Instr) : Prop :=
  opField (encode i) = opcode i ∧ encode i &&& i.format.zeroMask = 0#32

theorem EncodeFormat.teStart : EncodeFormat.Statement .teStart := by
  simp [EncodeFormat.Statement, encode, opcode, Instr.format, Format.zeroMask,
    commandWord_and_eq_zero]

theorem EncodeFormat.teWr (k : Byte) : EncodeFormat.Statement (.teWr k) := by
  simp [EncodeFormat.Statement, encode, opcode, Instr.format, Format.zeroMask,
    commandWord_and_eq_zero]

theorem EncodeFormat.teRd (k : Byte) : EncodeFormat.Statement (.teRd k) := by
  simp [EncodeFormat.Statement, encode, opcode, Instr.format, Format.zeroMask,
    commandWord_and_eq_zero]

theorem EncodeFormat.teEn (k : Byte) : EncodeFormat.Statement (.teEn k) := by
  simp [EncodeFormat.Statement, encode, opcode, Instr.format, Format.zeroMask,
    commandWord_and_eq_zero]

theorem EncodeFormat.teDis (k : Byte) : EncodeFormat.Statement (.teDis k) := by
  simp [EncodeFormat.Statement, encode, opcode, Instr.format, Format.zeroMask,
    commandWord_and_eq_zero]

theorem EncodeFormat.teSpeed (k : Byte) (v : Bool) : EncodeFormat.Statement (.teSpeed k v) := by
  cases v <;> simp [EncodeFormat.Statement, encode, opcode, Instr.format, Format.zeroMask, immBits,
    commandWord_and_eq_zero]

theorem EncodeFormat.teOneshot (k : Byte) (v : Bool) : EncodeFormat.Statement (.teOneshot k v) := by
  cases v <;> simp [EncodeFormat.Statement, encode, opcode, Instr.format, Format.zeroMask, immBits,
    commandWord_and_eq_zero]

theorem EncodeFormat.bdStart (hm : Bool) (he : Bool) : EncodeFormat.Statement (.bdStart hm he) := by
  cases hm <;> cases he <;> simp [EncodeFormat.Statement, encode, opcode, Instr.format,
    Format.zeroMask, immBits, commandWord_and_eq_zero]

theorem EncodeFormat.bdFiltStd : EncodeFormat.Statement .bdFiltStd := by
  simp [EncodeFormat.Statement, encode, opcode, Instr.format, Format.zeroMask,
    commandWord_and_eq_zero]

theorem EncodeFormat.bdFiltExt : EncodeFormat.Statement .bdFiltExt := by
  simp [EncodeFormat.Statement, encode, opcode, Instr.format, Format.zeroMask,
    commandWord_and_eq_zero]

theorem EncodeFormat.bdFiltClr : EncodeFormat.Statement .bdFiltClr := by
  simp [EncodeFormat.Statement, encode, opcode, Instr.format, Format.zeroMask,
    commandWord_and_eq_zero]

theorem EncodeFormat.bdPrep : EncodeFormat.Statement .bdPrep := by
  simp [EncodeFormat.Statement, encode, opcode, Instr.format, Format.zeroMask,
    commandWord_and_eq_zero]

theorem EncodeFormat.bdFw (p : Byte) (f : Byte) : EncodeFormat.Statement (.bdFw p f) := by
  simp [EncodeFormat.Statement, encode, opcode, Instr.format, Format.zeroMask,
    commandWord_and_eq_zero]

theorem EncodeFormat.bdFr (p : Byte) (f : Byte) : EncodeFormat.Statement (.bdFr p f) := by
  simp [EncodeFormat.Statement, encode, opcode, Instr.format, Format.zeroMask,
    commandWord_and_eq_zero]

theorem EncodeFormat.bdCommit (p : Byte) : EncodeFormat.Statement (.bdCommit p) := by
  simp [EncodeFormat.Statement, encode, opcode, Instr.format, Format.zeroMask,
    commandWord_and_eq_zero]

theorem EncodeFormat.bdAck : EncodeFormat.Statement .bdAck := by
  simp [EncodeFormat.Statement, encode, opcode, Instr.format, Format.zeroMask,
    commandWord_and_eq_zero]

theorem EncodeFormat.ieSet : EncodeFormat.Statement .ieSet := by
  simp [EncodeFormat.Statement, encode, opcode, Instr.format, Format.zeroMask,
    commandWord_and_eq_zero]

theorem EncodeFormat.ieClr : EncodeFormat.Statement .ieClr := by
  simp [EncodeFormat.Statement, encode, opcode, Instr.format, Format.zeroMask,
    commandWord_and_eq_zero]

end Sys2Proof.Laws
end

