-- ==== Sys2Proof/Laws/Wire.lean ====
section
/-! SUPPORT. The SPI link bit by bit (20_memory.md R40). -/

namespace Sys2Proof.Machine

/-- A byte sent over the wire is the byte received. -/
theorem byteOfWire_byteWire : ∀ x : Byte, byteOfWire (byteWire x) = x := by decide

@[simp] theorem byteWire_length (x : Byte) : (byteWire x).length = 8 := rfl

theorem byteWire_getElem? (x : Byte) {k : Nat} (h : k < 8) :
    (byteWire x)[k]? = some (x.getLsbD (7 - k)) := by
  simp [byteWire, h]

theorem flatMap_byteWire_length (out : List Byte) :
    (out.flatMap byteWire).length = 8 * out.length := by
  induction out with
  | nil => rfl
  | cons x xs ih => simp [ih]; omega

/-- Bit `8j + k` of the bytes on the wire is bit `7 - k` of byte `j`. -/
theorem flatMap_byteWire_getElem? {out : List Byte} {j k : Nat} (hj : j < out.length) (hk : k < 8) :
    (out.flatMap byteWire)[8 * j + k]? = some ((out.getD j 0x00#8).getLsbD (7 - k)) := by
  induction out generalizing j with
  | nil => simp at hj
  | cons x xs ih =>
    rw [List.flatMap_cons]
    cases j with
    | zero =>
      rw [List.getElem?_append_left (by simpa using hk)]
      simpa using byteWire_getElem? x hk
    | succ j =>
      rw [List.getElem?_append_right (by simp; omega)]
      have := ih (j := j) (by simpa using hj)
      simpa [show 8 * (j + 1) + k - 8 = 8 * j + k by omega] using this

/-- A transaction on the link: chip select, the bytes each most significant bit first, chip select off. -/
theorem spiFrame_spec (out : List Byte) :
    (spiFrame out).length = 8 * out.length + 2 ∧ (spiFrame out)[0]? = some .select ∧
    (spiFrame out)[8 * out.length + 1]? = some .deselect ∧
    ∀ j k, j < out.length → k < 8 →
      (spiFrame out)[1 + 8 * j + k]? = some (.bit ((out.getD j 0x00#8).getLsbD (7 - k))) := by
  have hl := flatMap_byteWire_length out
  refine ⟨?_, rfl, ?_, ?_⟩
  · simp only [spiFrame, List.length_append, List.length_map, hl, List.length_singleton]; omega
  · simp [spiFrame, hl]
  · intro j k hj hk
    have hb := flatMap_byteWire_getElem? hj hk
    rw [show 1 + 8 * j + k = (8 * j + k) + 1 by omega]
    simp only [spiFrame, List.cons_append, List.getElem?_cons_succ, List.nil_append]
    rw [List.getElem?_append_left (by simp only [List.length_map, hl]; omega), List.getElem?_map, hb]
    rfl

/-- A transaction adds its frame to the link. -/
@[simp] theorem State.spi_spiEvents (s : State) (out : List Byte) :
    (s.spi out).spiEvents = s.spiEvents ++ spiFrame out := by
  simp [State.spiEvents, TraceEntry.spiEvents]

end Sys2Proof.Machine
end

