-- ==== Sys2Proof/Tests/Slice0.lean ====
section
/-! SUPPORT. Tests. Expected results are the vectors of 95_test_vectors.md (named by their numbers) or are
worked out by hand from the rule named; then one witness for the hypotheses of each statement. -/

namespace Sys2Proof.Tests

open Sys2Proof.Machine

/-! ## Helpers -/

/-- The next state passes a check. -/
def after (o : Outcome) (p : State → Bool) : Bool :=
  match o with
  | .next t => p t
  | _ => false

/-- The outcome is a next state. -/
def isNext (o : Outcome) : Bool := after o fun _ => true

theorem next_of_isNext {o : Outcome} (h : isNext o = true) : ∃ t, o = .next t := by
  unfold isNext after at h
  split at h
  · exact ⟨_, rfl⟩
  · simp at h

/-- The step that issues `w` with operand words `a` and `b`. -/
def issued (w a b : Word) (s : State) : Outcome :=
  step { s with a := a, b := b, env.moves := [.command w] }

/-- One agent's move. -/
def moved (m : Move) (s : State) : Outcome := step { s with env.moves := [m] }

/-- The machine with IE = 1, the driver started and both handlers installed, as after V-BS1 and `ie.set`. -/
def started : State :=
  { State.reset with ie := true, bd := BusDriver.start State.reset.bd true true }

/-- The engine running on slot 2 with the word of V-TC11. -/
def running : State :=
  { State.reset with
    ie := true
    te.msg := [0#32, 0#32, 0x0000CF03#32, 0#32, 0#32, 0#32, 0#32, 0#32]
    te.en := [false, false, true, false, false, false, false, false]
    te.curSlot := 2#8
    te.curMsg := 0x0000CF03#32
    te.wgPeriod := 8
    te.wgDuty := 7
    te.timerArmed := true
    te.running := true
    te.go := true }

/-- An interrupt context at a step position, IE = 0. -/
def inIsr (v : Irq) (pos : IsrPos) (s : State) : State :=
  { s with stack := [.isr v pos], ie := false }

/-- The records of V-BB11 and V-BB12. -/
def frame : MessageEvent where
  ts := 0#32
  id := 0x123#29
  ext := false
  rtr := false
  len := 2#4
  data := ⟨0xAA#8, 0xBB#8, 0#8, 0#8, 0#8, 0#8, 0#8, 0#8⟩
def remoteFrame : MessageEvent :=
  { MessageEvent.zero with id := 0x12345678#29, ext := true, rtr := true }

/-- A handler context of the inbound drain. -/
def inHandler : State :=
  { started with
    stack := [.handler (.message frame) [], .isr .can (.advance .message)]
    bd.rqDraining := true
    bd.evtValid := true
    bd.evtRec := .message frame }

/-! ## Decoding: each command's word written out from 30_encoding.md R56 to R59 -/

theorem test_decode_te :
    decode 0x01000000#32 = .ok .teStart ∧ decode 0x02020000#32 = .ok (.teWr 2#8) ∧
    decode 0x03020000#32 = .ok (.teRd 2#8) ∧ decode 0x04C80000#32 = .ok (.teEn 200#8) ∧
    decode 0x05020000#32 = .ok (.teDis 2#8) ∧ decode 0x06020001#32 = .ok (.teSpeed 2#8 true) ∧
    decode 0x07000000#32 = .ok (.teOneshot 0#8 false) := by decide

theorem test_decode_bd :
    decode 0x10000001#32 = .ok (.bdStart true false) ∧
    decode 0x10000002#32 = .ok (.bdStart false true) ∧ decode 0x11000000#32 = .ok .bdFiltStd ∧
    decode 0x12000000#32 = .ok .bdFiltExt ∧ decode 0x13000000#32 = .ok .bdFiltClr ∧
    decode 0x14000000#32 = .ok .bdPrep ∧ decode 0x15030C00#32 = .ok (.bdFw 3#8 0x0C#8) ∧
    decode 0x16FF0500#32 = .ok (.bdFr 0xFF#8 0x05#8) ∧
    decode 0x17050000#32 = .ok (.bdCommit 5#8) ∧ decode 0x18000000#32 = .ok .bdAck := by decide

theorem test_decode_core :
    decode 0x20000000#32 = .ok .ieSet ∧ decode 0x21000000#32 = .ok .ieClr := by decide

/-- V-D1 to V-D4. -/
theorem test_decode_reserved :
    decode 0x00000000#32 = .error (.reservedOpcode 0x00#8) ∧
    decode 0x08000000#32 = .error (.reservedOpcode 0x08#8) ∧
    decode 0x19000000#32 = .error (.reservedOpcode 0x19#8) ∧
    decode 0x22000000#32 = .error (.reservedOpcode 0x22#8) ∧
    decode 0xFF000000#32 = .error (.reservedOpcode 0xFF#8) := by decide

/-- V-D5, V-D6, V-D8, V-D9, V-D11 to V-D14. -/
theorem test_decode_nonzero_field :
    decode 0x01000001#32 = .error (.nonzeroField .n) ∧
    decode 0x01010000#32 = .error (.nonzeroField .n) ∧
    decode 0x06020002#32 = .error (.nonzeroField .kv) ∧
    decode 0x04020100#32 = .error (.nonzeroField .k) ∧
    decode 0x10000004#32 = .error (.nonzeroField .h) ∧
    decode 0x15000101#32 = .error (.nonzeroField .kf) ∧
    decode 0x11010000#32 = .error (.nonzeroField .ab) ∧
    decode 0x17000100#32 = .error (.nonzeroField .k) := by decide

theorem test_encode :
    encode (.teSpeed 2#8 true) = 0x06020001#32 ∧ encode (.bdStart false true) = 0x10000002#32 ∧
    encode (.bdFw 3#8 0x0C#8) = 0x15030C00#32 ∧ encode (.bdCommit 5#8) = 0x17050000#32 := by decide

theorem test_decodeTableWord :
    decodeTableWord 32 0x06020001 = some (.teSpeed 2#8 true) ∧ decodeTableWord 32 0 = none := by
  decide

/-! ## Well-formedness: each check refuses a configuration that violates it (00_scope.md R7, R8) -/

theorem test_wf_vectors : Config.vectors.wf = true := by decide

theorem test_wf_marks :
    ({ Config.vectors with shortMarkTicks := 8 } : Config).wf = false ∧
    ({ Config.vectors with longMarkTicks := 9 } : Config).wf = false := by decide

theorem test_wf_generator :
    ({ Config.vectors with unitTicks := 0, longMarkTicks := 0, shortMarkTicks := 0 } : Config).wf
      = false ∧
    ({ Config.vectors with wgWidth := 7 } : Config).wf = false ∧
    ({ Config.vectors with wgWidth := 33 } : Config).wf = false ∧
    ({ Config.vectors with wgWidth := 8, unitTicks := 128 } : Config).wf = false ∧
    ({ Config.vectors with wgWidth := 8, unitTicks := 127 } : Config).wf = true := by decide

theorem test_wf_pauses :
    ({ Config.vectors with gapUnits := 256 } : Config).wf = false ∧
    ({ Config.vectors with waitUnits := 256 } : Config).wf = false := by decide

theorem test_wf_slots :
    ({ Config.vectors with nSlots := 0 } : Config).wf = false ∧
    ({ Config.vectors with nSlots := 256 } : Config).wf = false := by decide

theorem test_wf_queues :
    ({ Config.vectors with mQueue := 1 } : Config).wf = false ∧
    ({ Config.vectors with mQueue := 256 } : Config).wf = false ∧
    ({ Config.vectors with eQueue := 1 } : Config).wf = false ∧
    ({ Config.vectors with eQueue := 257 } : Config).wf = false := by decide

/-- The source's parameters (00_scope.md R6) have its values and stay within the layouts of the rules. -/
theorem test_wf_layout :
    Config.vectors.signalBits = 18 ∧ Config.vectors.maxPayload = 8 ∧
    Config.vectors.stdIdBits = 11 ∧ Config.vectors.extIdBits = 29 ∧
    ({ Config.vectors with signalBits := 0 } : Config).wf = false ∧
    ({ Config.vectors with signalBits := 33 } : Config).wf = false ∧
    ({ Config.vectors with maxPayload := 9 } : Config).wf = false ∧
    ({ Config.vectors with stdIdBits := 12 } : Config).wf = false ∧
    ({ Config.vectors with extIdBits := 30 } : Config).wf = false ∧
    ({ Config.vectors with extIdBits := 10 } : Config).wf = false := by decide

theorem test_wf_addrInvalidCode :
    ({ Config.vectors with addrInvalidCode := 0x80#8 } : Config).wf = false ∧
    ({ Config.vectors with addrInvalidCode := 0x02#8 } : Config).wf = false := by decide

theorem test_wf_controller :
    ({ Config.vectors with modePollCap := some 0 } : Config).wf = false ∧
    ({ Config.vectors with modePollCap := none } : Config).wf = true ∧
    ({ Config.vectors with canctrlAux := 0x20#8 } : Config).wf = false := by decide

/-- An ill-formed configuration is refused by name before anything happens. -/
theorem test_step_refuses_illFormedConfig :
    step (State.resetWith { Config.vectors with nSlots := 0 }) = .refused .illFormedConfig := rfl

/-! ## The message word (V-F1 to V-F24) -/

theorem test_address_field :
    ([0, 1, 2, 3, 5, 8, 24, 40, 80, 79, 81, -1] : List Int).map (addressField Config.vectors) =
      [0x00#8, 0x03#8, 0x01#8, 0x0C#8, 0x0D#8, 0x05#8, 0x14#8, 0xFF#8, 0x00#8, 0x57#8, 0x55#8,
        0x55#8] := by decide

theorem test_message_words :
    trainWord Config.vectors 1 5 true = 0x0000CF03#32 ∧
    trainWord Config.vectors 79 20 false = 0x0003FC57#32 ∧
    switchWord Config.vectors 1 5#3 true = 0x0003CC03#32 ∧
    switchWord Config.vectors 3 7#3 false = 0x0000FC0C#32 := by decide

theorem test_assembly_text :
    (lineA (.bdFw 0#8 0x08#8) 0xAA#32).text = "bd.fw 0, d0, 170" ∧
    (line (.bdStart true false)).text = "bd.start 1, 0" ∧ (line .teStart).text = "te.start" := by
  decide

/-! ## Timing Engine commands -/

/-- V-TC11, step 1. -/
theorem test_teStart_first :
    after (issued 0x01000000#32 0#32 0#32
      { running with te := { running.te with running := false, go := false, curSlot := 7#8 } })
      (fun t => t.te.running && t.ie && !t.te.go && t.te.curSlot == 2#8
        && t.te.curMsg == 0x0000CF03#32 && t.te.wgPeriod == 8 && t.te.wgDuty == 7
        && t.fg == [.releaseGo]) = true := by decide

/-- V-TC15. -/
theorem test_teStart_running :
    after (issued 0x01000000#32 0#32 0#32 running) (fun t =>
      t.mfault == [.teRestartRunning] && t.te == running.te && t.status == 0x00#8) = true := by
  decide

/-- V-TC1. -/
theorem test_teWr :
    after (issued 0x02020000#32 0x0000CF03#32 0#32 State.reset) (fun t =>
      t.te.msg == [0#32, 0#32, 0x0000CF03#32, 0#32, 0#32, 0#32, 0#32, 0#32]) = true := by decide

/-- V-TC3, CLAMP. -/
theorem test_teWr_clamp :
    after (issued 0x02090000#32 0x57#32 0#32
      (State.resetWith { Config.vectors with slotOorPolicy := .clamp })) (fun t =>
      t.te.msg.getD 7 0#32 == 0x57#32 && t.status == 0x00#8) = true := by decide

/-- V-TC1 and V-TC4, IGNORE. -/
theorem test_teRd :
    after (issued 0x03020000#32 0#32 0#32 running) (fun t => t.r == 0x0000CF03#32) = true ∧
    after (issued 0x03090000#32 0#32 0#32 running) (fun t => t.r == 0#32) = true := by decide

/-- V-TC6. -/
theorem test_teEn :
    after (issued 0x04020000#32 0#32 0#32 State.reset) (fun t =>
      t.te.en == [false, false, true, false, false, false, false, false]) = true ∧
    after (issued 0x04C80000#32 0#32 0#32 State.reset) (fun t =>
      t.te.en == State.reset.te.en && t.status == 0x00#8) = true := by decide

/-- V-TC7. -/
theorem test_teDis :
    after (issued 0x05020000#32 0#32 0#32 running) (fun t =>
      t.te.en == State.reset.te.en) = true := by decide

/-- V-D7. -/
theorem test_teSpeed :
    after (issued 0x06020001#32 0#32 0#32 State.reset) (fun t =>
      t.te.spd == [false, false, true, false, false, false, false, false]) = true := by decide

/-- V-TC8 and V-TC9. -/
theorem test_teOneshot :
    after (issued 0x07000001#32 0#32 0#32 started) (fun t =>
      t.te.os.getD 0 false && t.ie) = true := by decide

/-! ## Load, tick, generator and fault path -/

/-- V-TS1. -/
theorem test_load_order :
    (let e : TimingEngine := { running.te with
        en := [true, false, true, false, false, true, false, false] }
    (loads Config.vectors 1 e).curSlot == 5#8 && (loads Config.vectors 2 e).curSlot == 0#8
      && (loads Config.vectors 3 e).curSlot == 2#8) = true := by decide

/-- V-TS3. -/
theorem test_load_oneshot_then_idle :
    (let e : TimingEngine := { running.te with
        curSlot := 3#8
        en := [false, false, false, true, false, false, false, false]
        os := [false, false, false, true, false, false, false, false] }
    !(loads Config.vectors 1 e).en.getD 3 true && (loads Config.vectors 2 e).curMsg == 0x55#32
      && (loads Config.vectors 2 e).curSlot == 3#8) = true := by decide

/-- V-TS6, V-TS7, V-TS8 and V-TS10. -/
theorem test_tick_symbols :
    (let t1 := { running.te with curBit := 1#9 }.tick Config.vectors
    let t2 := { running.te with curBit := 19#9 }.tick Config.vectors
    let t3 := { running.te with curBit := 19#9, curHalf := true }.tick Config.vectors
    let t4 := { running.te with curBit := 17#9 }.tick Config.vectors
    t1.curBit == 2#9 && t1.wgDuty == 1 && t2.curBit == 0#9 && t2.curHalf && t2.wgDuty == 7
      && t3.curBit == 20#9 && t3.wgDuty == 0 && t4.curBit == 18#9 && t4.wgDuty == 0) = true := by
  decide

/-- V-TS12: at the loading tick the period may be of the message before. -/
theorem test_tick_speed_change :
    (let e : TimingEngine := { running.te with
        spd := [true, false, false, false, false, false, false, false]
        en := [true, true, false, false, false, false, false, false]
        curSlot := 1#8
        curSpd := false
        curHalf := true
        curBit := 21#9
        msg := [0x0000CF03#32, 0#32, 0#32, 0#32, 0#32, 0#32, 0#32, 0#32] }
    let b := e.tick Config.vectors
    let a := e.tick { Config.vectors with periodSpeedSource := .afterLoad }
    b.wgPeriod == 8 && b.wgDuty == 14 && a.wgPeriod == 16 && a.wgDuty == 14) = true := by decide

/-- V-TS13 and V-TS14. -/
theorem test_emit :
    after (moved .emit running) (fun t =>
      t.te.tickPend && t.te.wgLDuty == 7 && t.trace == [.period 8 7]) = true ∧
    after (moved .emit { running with te := { running.te with tickPend := true } }) (fun t =>
      t.trace == [.overrun, .period 8 7]) = true := by decide

/-- V-TS15. -/
theorem test_data_output :
    ((List.range 8).map { running with te := { running.te with
        wgLPeriod := 8, wgLDuty := 7 } }.dataMark ==
      [true, true, true, true, true, true, true, false]) = true := by decide

/-- V-TF1, the handler's step, and V-TF2. -/
theorem test_fault_handler :
    after (moved .core (inIsr .fault .start running)) (fun t =>
      !t.te.running && !t.te.go && t.ie && t.stack == [] && t.trace == [.go false]) = true := by
  decide

/-- V-TF3 and V-TF4. -/
theorem test_fault_edge :
    after (moved (.fault true) running) (fun t => t.te.faultPend && t.te.faultPrev) = true ∧
    after (moved (.fault true) { running with te := { running.te with faultPrev := true } })
      (fun t => !t.te.faultPend) = true ∧
    after (moved (.fault true) State.reset) (fun t => !t.te.faultPend && t.te.faultPrev)
      = true := by decide

/-- V-C2 and V-C4. -/
theorem test_take :
    after (moved (.take .tick) { running with te := { running.te with tickPend := true } })
      (fun t => t.stack == [.isr .tick .start] && !t.ie && !t.te.tickPend) = true ∧
    after (moved (.take .can) running) (fun t => t.stack == [] && t.ie) = true := by decide

/-! ## Bus Driver commands -/

/-- V-BS2: STEP 1. -/
theorem test_bdStart :
    after (issued 0x10000002#32 0#32 0#32 State.reset) (fun t =>
      !t.bd.mhPresent && t.bd.ehPresent && t.bd.intAttached && !t.ie && t.trace == []
        && t.fg.length == 7) = true := by decide

/-- V-BB1 to V-BB10. -/
theorem test_layout :
    stdBytes 0xFFFFF923#32 = [0x24#8, 0x60#8, 0x00#8, 0x00#8] ∧
    stdMask 0x7FF#32 = [0xFF#8, 0xE0#8, 0x00#8, 0x00#8] ∧
    extBytes 0x12345678#32 = [0x91#8, 0xA8#8, 0x56#8, 0x78#8] ∧
    extBytes 0x1FFFFFFF#32 = [0xFF#8, 0xEB#8, 0xFF#8, 0xFF#8] ∧
    extMask 0x1FFFFFFF#32 = [0xFF#8, 0xE3#8, 0xFF#8, 0xFF#8] ∧
    dlcByte false 2#4 = 0x02#8 ∧ dlcByte true 0#4 = 0x40#8 := by decide

/-- V-BS7 and V-BS8: the mode request opens each filter command. -/
theorem test_bdFilt :
    after (issued 0x11000000#32 0x123#32 0x7FF#32 State.reset) (fun t =>
      t.trace == [.spi [0x02#8, 0x0F#8, 0x80#8]] && t.fg == [.pollMode 4#3 0,
        .transact [0x02#8, 0x00#8, 0x24#8, 0x60#8, 0x00#8, 0x00#8, 0x24#8, 0x60#8, 0x00#8, 0x00#8],
        .transact [0x02#8, 0x20#8, 0xFF#8, 0xE0#8, 0x00#8, 0x00#8], .requestMode 0#3]) = true ∧
    after (issued 0x12000000#32 0x12345678#32 0x1FFFFFFF#32 State.reset) (fun t =>
      t.fg == [.pollMode 4#3 0,
        .transact [0x02#8, 0x00#8, 0x91#8, 0xA8#8, 0x56#8, 0x78#8, 0x91#8, 0xA8#8, 0x56#8, 0x78#8],
        .transact [0x02#8, 0x20#8, 0xFF#8, 0xE3#8, 0xFF#8, 0xFF#8], .requestMode 0#3]) = true := by
  decide

/-- V-BS9. -/
theorem test_bdFiltClr :
    after (issued 0x13000000#32 0x123#32 0x7FF#32 State.reset) (fun t =>
      t.fg.getD 1 .releaseGo == .transact [0x02#8, 0x00#8, 0#8, 0#8, 0#8, 0#8, 0#8, 0#8, 0#8, 0#8])
      = true := by decide

/-- V-BS3 (87 confirms configuration mode) and V-BS4 (the third failed poll times out). -/
theorem test_modePoll :
    after (moved .core { State.reset with
      fg := [.pollMode 4#3 2, .requestMode 0#3], env.spiAnswers := [0#8, 0#8, 0x87#8] })
      (fun t => t.fg == [.requestMode 0#3] && t.trace == [.spi [0x03#8, 0x0E#8, 0x00#8]]) = true ∧
    after (moved .core { State.reset with
      fg := [.pollMode 4#3 2, .requestMode 0#3], env.spiAnswers := [0#8, 0#8, 0x00#8] })
      (fun t => t.fg == [] && t.status == 0x06#8) = true := by decide

/-- V-BR1 and V-BR6: the queue holds M_QUEUE − 1 frames. -/
theorem test_bdPrep :
    after (issued 0x14000000#32 0#32 0#32 started) (fun t =>
      t.r == 0#32 && !t.ie && t.bd.savedIe && t.bd.resvValid) = true ∧
    after (issued 0x14000000#32 0#32 0#32 { started with bd := { started.bd with sqFree := 15#8 } })
      (fun t => t.r == 0xFF#32 && t.status == 0x05#8 && t.ie && !t.bd.resvValid) = true := by decide

/-- V-BR8 and V-D15: the pointer is checked before the field. -/
theorem test_bdFw :
    after (issued 0x15000200#32 0xFFFFFFFE#32 0#32 started) (fun t =>
      t.bd == started.bd && t.status == 0x00#8) = true ∧
    after (issued 0x15FF0500#32 0#32 0#32 started) (fun t => t.status == 0x02#8) = true := by decide

/-- V-BR9's read and V-D17. -/
theorem test_bdFr :
    after (issued 0x16000100#32 0#32 0#32 { started with bd := { started.bd with
      sq := [{ frame with id := 0x1FFFFFFF#29 }] } }) (fun t => t.r == 0x1FFFFFFF#32) = true ∧
    after (issued 0x16001000#32 0#32 0#32 started) (fun t => t.status == 0x03#8) = true := by decide

/-- V-BR5's commit with V-BB11's transactions. -/
theorem test_bdCommit :
    after (issued 0x17000000#32 0#32 0#32 { started with
      ie := false
      bd := { started.bd with sq := [frame], resvValid := true, savedIe := true } })
      (fun t => t.bd.sqFree == 1#8 && t.bd.inFlight && !t.bd.resvValid && t.ie && t.r == 0#32
        && t.trace == [.spi [0x81#8], .spi [0x02#8, 0x31#8, 0x24#8, 0x60#8, 0x00#8, 0x00#8, 0x02#8,
          0xAA#8, 0xBB#8, 0#8, 0#8, 0#8, 0#8, 0#8, 0#8]]) = true := by decide

/-- V-BR3. -/
theorem test_bdCommit_fail :
    after (issued 0x17050000#32 0#32 0#32 { started with
      ie := false, bd := { started.bd with resvValid := true } }) (fun t =>
      t.r == 0xFFFFFFFF#32 && t.status == 0x04#8 && t.bd.resvValid && !t.ie) = true := by decide

/-- V-D19 and `bd.ack` in a handler context. -/
theorem test_bdAck :
    after (issued 0x18000000#32 0#32 0#32 started) (fun t => t.status == 0x01#8) = true ∧
    after (issued 0x18000000#32 0#32 0#32 inHandler) (fun t =>
      t.stack == [.isr .can (.advance .message)] && !t.bd.evtValid && t.status == 0x00#8) = true := by
  decide

/-- V-C1. -/
theorem test_ie :
    after (issued 0x20000000#32 0#32 0#32 State.reset) (fun t => t.ie) = true ∧
    after (issued 0x21000000#32 0#32 0#32 started) (fun t => !t.ie) = true := by decide

/-! ## The SPI wire (20_memory.md R40) -/

/-- RTS0 is the byte 81, on the wire 1000 0001. -/
theorem test_spi_wire :
    spiFrame [0x81#8] = [.select, .bit true, .bit false, .bit false, .bit false, .bit false,
      .bit false, .bit false, .bit true, .deselect] ∧
    ([0x00#8, 0x81#8, 0x02#8, 0xC0#8, 0xFF#8].all fun x => byteOfWire (byteWire x) == x) = true := by
  decide

/-! ## A smaller MAX_PAYLOAD and a narrower identifier (00_scope.md R6) -/

/-- DATA[2] does not exist in a record of two payload bytes; a frame then has seven bytes. -/
theorem test_small_record :
    (let s : State := { started with cfg := { started.cfg with maxPayload := 2, extIdBits := 16 } }
    after (issued 0x15000A00#32 0#32 0#32 s) (fun t => t.status == 0x03#8)
      && after (issued 0x15000900#32 0#32 0#32 s) (fun t => t.status == 0x00#8)
      && remoteFrame.txBytes s.cfg == [0x00#8, 0x08#8, 0x56#8, 0x78#8, 0x40#8, 0#8, 0#8]) = true := by
  decide

/-! ## The CAN handler -/

/-- V-BB12: a transmitted extended remote frame. -/
theorem test_txBytes :
    remoteFrame.txBytes Config.vectors = [0x91#8, 0xA8#8, 0x56#8, 0x78#8, 0x40#8, 0#8, 0#8, 0#8, 0#8, 0#8, 0#8, 0#8,
      0#8] := by decide

/-- V-BB14 and V-BB15. -/
theorem test_receivedEvent :
    receivedEvent Config.vectors (fun j => [0x24#8, 0x70#8].getD j 0#8) 0#32 =
      { MessageEvent.zero with id := 0x123#29, rtr := true } ∧
    receivedEvent Config.vectors (fun j => [0x91#8, 0xA8#8, 0x56#8, 0x78#8, 0x48#8, 1#8, 2#8, 3#8, 4#8, 5#8, 6#8, 7#8,
      8#8].getD j 0#8) 5#32 =
      { ts := 5#32, id := 0x12345678#29, ext := true, rtr := true, len := 8#4,
        data := ⟨1#8, 2#8, 3#8, 4#8, 5#8, 6#8, 7#8, 8#8⟩ } := by decide

/-- V-BI1 and V-BI2: the error branch alone, the completion lost. -/
theorem test_can_error :
    after (moved .core (inIsr .can .start { started with
      bd := { started.bd with inFlight := true, sqFree := 1#8 }
      env.spiAnswers := [0#8, 0#8, 0x24#8, 0x15#8], env.times := [1000#32] })) (fun t =>
      t.bd.eq.getD 0 ErrorEvent.zero == ⟨1000#32, 0x15#8⟩ && t.bd.eqFree == 1#8 && t.bd.inFlight
        && t.bd.sqNext == 0#8 && t.stack == [.isr .can (.guard .error)]) = true := by decide

/-- V-BI5: the next frame is sent and the cursor wraps. -/
theorem test_can_transmit :
    after (moved .core (inIsr .can .start { started with
      bd := { started.bd with inFlight := true, sqNext := 15#8, sqFree := 1#8 }
      env.spiAnswers := [0#8, 0#8, 0x04#8, 0x00#8] })) (fun t =>
      t.bd.sqNext == 0#8 && t.bd.inFlight && t.trace.length == 4) = true := by decide

/-- V-BI6. -/
theorem test_can_receive :
    after (moved .core (inIsr .can .start { started with
      env.spiAnswers := [0#8, 0#8, 0x01#8, 0#8, 0#8, 0#8, 0#8, 0#8, 0#8, 0#8, 0x24#8, 0x60#8, 0#8, 0#8,
        0x02#8, 0x11#8, 0x22#8]
      env.times := [0x1000#32] })) (fun t =>
      (t.bd.rq.getD 0 MessageEvent.zero).id == 0x123#29 && t.bd.rqFree == 1#8
        && (t.bd.rq.getD 0 MessageEvent.zero).ts == 0x1000#32 && t.trace.length == 3) = true := by
  decide

/-- V-BI12: the head of the error drain delivers the event. -/
theorem test_drain_delivers :
    after (moved .core (inIsr .can (.check .error) { started with
      bd := { started.bd with eq := [⟨7#32, 0x15#8⟩], eqFree := 1#8 } })) (fun t =>
      t.stack == [.handler (.error ⟨7#32, 0x15#8⟩) [], .isr .can (.advance .error)] && t.ie
        && t.bd.evtValid && t.bd.evtKind == .error) = true := by decide

/-- A run's end: the inbound drain of an empty queue returns from interrupt. -/
theorem test_drain_returns :
    after (moved .core (inIsr .can (.check .message) started)) (fun t =>
      t.stack == [] && t.ie && !t.bd.rqDraining) = true := by decide

/-! ## The host's placement of a command -/

theorem test_withFetchWord :
    after (step (State.reset.withFetchWord 32 0x20000000)) (fun t => t.ie) = true ∧
    after (step ((inIsr .tick .start State.reset).withFetchWord 32 0x14000000)) (fun t =>
      t.status == 0x00#8 && t.bd.resvValid) = true := by decide

/-! ## Witnesses: states and operands that meet the hypotheses of each statement -/

/-- A host move at the head of the list. -/
def due (m : Move) (s : State) : State := { s with env.moves := [m, .core] }

/-- The handler context waits, the busy foreground does not. -/
def busy : State := { State.reset with fg := [.releaseGo] }

theorem witness_EncodeInvertsDecode : decode 0x15030C00#32 = .ok (.bdFw 3#8 0x0C#8) := by decide

theorem witness_IllegalWordChangesOnlyStatus :
    (due (.command 0x22000000#32) State.reset).cfg.wf = true ∧
    (due (.command 0x22000000#32) State.reset).awaiting = true ∧
    (due (.command 0x22000000#32) State.reset).env.moves = .command 0x22000000#32 :: [.core] ∧
    ([0x22000000#32, 0x00FFFFFF#32, 0x08000000#32, 0x0F000000#32, 0x19000000#32, 0x1F000000#32,
      0xFF000000#32, 0x01000001#32, 0x21800000#32, 0x02000001#32, 0x17008000#32, 0x06000002#32,
      0x07008000#32, 0x10000004#32, 0x10800000#32, 0x15000001#32, 0x16000080#32].all
      fun w => decide (IllegalWord w)) = true ∧
    ([0x16FFFF00#32, 0x10000003#32, 0x07FF0001#32].any fun w => decide (IllegalWord w)) = false := by
  decide

theorem witness_StepRunsDecodedCommand :
    (due (.command 0x18000000#32) inHandler).cfg.wf = true ∧
    (due (.command 0x18000000#32) inHandler).awaiting = true ∧
    (due (.command 0x18000000#32) inHandler).env.moves = .command 0x18000000#32 :: [.core] ∧
    decode 0x18000000#32 = .ok .bdAck := by decide

theorem witness_BusyPortHoldsHostMove :
    (∀ m ∈ [Move.writeA 1#32, .writeB 2#32, .command 0x20000000#32],
      (due m busy).cfg.wf = true ∧ (due m busy).awaiting = false ∧
      (due m busy).env.moves = m :: [.core]) ∧
    (due (.writeA 1#32) (inIsr .can .start State.reset)).awaiting = false := by decide

theorem witness_StepRefusesOnlyIllFormedConfig :
    State.reset.cfg.wf = true ∧
    (State.resetWith { Config.vectors with nSlots := 256 }).cfg.wf = false := by decide

/-- A waiting context with each write due, and steps that change A, B and W. -/
theorem witness_HostAloneWritesOperandWords :
    (∃ t, exec (.bdFw 0#8 0#8) State.reset = .next t) ∧
    (∀ m ∈ [Move.writeA 1#32, .writeB 2#32], (due m inHandler).cfg.wf = true ∧
      (due m inHandler).awaiting = true ∧ (due m inHandler).env.moves = m :: [.core]) ∧
    after (step (due (.writeA 1#32) inHandler)) (fun t => t.a != inHandler.a) = true ∧
    after (step (due (.writeB 2#32) inHandler)) (fun t => t.b != inHandler.b) = true ∧
    after (step (due (.command 0x18000000#32) inHandler)) (fun t => t.w != inHandler.w) = true :=
  ⟨next_of_isNext (by decide), by decide, by decide, by decide, by decide⟩

theorem witness_EnginesAreIndependent :
    (∃ t, exec .teStart State.reset = .next t) ∧ isTimingEngine .teStart = true ∧
    (∃ t, exec .bdPrep State.reset = .next t) ∧ isTimingEngine .bdPrep = false :=
  ⟨next_of_isNext (by decide), rfl, next_of_isNext (by decide), rfl⟩

theorem witness_TeStartTwoSteps :
    State.reset.cfg.wf = true ∧ State.reset.awaiting = true ∧ State.reset.te.running = false ∧
    inHandler.cfg.wf = true ∧ inHandler.awaiting = true ∧ inHandler.te.running = false ∧
    running.cfg.wf = true ∧ running.awaiting = true ∧ running.te.running = true := by decide

theorem witness_TeWrStoresWord :
    running.cfg.wf = true ∧ running.Sized ∧ resolve running.cfg 7#8 = some 7 ∧
    resolve running.cfg 8#8 = none := by decide

theorem witness_TeRdReturnsWord :
    resolve State.reset.cfg 0#8 = some 0 ∧ resolve State.reset.cfg 7#8 = some 7 ∧
    resolve State.reset.cfg 8#8 = none ∧ resolve State.reset.cfg 255#8 = none := by decide

theorem witness_TeEnTeDisWriteEnableBit :
    running.cfg.wf = true ∧ running.Sized ∧ 7 < running.cfg.nSlots := by decide

theorem witness_TeSpeedTeOneshotWriteModeBit :
    running.cfg.wf = true ∧ running.Sized ∧ 7 < running.cfg.nSlots := by decide

theorem witness_OutOfRangeSlotPolicy :
    Config.vectors.wf = true ∧ (7#8).toNat < Config.vectors.nSlots ∧
    Config.vectors.nSlots ≤ (8#8).toNat ∧ Config.vectors.slotOorPolicy = .ignore ∧
    ({ Config.vectors with slotOorPolicy := .clamp } : Config).wf = true := by decide

theorem witness_SlotCommandsKeepSnapshot :
    isSlotCommand (.teEn 2#8) = true ∧ ∃ t, exec (.teEn 2#8) running = .next t :=
  ⟨rfl, next_of_isNext (by decide)⟩

/-- The nearest enabled slot at distance 1 and at distance N_SLOTS, and no slot enabled. -/
theorem witness_LoadTakesNextEnabledSlot :
    Config.vectors.wf = true ∧
    ({ running.te with curSlot := 1#8 } : TimingEngine).en.getD ((1 + 1) % 8) false = true ∧
    (∀ i, 1 ≤ i → i < 8 → running.te.en.getD ((2 + i) % 8) false = false) ∧
    running.te.en.getD ((2 + 8) % 8) false = true ∧
    (∀ k, k < 8 → State.reset.te.en.getD k false = false) := by
  refine ⟨by decide, by decide, ?_, by decide, by decide⟩
  intro i h1 h2
  interval_cases i <;> rfl

theorem witness_TickAdvancesAndPrograms :
    Config.vectors.wf = true ∧ State.reset.te.Sized Config.vectors ∧
    State.reset.te.running = false ∧ running.te.Sized Config.vectors ∧ running.te.running = true ∧
    ({ running.te with curBit := 19#9 } : TimingEngine).Sized Config.vectors ∧
    ({ running.te with curBit := 21#9, curHalf := true } : TimingEngine).Sized Config.vectors := by
  decide

theorem witness_CycleOfOneMessage :
    Config.vectors.wf = true ∧ running.te.Sized Config.vectors ∧ running.te.running = true ∧
    running.te.curBit = 0#9 ∧ running.te.curHalf = false ∧ 41 < cycleLength Config.vectors := by
  decide

theorem witness_SlotPlaybackProperties :
    Config.vectors.wf = true ∧ running.te.Sized Config.vectors ∧ 2 < Config.vectors.nSlots ∧
    (∀ j, j < 8 → running.te.en.getD j false = decide (j = 2)) ∧
    running.te.os.getD 2 false = false ∧
    ({ running.te with os := running.te.en } : TimingEngine).os.getD 2 false = true ∧
    (∀ j, j < 8 → State.reset.te.en.getD j false = false) ∧
    ({ State.reset.te with curMsg := 0x55#32 } : TimingEngine).curMsg = Config.vectors.idleMsg ∧
    State.reset.te.curSpd = Config.vectors.idleSpeed := by decide

theorem witness_EmitLatchesAndRaisesTick :
    (due .emit running).cfg.wf = true ∧ (due .emit running).env.moves = .emit :: [.core] ∧
    (due .emit running).te.timerArmed = true ∧ (due .emit State.reset).te.timerArmed = false ∧
    (due .emit State.reset).env.moves = .emit :: [.core] := by decide

theorem witness_DataOutputMarksPeriod :
    running.te.timerArmed = true ∧
    ({ running with te := { running.te with wgLPeriod := 8, wgLDuty := 14 } } : State).te.wgLPeriod
      ≤ 14 ∧ running.te.wgLDuty = 0 := by decide

theorem witness_FaultEdgeRequestsOnlyWhileRunning :
    (due (.fault true) running).cfg.wf = true ∧
    (due (.fault true) running).env.moves = .fault true :: [.core] ∧
    (due (.fault true) running).te.faultPrev = false ∧
    (due (.fault true) running).te.running = true ∧
    (due (.fault true) State.reset).te.running = false := by decide

/-- Each vector available with IE = 1, and one held. -/
def allPending : State :=
  { running with
    te := { running.te with tickPend := true, faultPend := true }
    bd := { running.bd with intAttached := true } }

theorem witness_InterruptEntry :
    (∀ v ∈ [Irq.fault, .tick, .can], (due (.take v) allPending).cfg.wf = true ∧
      (due (.take v) allPending).env.moves = .take v :: [.core] ∧
      (due (.take v) allPending).ie = true) ∧
    allPending.te.faultPend = true ∧ allPending.te.tickPend = true ∧
    allPending.bd.intAttached = true ∧ (due (.take .tick) State.reset).ie = false ∧
    (due (.take .can) running).bd.intAttached = false := by decide

theorem witness_TickAndFaultHandlersReturn :
    (inIsr .tick .start running).stack = .isr .tick .start :: [] ∧
    (inIsr .fault .start running).stack = .isr .fault .start :: [] ∧
    (inIsr .fault .start running).te.running = true ∧
    (inIsr .fault .start State.reset).te.running = false := by decide

/-- Answers that confirm both mode changes of `bd.start` and of a filter command. -/
def confirming (n m : Nat) : State :=
  { State.reset with
    env.spiAnswers := (List.replicate n 0#8 ++ [0x80#8]) ++ List.replicate m 0#8 }

theorem witness_BdStartResetsAndSendsSequence :
    (confirming 22 14).cfg.wf = true ∧ (confirming 22 14).awaiting = true ∧
    ((confirming 22 14).answer 22).extractLsb' 5 3 = (confirming 22 14).cfg.regmap.modeConfig ∧
    ((confirming 22 14).answer 36).extractLsb' 5 3 = (confirming 22 14).cfg.regmap.modeNormal := by
  decide

theorem witness_FilterCommandsSendSequence :
    (confirming 5 22).cfg.wf = true ∧ (confirming 5 22).awaiting = true ∧
    ((confirming 5 22).answer 5).extractLsb' 5 3 = (confirming 5 22).cfg.regmap.modeConfig ∧
    ((confirming 5 22).answer 27).extractLsb' 5 3 = (confirming 5 22).cfg.regmap.modeNormal := by
  decide

/-- A poll that confirms, one that times out and one that polls again, with a step after it and as the
command's last step. -/
theorem witness_ModeChangePollsUntilConfirmed :
    (let s : State := { State.reset with
      fg := [.pollMode 4#3 2, .requestMode 0#3], env.spiAnswers := [0#8, 0#8, 0x87#8] }
    s.progress = some [.pollMode 4#3 2, .requestMode 0#3] ∧
    ({ s with fg := [.pollMode 0#3 0] } : State).progress = some (.pollMode 0#3 0 :: []) ∧
    (s.answer 2).extractLsb' 5 3 = 4#3 ∧ s.cfg.modePollCap = some (2 + 1) ∧
    s.cfg.modePollCap ≠ some (1 + 1)) ∧
    (({ State.reset with env.spiAnswers := [0#8, 0#8, 0#8] } : State).answer 2).extractLsb' 5 3
      ≠ 4#3 := by decide

theorem witness_BdPrepReservesFreeSlot :
    (started.bd.sqFree.toNat + 1) % started.cfg.mQueue ≠ started.bd.sqNext.toNat ∧
    started.bd.resvValid = false ∧ started.cfg.prepareNestSave = .overwrite ∧
    ({ started with bd := { started.bd with sqFree := 15#8 } } : State).bd.sqFree.toNat + 1
      = 16 := by decide

theorem witness_PrepTwiceReturnsSamePointer :
    (started.bd.sqFree.toNat + 1) % started.cfg.mQueue ≠ started.bd.sqNext.toNat ∧
    ∃ t, exec .bdPrep started = .next t ∧ ∃ u, exec .bdPrep t = .next u :=
  ⟨by decide, _, rfl, next_of_isNext (by decide)⟩

theorem witness_FieldWriteThenRead :
    started.Sized ∧ (15#8).toNat < started.cfg.mQueue ∧ (0x0F#8, 0x000000FF#32) ∈ fieldMasks started.cfg ∧
    (0x00#8, 0xFFFFFFFF#32) ∈ fieldMasks started.cfg := by decide

theorem witness_FieldReadZeroExtends :
    (let s : State := { started with bd := { started.bd with sq := [remoteFrame, frame] } }
    (1#8).toNat < s.cfg.mQueue ∧ s.bd.sq[(1#8).toNat]? = some frame ∧
    s.bd.sq[(0#8).toNat]? = some remoteFrame ∧
    (0x01#8, 0x00000123#32) ∈ fieldValues s.cfg frame ∧ (0x02#8, 0#32) ∈ fieldValues s.cfg frame ∧
    (0x02#8, 1#32) ∈ fieldValues s.cfg remoteFrame ∧
    (0x09#8, 0x000000BB#32) ∈ fieldValues s.cfg frame) := by decide

theorem witness_BadPointerOrFieldRefused :
    started.cfg.mQueue ≤ (16#8).toNat ∧ (15#8).toNat < started.cfg.mQueue ∧
    (∀ m, (0x05#8, m) ∉ fieldMasks started.cfg) ∧ (∀ m, (0x10#8, m) ∉ fieldMasks started.cfg) :=
  ⟨by decide, by decide, fun m => by simp [fieldMasks], fun m => by simp [fieldMasks]⟩

theorem witness_BdCommitQueuesAndSends :
    (let s : State := { started with bd := { started.bd with resvValid := true } }
    s.bd.resvValid = true ∧ (0#8) = s.bd.sqFree ∧ (5#8) ≠ s.bd.sqFree ∧
    s.bd.inFlight = false) ∧ started.bd.resvValid = false := by decide

/-- A delivery inside another, the outer one alone, and no handler context. -/
theorem witness_BdAckEndsHandler :
    innermostDelivery (.isr .can (.advance .error) :: inHandler.stack) = some (.message frame) ∧
    inHandler.stack = .handler (.message frame) [] :: [.isr .can (.advance .message)] ∧
    innermostDelivery [.isr .can (.advance .message)] = none ∧ State.reset.stack = [] := by decide

theorem witness_IeSetIeClrWriteIe :
    (due (.command 0x20000000#32) started).cfg.wf = true ∧
    (due (.command 0x20000000#32) started).awaiting = true ∧
    (due (.command 0x20000000#32) started).env.moves = .command 0x20000000#32 :: [.core] ∧
    (due (.command 0x21000000#32) started).env.moves = .command 0x21000000#32 :: [.core] := by
  decide

theorem witness_TransmitSendsWholeFrame :
    ({ started.bd with sq := [frame, remoteFrame] } : BusDriver).sq.getD (1#8).toNat
      MessageEvent.zero = remoteFrame ∧ started.cfg.wf = true := by decide

/-- The bytes of a standard frame with SRR, bit 4 of SIDL, and of an extended one. -/
theorem witness_ReceiveInvertsTransmit :
    Config.vectors.wf = true ∧
    (receivedEvent Config.vectors (fun j => [0x24#8, 0x70#8].getD j 0#8) 0#32).ext = false ∧
    (receivedEvent Config.vectors (fun j => [0x24#8, 0x68#8].getD j 0#8) 0#32).ext = true := by decide

/-- The CAN handler's first step with the answer `intf` to its READ. -/
def handling (intf : Byte) (s : State) : State :=
  { inIsr .can .start s with env.spiAnswers := [0#8, 0#8, intf, 0x15#8], env.times := [1000#32] }

theorem witness_CanErrorBranch :
    (handling 0x20#8 started).Sized ∧ (handling 0x20#8 started).cfg.wf = true ∧
    (handling 0x20#8 started).stack = .isr .can .start :: [] ∧
    ((handling 0x20#8 started).answer 2).getLsbD 5 = true ∧
    (started.bd.eqFree.toNat + 1) % started.cfg.eQueue ≠ started.bd.eqNext.toNat ∧
    (3 + 1) % started.cfg.eQueue = started.bd.eqNext.toNat := by decide

theorem witness_CanTransmitBranch :
    (handling 0x04#8 started).stack = .isr .can .start :: [] ∧
    ((handling 0x04#8 started).answer 2).getLsbD 5 = false ∧
    ((handling 0x04#8 started).answer 2).getLsbD 2 = true ∧ started.bd.inFlight = false ∧
    BitVec.ofNat 8 ((15 + 1) % started.cfg.mQueue) = (0#8) ∧
    BitVec.ofNat 8 ((0 + 1) % started.cfg.mQueue) ≠ (2#8) := by decide

theorem witness_CanReceiveBranch :
    (handling 0x01#8 started).Sized ∧ (handling 0x01#8 started).cfg.wf = true ∧
    (handling 0x01#8 started).stack = .isr .can .start :: [] ∧
    ((handling 0x01#8 started).answer 2).getLsbD 5 = false ∧
    ((handling 0x01#8 started).answer 2).getLsbD 2 = false ∧
    ((handling 0x01#8 started).answer 2).getLsbD 0 = true ∧
    ((handling 0x00#8 started).answer 2).getLsbD 0 = false ∧
    (started.bd.rqFree.toNat + 1) % started.cfg.mQueue ≠ started.bd.rqNext.toNat ∧
    (15 + 1) % started.cfg.mQueue = started.bd.rqNext.toNat := by decide

/-- A drain at a step position, with the queue empty or holding one event. -/
def draining (pos : IsrPos) (n : BitVec 8) : State :=
  inIsr .can pos { started with bd := { started.bd with eqFree := n, rqFree := n } }

theorem witness_ErrorDrainSteps :
    (∀ n ∈ [(0#8), 1#8], ∀ pos ∈ [IsrPos.guard .error, .check .error, .advance .error],
      (draining pos n).cfg.wf = true ∧ (draining pos n).Sized ∧
      (draining pos n).stack = .isr .can pos :: [] ∧ (draining pos n).bd.eqDraining = false ∧
      (draining pos n).bd.ehPresent = true) ∧
    (draining (.check .error) 0#8).bd.eqNext = 0#8 ∧
    (draining (.check .error) 1#8).bd.eqNext ≠ 1#8 := by decide

theorem witness_InboundDrainSteps :
    (∀ n ∈ [(0#8), 1#8], ∀ pos ∈ [IsrPos.guard .message, .check .message, .advance .message],
      (draining pos n).cfg.wf = true ∧ (draining pos n).Sized ∧
      (draining pos n).stack = .isr .can pos :: [] ∧ (draining pos n).bd.rqDraining = false ∧
      (draining pos n).bd.mhPresent = true) ∧
    (draining (.check .message) 0#8).bd.rqNext = 0#8 ∧
    (draining (.check .message) 1#8).bd.rqNext ≠ 1#8 := by decide

/-- The same with the drain's guard set, RQ_DRAINING = 1, and with no handler registered. -/
theorem witness_InboundDrainSteps_guarded :
    (let s := draining (.guard .message) 1#8
    let g : State := { s with bd := { s.bd with rqDraining := true } }
    g.cfg.wf = true ∧ g.Sized ∧ g.stack = .isr .can (.guard .message) :: [] ∧
      g.bd.rqDraining = true) ∧
    (let s := draining (.check .message) 1#8
    let g : State := { s with bd := { s.bd with mhPresent := false } }
    g.cfg.wf = true ∧ g.Sized ∧ g.stack = .isr .can (.check .message) :: [] ∧
      g.bd.rqNext ≠ g.bd.rqFree ∧ g.bd.mhPresent = false) := by decide

/-- The error drain with EQ_DRAINING = 1, and with no handler registered. -/
theorem witness_ErrorDrainSteps_guarded :
    (let s := draining (.guard .error) 1#8
    let g : State := { s with bd := { s.bd with eqDraining := true } }
    g.cfg.wf = true ∧ g.Sized ∧ g.stack = .isr .can (.guard .error) :: [] ∧
      g.bd.eqDraining = true) ∧
    (let s := draining (.check .error) 1#8
    let g : State := { s with bd := { s.bd with ehPresent := false } }
    g.cfg.wf = true ∧ g.Sized ∧ g.stack = .isr .can (.check .error) :: [] ∧
      g.bd.eqNext ≠ g.bd.eqFree ∧ g.bd.ehPresent = false) := by decide

theorem witness_ResetMeetsInvariants : Config.vectors.wf = true := by decide

theorem witness_StepKeepsStorageSized :
    running.Sized ∧ ∃ t, step (due .emit running) = .next t :=
  ⟨by decide, next_of_isNext (by decide)⟩

theorem witness_StepKeepsGeneratorArmed :
    running.GeneratorArmed ∧ ∃ t, step running = .next t :=
  ⟨by decide, next_of_isNext (by decide)⟩

/-- A reservation open and a frame in flight. -/
theorem witness_StepKeepsSendQueueOk :
    ({ started with bd := { started.bd with
        inFlight := true, resvValid := true, sqFree := 14#8 } } : State).SendQueueOk ∧
    ∃ t, step { started with bd := { started.bd with
        inFlight := true, resvValid := true, sqFree := 14#8 } } = .next t :=
  ⟨by decide, next_of_isNext (by decide)⟩

theorem witness_StepKeepsContextsOk :
    inHandler.ContextsOk ∧ ∃ t, step (due (.command 0x18000000#32) inHandler) = .next t :=
  ⟨by decide, next_of_isNext (by decide)⟩

theorem witness_StepKeepsPortOk :
    inHandler.PortOk ∧ ∃ t, step (due (.command 0x18000000#32) inHandler) = .next t :=
  ⟨⟨rfl, rfl, rfl⟩, next_of_isNext (by decide)⟩

/-- A step that clears RUNNING and GO, one that sets RUNNING and one that sets GO. -/
theorem witness_RunningHaltsOnlyByFaultInterrupt :
    after (step (inIsr .fault .start running)) (fun t => !t.te.running) = true ∧
    after (step (due (.command 0x01000000#32) State.reset)) (fun t => t.te.running) = true := by
  decide

theorem witness_GoWrittenOnlyByStartAndFault :
    after (step busy) (fun t => t.te.go) = true ∧ busy.te.go = false ∧
    after (step (inIsr .fault .start running)) (fun t => !t.te.go) = true ∧
    running.te.go = true := by decide

theorem witness_TableWrittenOnlyByItsCommands :
    after (issued 0x02020000#32 5#32 0#32 State.reset) (fun t => t.te.msg != State.reset.te.msg)
      = true ∧
    after (issued 0x06020001#32 0#32 0#32 State.reset) (fun t => t.te.spd != State.reset.te.spd)
      = true ∧
    after (issued 0x07020001#32 0#32 0#32 State.reset) (fun t => t.te.os != State.reset.te.os)
      = true := by decide

/-- EN set by `te.en`, and cleared by `te.dis`, by the load of `te.start` and by the load of the tick at the
wait-boundary, each of a one-shot slot. -/
theorem witness_TableWrittenOnlyByItsCommands_en :
    (let once := { running.te with os := running.te.en }
    let idle : State := { running with te := { once with running := false, go := false } }
    let last : State := { running with te := { once with curBit := 21#9, curHalf := true } }
    State.reset.te.en.getD 2 false = false ∧
    after (issued 0x04020000#32 0#32 0#32 State.reset) (fun t => t.te.en.getD 2 false) = true ∧
    running.te.en.getD 2 false = true ∧
    after (issued 0x05020000#32 0#32 0#32 running) (fun t => !t.te.en.getD 2 false) = true ∧
    after (issued 0x01000000#32 0#32 0#32 idle) (fun t => !t.te.en.getD 2 false) = true ∧
    after (step (inIsr .tick .start last)) (fun t => !t.te.en.getD 2 false) = true) := by decide

theorem witness_CursorMovedOnlyByStartAndTick :
    after (step (inIsr .tick .start running)) (fun t => t.te.curBit != running.te.curBit) = true ∧
    after (step (due (.command 0x01000000#32) State.reset))
      (fun t => t.te.curSlot != State.reset.te.curSlot) = true := by decide

/-- IE cleared by entry, by a drain's check and by `bd.prep`, and set by the returns and the delivery. -/
theorem witness_IeWrittenOnlyByItsWriters :
    after (step (due (.take .tick) allPending)) (fun t => t.ie != allPending.ie) = true ∧
    after (step (inIsr .tick .start running)) (fun t => t.ie) = true ∧
    after (step (draining (.check .error) 1#8)) (fun t => t.ie) = true ∧
    after (step { draining (.advance .error) 1#8 with ie := true }) (fun t => !t.ie) = true ∧
    after (step { draining (.guard .message) 1#8 with
      bd := { started.bd with rqDraining := true } }) (fun t => t.ie) = true ∧
    after (issued 0x14000000#32 0#32 0#32 started) (fun t => !t.ie) = true := by decide

theorem witness_StickyStateStays :
    ∃ t, step (due (.command 0x01000000#32) running) = .next t := next_of_isNext (by decide)

theorem witness_AddressCodeProperties :
    Config.vectors.wf = true ∧ 79 / 3 ^ 3 % 3 = 2 ∧ 79 / 3 ^ 0 % 3 = 1 ∧ 0 / 3 ^ 3 % 3 = 0 := by decide

end Sys2Proof.Tests
end

section
/-! PROOFS. Scope (00_scope.md): a step is refused exactly in an ill-formed configuration (R7, R8), and a
command of one engine leaves the other engine and the configuration alone (R1). -/

namespace Sys2Proof.Machine

/-! ## Every command and every move answers a next state -/

/-- No command faults and none is refused, on any branch of its meaning (60_exceptions.md R118). -/
theorem exec_eq_next (i : Instr) (s : State) : ∃ t, exec i s = .next t := by
  cases i <;> simp only [exec]
  case teStart =>
    unfold execTeStart
    split <;> exact ⟨_, rfl⟩
  case bdPrep =>
    unfold execBdPrep
    split <;> exact ⟨_, rfl⟩
  case bdFw | bdFr =>
    simp only [execBdFw, execBdFr]
    split
    · exact ⟨_, rfl⟩
    · split <;> exact ⟨_, rfl⟩
  case bdCommit p =>
    by_cases hc : s.bd.resvValid = true ∧ p = s.bd.sqFree
    · obtain ⟨t, ht, -⟩ := execBdCommit_eq hc.1 hc.2
      exact ⟨t, ht⟩
    · exact ⟨_, execBdCommit_fail hc⟩
  case bdAck =>
    unfold execBdAck
    split <;> exact ⟨_, rfl⟩
  case teWr | teRd | teEn | teDis | teSpeed | teOneshot | bdStart | bdFiltStd | bdFiltExt
      | bdFiltClr | ieSet | ieClr => exact ⟨_, rfl⟩

/-- The host's write of W answers a next state, whether the word decodes or not (30_encoding.md R60). -/
theorem issue_eq_next (w : Word) (s : State) : ∃ t, issue w s = .next t := by
  rcases issue_cases w s with ⟨i, -, hi⟩ | ⟨e, -, he⟩
  · rw [hi]
    exact exec_eq_next i _
  · exact ⟨_, he⟩

theorem applyMove_eq_next (m : Move) (s : State) : ∃ t, applyMove m s = .next t := by
  cases m with
  | command w => exact issue_eq_next w s
  | core | emit | fault | take | writeA | writeB => exact ⟨_, rfl⟩

theorem step_eq_next_of_wf {s : State} (h : s.cfg.wf = true) : ∃ t, step s = .next t := by
  rw [step, if_pos h]
  split
  · exact ⟨_, rfl⟩
  · split
    · exact ⟨_, rfl⟩
    · exact applyMove_eq_next _ _

theorem step_eq_refused_of_not_wf {s : State} (h : s.cfg.wf = false) :
    step s = .refused .illFormedConfig := by
  simp [step, h]

/-- Settles O8: a well-formed configuration steps because every move answers a next state. -/
theorem stepRefusesOnlyIllFormedConfig : Obligations.StepRefusesOnlyIllFormedConfig :=
  fun _ => ⟨step_eq_next_of_wf, step_eq_refused_of_not_wf⟩

/-! ## The two engines -/

/-- The commands that write the Timing Engine are its own (00_scope.md R1). -/
theorem exec_te_of_not_isTimingEngine {i : Instr} {s t : State} (h : exec i s = .next t)
    (hi : isTimingEngine i = false) : t.te = s.te := by
  rcases exec_te h with hte | ⟨rfl, -⟩ | ⟨_, _, rfl, -⟩ | ⟨_, _, _, ⟨rfl, -⟩ | ⟨rfl, -⟩, -⟩ |
    ⟨_, _, _, rfl, -⟩ | ⟨_, _, _, rfl, -⟩
  · exact hte
  all_goals simp [isTimingEngine] at hi

/-- The commands that write the Bus Driver are none of the Timing Engine's (00_scope.md R1). -/
theorem exec_bd_of_isTimingEngine {i : Instr} {s t : State} (h : exec i s = .next t)
    (hi : isTimingEngine i = true) : t.bd = s.bd := by
  rcases exec_bd h with hbd | ⟨_, _, rfl, -⟩ | ⟨_, rfl, -⟩ | ⟨_, _, _, rfl, -⟩ | ⟨rfl, -⟩ |
    ⟨_, _, _, rfl, -⟩
  · exact hbd
  all_goals simp [isTimingEngine] at hi

/-- Settles O10, from what a command does to each engine and what it never touches. -/
theorem enginesAreIndependent : Obligations.EnginesAreIndependent := by
  intro i s t h
  obtain ⟨hcfg, -⟩ := exec_keeps h
  exact ⟨hcfg, exec_bd_of_isTimingEngine h, exec_te_of_not_isTimingEngine h⟩

end Sys2Proof.Machine
end

section
/-! PROOFS. State (10_state.md): what a step can do to each engine, as one named case each, then the
invariants every step keeps and the elements only their own writers change. -/

namespace Sys2Proof.Machine

/-! ## The sequencer's operations, field by field -/

/-- The tick of a stopped engine does nothing (41_te_sequencer.md R87 (a)). -/
theorem tick_of_stopped {c : Config} {e : TimingEngine} (h : e.running = false) :
    e.tick c = e := by
  simp [TimingEngine.tick, h]

theorem tick_of_running {c : Config} {e : TimingEngine} (h : e.running = true) :
    e.tick c = (e.advance c).program c e.curSpd := by
  simp [TimingEngine.tick, h]

@[simp] theorem tick_msg (c : Config) (e : TimingEngine) : (e.tick c).msg = e.msg := by
  rw [tick_frame]
@[simp] theorem tick_spd (c : Config) (e : TimingEngine) : (e.tick c).spd = e.spd := by
  rw [tick_frame]
@[simp] theorem tick_os (c : Config) (e : TimingEngine) : (e.tick c).os = e.os := by
  rw [tick_frame]
@[simp] theorem tick_running (c : Config) (e : TimingEngine) : (e.tick c).running = e.running := by
  rw [tick_frame]
@[simp] theorem tick_go (c : Config) (e : TimingEngine) : (e.tick c).go = e.go := by
  rw [tick_frame]
@[simp] theorem tick_timerArmed (c : Config) (e : TimingEngine) :
    (e.tick c).timerArmed = e.timerArmed := by
  rw [tick_frame]
@[simp] theorem tick_tickPend (c : Config) (e : TimingEngine) :
    (e.tick c).tickPend = e.tickPend := by
  rw [tick_frame]
@[simp] theorem tick_faultPend (c : Config) (e : TimingEngine) :
    (e.tick c).faultPend = e.faultPend := by
  rw [tick_frame]

@[simp] theorem start_msg (c : Config) (x : Bool) (e : TimingEngine) :
    (e.start c x).msg = e.msg := by
  rw [TimingEngine.start, load_frame]
@[simp] theorem start_spd (c : Config) (x : Bool) (e : TimingEngine) :
    (e.start c x).spd = e.spd := by
  rw [TimingEngine.start, load_frame]
@[simp] theorem start_os (c : Config) (x : Bool) (e : TimingEngine) :
    (e.start c x).os = e.os := by
  rw [TimingEngine.start, load_frame]
@[simp] theorem start_go (c : Config) (x : Bool) (e : TimingEngine) :
    (e.start c x).go = e.go := by
  rw [TimingEngine.start, load_frame]
@[simp] theorem start_running (c : Config) (x : Bool) (e : TimingEngine) :
    (e.start c x).running = true := rfl
@[simp] theorem start_timerArmed (c : Config) (x : Bool) (e : TimingEngine) :
    (e.start c x).timerArmed = true := rfl

/-- A start changes the enable bits by its one load (40_te_commands.md R77, 41_te_sequencer.md R86). -/
theorem start_en {c : Config} (hwf : c.wf = true) (x : Bool) (e : TimingEngine) (j : Nat) :
    (e.start c x).en.getD j false = e.en.getD j false ∨
    (e.os.getD j false = true ∧ (e.start c x).curSlot.toNat = j ∧
      (e.start c x).en.getD j false = false) :=
  load_en hwf { e with curSlot := BitVec.ofNat 8 (c.nSlots - 1) } j

/-- A tick changes the enable bits by a load only, at the wait-boundary: the last symbol of half-cycle 1
(41_te_sequencer.md R87). -/
theorem tick_en {c : Config} (hwf : c.wf = true) (e : TimingEngine) (j : Nat) :
    (e.tick c).en.getD j false = e.en.getD j false ∨
    (e.os.getD j false = true ∧ (e.tick c).curSlot.toNat = j ∧
      (e.tick c).en.getD j false = false ∧ e.curHalf = true ∧
      e.curBit.toNat = lastSignalBit c + c.waitUnits) := by
  cases hr : e.running with
  | false => exact .inl (by rw [tick_of_stopped hr])
  | true =>
    rw [tick_of_running hr]
    rcases advance_cases c e with ⟨hbit, hhalf, ha⟩ | ⟨-, -, ha⟩ | ⟨-, ha⟩ <;> rw [ha]
    · have hpause : e.pause c = c.waitUnits := if_pos hhalf
      rcases load_en hwf e j with hsame | ⟨hos, hslot, hoff⟩
      · exact .inl hsame
      · exact .inr ⟨hos, hslot, hoff, hhalf, by rw [hbit, hpause]⟩
    · exact .inl rfl
    · exact .inl rfl

/-! ## What a step does to the Timing Engine -/

/-- A bit read after a write of a list of bits is the bit before or the bit written. -/
theorem getD_set_bool (l : List Bool) (i j : Nat) (v : Bool) :
    (l.set i v).getD j false = l.getD j false ∨ (l.set i v).getD j false = v := by
  simp only [List.getD_eq_getElem?_getD, List.getElem?_set]
  split_ifs with hij hlt
  · exact .inr rfl
  · exact .inl (by rw [List.getElem?_eq_none (by omega)])
  · exact .inl rfl

/-- The Timing Engines a step from `s` can answer, one case per agent that writes one: the generator's
boundary, the FAULT pin, interrupt entry, the two handlers, the second step of `te.start`, and the
commands. -/
inductive TeChange (s : State) : TimingEngine → Prop
  | unchanged : TeChange s s.te
  | boundary (harmed : s.te.timerArmed = true) :
      TeChange s { s.te with
        wgLPeriod := s.te.wgPeriod, wgLDuty := s.te.wgDuty, tickPend := true }
  | sample (x b : Bool) (hb : b = true → s.te.faultPend = true ∨ s.te.running = true) :
      TeChange s { s.te with faultPend := b, faultPrev := x }
  | entry (b d : Bool) (hb : b = true → s.te.faultPend = true)
      (hd : d = true → s.te.tickPend = true) :
      TeChange s { s.te with faultPend := b, tickPend := d }
  | tick (below : List Context) (hs : s.stack = .isr .tick .start :: below) :
      TeChange s (s.te.tick s.cfg)
  | fault (below : List Context) (hs : s.stack = .isr .fault .start :: below)
      (hrun : s.te.running = true) :
      TeChange s { s.te with running := false, go := false }
  | release (rest : Progress) (hp : s.progress = some (.releaseGo :: rest)) :
      TeChange s { s.te with go := true }
  | start (hi : s.aboutToIssue .teStart) (hstop : s.te.running = false) :
      TeChange s (s.te.start s.cfg s.env.faultPin)
  | write (k : Byte) (j : Nat) (hi : s.aboutToIssue (.teWr k)) :
      TeChange s { s.te with msg := s.te.msg.set j s.a }
  | enable (k : Byte) (j : Nat) (hi : s.aboutToIssue (.teEn k)) :
      TeChange s { s.te with en := s.te.en.set j true }
  | disable (k : Byte) (j : Nat) (hi : s.aboutToIssue (.teDis k)) :
      TeChange s { s.te with en := s.te.en.set j false }
  | speed (k : Byte) (j : Nat) (v : Bool) (hi : s.aboutToIssue (.teSpeed k v)) :
      TeChange s { s.te with spd := s.te.spd.set j v }
  | oneshot (k : Byte) (j : Nat) (v : Bool) (hi : s.aboutToIssue (.teOneshot k v)) :
      TeChange s { s.te with os := s.te.os.set j v }

theorem step_teChange {s t : State} (h : step s = .next t) : TeChange s t.te := by
  rcases step_te_cases h with he | ⟨harmed, he⟩ | ⟨x, b, hb, he⟩ | ⟨b, d, hb, hd, he⟩ |
    ⟨below, hs, he⟩ | ⟨below, hs, hrun, he⟩ | ⟨rest, hp, he⟩ | ⟨hi, hstop, he⟩ | ⟨k, j, hi, he⟩ |
    ⟨k, j, v, ⟨hi, rfl⟩ | ⟨hi, rfl⟩, he⟩ | ⟨k, j, v, hi, he⟩ | ⟨k, j, v, hi, he⟩ <;> rw [he]
  · exact .unchanged
  · exact .boundary harmed
  · exact .sample x b hb
  · exact .entry b d hb hd
  · exact .tick below hs
  · exact .fault below hs hrun
  · exact .release rest hp
  · exact .start hi hstop
  · exact .write k j hi
  · exact .enable k j hi
  · exact .disable k j hi
  · exact .speed k j v hi
  · exact .oneshot k j v hi

namespace TeChange

variable {s : State} {e : TimingEngine}

theorem sized (h : TeChange s e) (hwf : s.cfg.wf = true) (hs : s.te.Sized s.cfg) :
    e.Sized s.cfg := by
  have ⟨hmsg, hen, hspd, hos, hslot, hbit, hper, hduty, hlper, hlduty⟩ := hs
  cases h with
  | boundary => exact ⟨hmsg, hen, hspd, hos, hslot, hbit, hper, hduty, hper, hduty⟩
  | tick => exact tick_sized hwf hs
  | start => exact start_sized hwf hs
  | write => exact ⟨by simpa using hmsg, hen, hspd, hos, hslot, hbit, hper, hduty, hlper, hlduty⟩
  | enable | disable =>
    exact ⟨hmsg, by simpa using hen, hspd, hos, hslot, hbit, hper, hduty, hlper, hlduty⟩
  | speed => exact ⟨hmsg, hen, by simpa using hspd, hos, hslot, hbit, hper, hduty, hlper, hlduty⟩
  | oneshot => exact ⟨hmsg, hen, hspd, by simpa using hos, hslot, hbit, hper, hduty, hlper, hlduty⟩
  | unchanged | sample | entry | fault | release => exact hs

/-- TIMER_ARMED is never cleared (10_state.md R25). -/
theorem timerArmed (h : TeChange s e) (harmed : s.te.timerArmed = true) : e.timerArmed = true := by
  cases h with
  | tick => rw [tick_timerArmed, harmed]
  | start => rfl
  | _ => exact harmed

/-- The engine starts to run only in a start, which arms the generator. -/
theorem armed_of_running (h : TeChange s e) (hs : s.GeneratorArmed) (hrun : e.running = true) :
    e.timerArmed = true := by
  obtain ⟨hrunArmed, -, -⟩ := hs
  cases h with
  | start => rfl
  | fault => simp at hrun
  | tick => simpa using hrunArmed (by simpa using hrun)
  | _ => exact hrunArmed hrun

/-- A tick is requested only by a boundary of an armed generator. -/
theorem armed_of_tickPend (h : TeChange s e) (hs : s.GeneratorArmed) (hpend : e.tickPend = true) :
    e.timerArmed = true := by
  obtain ⟨-, htickArmed, -⟩ := hs
  cases h with
  | start => rfl
  | boundary harmed => exact harmed
  | entry b d hb hd => exact htickArmed (hd hpend)
  | tick => simpa using htickArmed (by simpa using hpend)
  | _ => exact htickArmed hpend

/-- A fault is requested only while the engine runs. -/
theorem armed_of_faultPend (h : TeChange s e) (hs : s.GeneratorArmed) (hpend : e.faultPend = true) :
    e.timerArmed = true := by
  obtain ⟨hrunArmed, -, hfaultArmed⟩ := hs
  cases h with
  | start => rfl
  | sample x b hb => exact (hb hpend).elim hfaultArmed hrunArmed
  | entry b d hb hd => exact hfaultArmed (hb hpend)
  | tick => simpa using hfaultArmed (by simpa using hpend)
  | _ => exact hfaultArmed hpend

theorem fault_of_running_cleared (h : TeChange s e) (hrun : s.te.running = true)
    (hstop : e.running = false) :
    e.go = false ∧ ∃ below, s.stack = .isr .fault .start :: below := by
  cases h with
  | fault below hs => exact ⟨rfl, below, hs⟩
  | _ => simp [hrun] at hstop

theorem start_of_running_set (h : TeChange s e) (hstop : s.te.running = false)
    (hrun : e.running = true) : s.aboutToIssue .teStart := by
  cases h with
  | start hi => exact hi
  | _ => simp [hstop] at hrun

theorem release_of_go_set (h : TeChange s e) (hlow : s.te.go = false) (hhigh : e.go = true) :
    ∃ rest, s.progress = some (.releaseGo :: rest) := by
  cases h with
  | release rest hp => exact ⟨rest, hp⟩
  | _ => simp [hlow] at hhigh

theorem fault_of_go_cleared (h : TeChange s e) (hhigh : s.te.go = true) (hlow : e.go = false) :
    ∃ below, s.stack = .isr .fault .start :: below := by
  cases h with
  | fault below hs => exact ⟨below, hs⟩
  | _ => simp [hhigh] at hlow

theorem teWr_of_msg_ne (h : TeChange s e) (hne : e.msg ≠ s.te.msg) :
    ∃ k, s.aboutToIssue (.teWr k) := by
  cases h with
  | write k j hi => exact ⟨k, hi⟩
  | _ => simp at hne

theorem teSpeed_of_spd_ne (h : TeChange s e) (hne : e.spd ≠ s.te.spd) :
    ∃ k v, s.aboutToIssue (.teSpeed k v) := by
  cases h with
  | speed k j v hi => exact ⟨k, v, hi⟩
  | _ => simp at hne

theorem teOneshot_of_os_ne (h : TeChange s e) (hne : e.os ≠ s.te.os) :
    ∃ k v, s.aboutToIssue (.teOneshot k v) := by
  cases h with
  | oneshot k j v hi => exact ⟨k, v, hi⟩
  | _ => simp at hne

/-- An enable bit is kept, set by `te.en`, or cleared by `te.dis` or by the load of its one-shot slot
(10_state.md R21). -/
theorem en_cases (h : TeChange s e) (hwf : s.cfg.wf = true) (j : Nat) :
    e.en.getD j false = s.te.en.getD j false ∨
    (e.en.getD j false = true ∧ ∃ k, s.aboutToIssue (.teEn k)) ∨
    (e.en.getD j false = false ∧
      ((∃ k, s.aboutToIssue (.teDis k)) ∨
      (s.te.os.getD j false = true ∧ e.curSlot.toNat = j ∧
        (s.aboutToIssue .teStart ∨
          (∃ below, s.stack = .isr .tick .start :: below) ∧ s.te.curHalf = true ∧
            s.te.curBit.toNat = (s.cfg.signalBits - 1) + s.cfg.waitUnits)))) := by
  cases h with
  | enable k i hi => exact (getD_set_bool s.te.en i j true).imp_right fun hset => .inl ⟨hset, k, hi⟩
  | disable k i hi =>
    exact (getD_set_bool s.te.en i j false).imp_right fun hclr => .inr ⟨hclr, .inl ⟨k, hi⟩⟩
  | tick below hs =>
    rcases tick_en hwf s.te j with hsame | ⟨hos, hslot, hclr, hhalf, hbit⟩
    · exact .inl hsame
    · exact .inr (.inr ⟨hclr, .inr ⟨hos, hslot, .inr ⟨⟨below, hs⟩, hhalf, hbit⟩⟩⟩)
  | start hi =>
    rcases start_en hwf s.env.faultPin s.te j with hsame | ⟨hos, hslot, hclr⟩
    · exact .inl hsame
    · exact .inr (.inr ⟨hclr, .inr ⟨hos, hslot, .inl hi⟩⟩)
  | _ => exact .inl rfl

end TeChange

/-! ## What a step does to the Bus Driver -/

/-- The Bus Drivers a step from `s` can answer: the three branches of the CAN handler, a drain's guard and
cursor, a change of the event port (a delivery or its acknowledgement), and the commands. -/
inductive BdChange (s : State) : BusDriver → Prop
  | unchanged : BdChange s s.bd
  | errorQueued (r : ErrorEvent) :
      BdChange s { s.bd with
        eq := s.bd.eq.set s.bd.eqFree.toNat r, eqFree := bump s.bd.eqFree s.cfg.eQueue }
  | frameDone (hfly : s.bd.inFlight = true) :
      BdChange s { s.bd with
        sqNext := bump s.bd.sqNext s.cfg.mQueue
        inFlight := !queueEmpty (bump s.bd.sqNext s.cfg.mQueue) s.bd.sqFree }
  | received (m : MessageEvent) :
      BdChange s { s.bd with
        rq := s.bd.rq.set s.bd.rqFree.toNat m, rqFree := bump s.bd.rqFree s.cfg.mQueue }
  | guarded (q : EventKind) (g : Bool) : BdChange s (s.bd.setDraining q g)
  | advanced (q : EventKind) : BdChange s (s.bd.advanceNext s.cfg q)
  | port (v : Bool) (k : EventKind) (r : EventRecord) :
      BdChange s { s.bd with evtValid := v, evtKind := k, evtRec := r }
  | started (hm he : Bool) (hi : s.aboutToIssue (.bdStart hm he)) : BdChange s (s.bd.start hm he)
  | reserved (x : Bool) (hi : s.aboutToIssue .bdPrep)
      (hroom : queueFull s.bd.sqNext s.bd.sqFree s.cfg.mQueue = false) :
      BdChange s { s.bd with savedIe := x, resvValid := true }
  | written (p f : Byte) (m : MessageEvent) (hi : s.aboutToIssue (.bdFw p f)) :
      BdChange s { s.bd with sq := s.bd.sq.set p.toNat m }
  | committed (hi : s.aboutToIssue (.bdCommit s.bd.sqFree)) (hresv : s.bd.resvValid = true) :
      BdChange s { s.bd with
        sqFree := bump s.bd.sqFree s.cfg.mQueue, resvValid := false, inFlight := true }

/-- Acknowledging a delivery writes the event port only (42_bd_commands.md R105). -/
theorem restorePort_bd (s : State) :
    ∃ v k r, s.restorePort.bd = { s.bd with evtValid := v, evtKind := k, evtRec := r } := by
  unfold State.restorePort
  split <;> exact ⟨_, _, _, rfl⟩

theorem canPhase1_bdChange (s : State) : BdChange s s.canPhase1.bd := by
  rcases canPhase1_bd s with he | ⟨r, -, he⟩ | ⟨hfly, he⟩ | ⟨m, -, he⟩ <;> rw [he]
  · exact .unchanged
  · exact .errorQueued r
  · exact .frameDone hfly
  · exact .received m

theorem isrStep_bdChange (s : State) (v : Irq) (pos : IsrPos) :
    BdChange s (s.isrStep v pos).bd := by
  rcases isrStep_bd s v pos with he | ⟨-, -, he⟩ | ⟨q, g, he⟩ | ⟨q, -, -, he⟩ | ⟨q, -, he⟩ <;> rw [he]
  · exact .unchanged
  · exact canPhase1_bdChange s
  · exact .guarded q g
  · exact .port true q (s.bd.oldest q)
  · exact .advanced q

theorem step_bdChange {s t : State} (h : step s = .next t) : BdChange s t.bd := by
  rcases step_bd_cases h with he | ⟨v, pos, -, -, he⟩ | ⟨hm, hh, hi, he⟩ | ⟨x, hi, hroom, he⟩ |
    ⟨p, f, m, hi, he⟩ | ⟨hi, hresv, he⟩ | ⟨-, -, below, -, -, he⟩ <;> rw [he]
  · exact .unchanged
  · exact isrStep_bdChange s v pos
  · exact .started hm hh hi
  · exact .reserved x hi hroom
  · exact .written p f m hi
  · exact .committed hi hresv
  · obtain ⟨v, k, r, hport⟩ := restorePort_bd { s with stack := below }
    rw [hport]
    exact .port v k r

namespace BdChange

variable {s : State} {d : BusDriver}

theorem sized (h : BdChange s d) (hwf : s.cfg.wf = true) (hs : s.bd.Sized s.cfg) :
    d.Sized s.cfg := by
  have ⟨hsq, hrq, heq, hsn, hsf, hrn, hrf, hen, hef⟩ := hs
  obtain ⟨hm, -, he, -⟩ := wf_queues hwf
  have hm0 : (0#8).toNat < s.cfg.mQueue := by simp only [BitVec.toNat_ofNat]; omega
  have he0 : (0#8).toNat < s.cfg.eQueue := by simp only [BitVec.toNat_ofNat]; omega
  cases h with
  | errorQueued => exact ⟨hsq, hrq, by simpa using heq, hsn, hsf, hrn, hrf, hen, bump_lt _ hef⟩
  | frameDone => exact ⟨hsq, hrq, heq, bump_lt _ hsn, hsf, hrn, hrf, hen, hef⟩
  | received => exact ⟨hsq, by simpa using hrq, heq, hsn, hsf, hrn, bump_lt _ hrf, hen, hef⟩
  | guarded q => cases q <;> exact hs
  | advanced q =>
    cases q with
    | message => exact ⟨hsq, hrq, heq, hsn, hsf, bump_lt _ hrn, hrf, hen, hef⟩
    | error => exact ⟨hsq, hrq, heq, hsn, hsf, hrn, hrf, bump_lt _ hen, hef⟩
  | started => exact ⟨hsq, hrq, heq, hm0, hm0, hm0, hm0, he0, he0⟩
  | written => exact ⟨by simpa using hsq, hrq, heq, hsn, hsf, hrn, hrf, hen, hef⟩
  | committed => exact ⟨hsq, hrq, heq, hsn, bump_lt _ hsf, hrn, hrf, hen, hef⟩
  | unchanged | port | reserved => exact hs

/-- INT_ATTACHED is never cleared (10_state.md R29). -/
theorem intAttached (h : BdChange s d) (hon : s.bd.intAttached = true) : d.intAttached = true := by
  cases h with
  | started => rfl
  | guarded q | advanced q => cases q <;> exact hon
  | _ => exact hon

end BdChange

/-! ## The outbound queue -/

/-- A queue of one capacity is not full once its oldest entry is freed (10_state.md R28). -/
theorem not_queueFull_bump_next {cap : Nat} {next free : BitVec 8} (h256 : cap ≤ 256)
    (hn : next.toNat < cap) (hf : free.toNat < cap) (hlive : queueEmpty next free = false) :
    queueFull (bump next cap) free cap = false := by
  have hne : next.toNat ≠ free.toNat := by
    simpa [queueEmpty, BitVec.toNat_inj] using hlive
  rw [← Bool.not_eq_true, queueFull_iff, bump_toNat next (by omega) h256]
  intro hfull
  have hmod : free.toNat + 1 ≡ next.toNat + 1 [MOD cap] := hfull
  exact hne ((Nat.ModEq.add_right_cancel' 1 hmod).eq_of_lt_of_lt hf hn).symm

/-- A queue that is not full has an entry once one is added (10_state.md R28). -/
theorem not_queueEmpty_bump_free {cap : Nat} {next free : BitVec 8} (h256 : cap ≤ 256)
    (hf : free.toNat < cap) (hroom : queueFull next free cap = false) :
    queueEmpty next (bump free cap) = false := by
  rw [← Bool.not_eq_true, queueEmpty_iff]
  rintro rfl
  rw [← Bool.not_eq_true, queueFull_iff, bump_toNat free (by omega) h256] at hroom
  exact hroom rfl

theorem BdChange.sendQueueOk {s t : State} (h : BdChange s t.bd) (hcfg : t.cfg = s.cfg)
    (hwf : s.cfg.wf = true) (hs : s.SendQueueOk) : t.SendQueueOk := by
  have ⟨hn, hf, hlive, hroom⟩ := hs
  have ⟨hm, hm255, _, _⟩ := wf_queues hwf
  unfold State.SendQueueOk
  rw [hcfg]
  generalize t.bd = d at h
  cases h with
  | frameDone hfly =>
    exact ⟨bump_lt _ hn, hf, by simp,
      fun _ => not_queueFull_bump_next (by omega) hn hf (hlive hfly)⟩
  | committed hi hresv =>
    exact ⟨hn, bump_lt _ hf, fun _ => not_queueEmpty_bump_free (by omega) hf (hroom hresv),
      by simp⟩
  | reserved x hi hfree => exact ⟨hn, hf, hlive, fun _ => hfree⟩
  | started =>
    have h0 : (0#8).toNat < s.cfg.mQueue := by simp only [BitVec.toNat_ofNat]; omega
    exact ⟨h0, h0, by simp [BusDriver.start], by simp [BusDriver.start]⟩
  | guarded q | advanced q => cases q <;> exact hs
  | _ => exact hs

/-! ## The event port -/

theorem samePort_of_eq {d e : BusDriver} (h : d = e) : SamePort d e := by
  rw [h]
  exact ⟨rfl, rfl, rfl⟩

/-- The port of a state that shows the same and has the same delivery open. -/
theorem portOk_of_samePort {s t : State} (hs : s.PortOk) (hport : SamePort t.bd s.bd)
    (hopen : innermostDelivery t.stack = innermostDelivery s.stack) : t.PortOk := by
  obtain ⟨hvalid, hkind, hrec⟩ := hport
  simpa only [State.PortOk, hvalid, hkind, hrec, hopen] using hs

/-- A new progress for a context ends and opens no delivery. -/
theorem innermostDelivery_setProgress (s : State) (p : Progress) :
    innermostDelivery (s.setProgress p).stack = innermostDelivery s.stack := by
  rcases hs : s.stack with _ | ⟨_ | _, below⟩ <;> simp [State.setProgress, hs, innermostDelivery]

/-- Restoring the port shows the innermost open delivery, whatever was shown before (10_state.md R30). -/
theorem portOk_restorePort {s : State} (hkind : s.bd.evtKind = s.bd.evtRec.kind) :
    s.restorePort.PortOk := by
  unfold State.PortOk
  rw [State.restorePort_stack]
  unfold State.restorePort
  cases hd : innermostDelivery s.stack <;> simp [hkind]

/-- `bd.ack` in a handler context ends it and restores the port (42_bd_commands.md R105). -/
theorem execBdAck_of_handler {s : State} {rec : EventRecord} {prog : Progress}
    {below : List Context} (h : s.stack = .handler rec prog :: below) :
    execBdAck s = .next ((({ s with stack := below } : State).restorePort).ret .ok 0#32) := by
  simp [execBdAck, h]

/-- `bd.ack` in a handler context restores the port; every other command, and `bd.ack` elsewhere, leaves the
port and the open deliveries as they are (10_state.md R30). -/
theorem exec_keeps_portOk {i : Instr} {s t : State} (hs : s.PortOk) (h : exec i s = .next t) :
    t.PortOk := by
  by_cases hack : i = .bdAck ∧ ∃ rec prog below, s.stack = .handler rec prog :: below
  · obtain ⟨rfl, rec, prog, below, hstack⟩ := hack
    rw [exec, execBdAck_of_handler hstack] at h
    injection h with h
    subst h
    exact portOk_restorePort (s := { s with stack := below }) hs.1
  · have hport : SamePort t.bd s.bd := by
      rcases exec_bd h with he | ⟨_, _, -, he⟩ | ⟨_, -, -, he⟩ | ⟨_, _, _, -, he⟩ | ⟨-, -, he⟩ |
        ⟨rec, prog, below, hi, hstack, -⟩
      case inr.inr.inr.inr.inr => exact absurd ⟨hi, rec, prog, below, hstack⟩ hack
      all_goals
        rw [he]
        exact ⟨rfl, rfl, rfl⟩
    refine portOk_of_samePort hs hport ?_
    rcases exec_stack h with he | ⟨p, he⟩ | ⟨rec, prog, below, hi, hstack, -⟩
    · rw [he]
    · rw [he, innermostDelivery_setProgress]
    · exact absurd ⟨hi, rec, prog, below, hstack⟩ hack

/-- A step of an interrupt context opens a delivery and shows it, or leaves both as they are
(43_bd_interrupt.md R112, R113). -/
theorem isrStep_keeps_portOk {s : State} {v : Irq} {pos : IsrPos} {below : List Context}
    (hs : s.PortOk) (h : s.stack = .isr v pos :: below) : (s.isrStep v pos).PortOk := by
  rcases isrStep_control h with ⟨hstack, -, hport⟩ | ⟨_, -, hstack, -, hport⟩ | ⟨q, -, hstack, -, hbd⟩
  · exact portOk_of_samePort hs hport (by rw [hstack, h]; rfl)
  · exact portOk_of_samePort hs hport (by rw [hstack, h]; rfl)
  · unfold State.PortOk
    rw [hstack, hbd]
    exact ⟨(oldest_kind s.bd q).symm, rfl, rfl⟩

/-! ## The host's words -/

/-- A host move at a waiting context is made (60_exceptions.md R126). -/
theorem step_of_awaiting {s : State} {m : Move} {rest : List Move} (hwf : s.cfg.wf = true)
    (ha : s.awaiting = true) (hm : s.env.moves = m :: rest) :
    step s = applyMove m { s with env.moves := rest } := by
  simp [step, hwf, hm, ha]

theorem issue_of_decode {w : Word} {i : Instr} (h : decode w = .ok i) (s : State) :
    issue w s = exec i { s with w := w } := by
  simp [issue, h]

/-- An operand word or W changes only by the host's move that writes it (10_state.md R15). -/
theorem applyMove_words {m : Move} {s t : State} (h : applyMove m s = .next t) :
    (t.a = s.a ∨ m = .writeA t.a) ∧ (t.b = s.b ∨ m = .writeB t.b) ∧
      (t.w = s.w ∨ m = .command t.w) := by
  cases m with
  | command w =>
    rcases issue_next h with ⟨i, -, he⟩ | ⟨e, -, rfl⟩
    · obtain ⟨-, hw, ha, hb, -⟩ := exec_keeps he
      exact ⟨.inl ha, .inl hb, .inr (by rw [hw])⟩
    · exact ⟨.inl rfl, .inl rfl, .inr rfl⟩
  | core =>
    injection h with h
    subst h
    obtain ⟨hw, ha, hb⟩ := coreStep_words s
    exact ⟨.inl ha, .inl hb, .inl hw⟩
  | take v =>
    injection h with h
    subst h
    unfold State.take
    split <;> exact ⟨.inl rfl, .inl rfl, .inl rfl⟩
  | emit =>
    injection h with h
    subst h
    exact ⟨.inl s.emit_a, .inl s.emit_b, .inl s.emit_w⟩
  | fault x =>
    injection h with h
    subst h
    exact ⟨.inl rfl, .inl rfl, .inl rfl⟩
  | writeA x =>
    injection h with h
    subst h
    exact ⟨.inr rfl, .inl rfl, .inl rfl⟩
  | writeB x =>
    injection h with h
    subst h
    exact ⟨.inl rfl, .inr rfl, .inl rfl⟩

theorem step_words {s t : State} (h : step s = .next t) :
    (t.a ≠ s.a → ∃ rest, s.env.moves = .writeA t.a :: rest ∧ s.awaiting = true) ∧
    (t.b ≠ s.b → ∃ rest, s.env.moves = .writeB t.b :: rest ∧ s.awaiting = true) ∧
    (t.w ≠ s.w → ∃ rest, s.env.moves = .command t.w :: rest ∧ s.awaiting = true) := by
  obtain ⟨-, ⟨-, rfl⟩ | ⟨m, rest, hm, hhost, happly⟩⟩ := step_next_cases h
  · obtain ⟨hw, ha, hb⟩ := coreStep_words s
    exact ⟨absurd ha, absurd hb, absurd hw⟩
  · obtain ⟨ha, hb, hw⟩ := applyMove_words happly
    refine ⟨fun hne => ?_, fun hne => ?_, fun hne => ?_⟩
    · obtain rfl := ha.resolve_left hne
      exact ⟨rest, hm, hhost rfl⟩
    · obtain rfl := hb.resolve_left hne
      exact ⟨rest, hm, hhost rfl⟩
    · obtain rfl := hw.resolve_left hne
      exact ⟨rest, hm, hhost rfl⟩

/-! ## The statements -/

/-- Settles O5. -/
theorem stepRunsDecodedCommand : Obligations.StepRunsDecodedCommand := by
  intro s w rest i hwf ha hm hd
  rw [step_of_awaiting hwf ha hm]
  exact issue_of_decode hd _

/-- Settles O9, from what a command never touches and which move writes each word. -/
theorem hostAloneWritesOperandWords : Obligations.HostAloneWritesOperandWords := by
  refine ⟨fun i s t h => ?_, fun s x rest hwf ha => ⟨?_, ?_⟩, fun s t => step_words⟩
  · obtain ⟨-, hw, ha, hb, -⟩ := exec_keeps h
    exact ⟨ha, hb, hw⟩
  · exact step_of_awaiting hwf ha
  · exact step_of_awaiting hwf ha

/-- Settles O48, engine by engine; the configuration the sizes are read from does not change. -/
theorem stepKeepsStorageSized : Obligations.StepKeepsStorageSized := by
  intro s t ⟨hte, hbd⟩ h
  obtain ⟨hwf, -⟩ := step_next_cases h
  obtain ⟨hcfg, -⟩ := step_keeps h
  unfold State.Sized
  rw [hcfg]
  exact ⟨(step_teChange h).sized hwf hte, (step_bdChange h).sized hwf hbd⟩

/-- Settles O49, one request at a time. -/
theorem stepKeepsGeneratorArmed : Obligations.StepKeepsGeneratorArmed := by
  intro s t hs h
  have hte := step_teChange h
  exact ⟨hte.armed_of_running hs, hte.armed_of_tickPend hs, hte.armed_of_faultPend hs⟩

/-- Settles O50: a completion frees an entry, so a reservation keeps its slot, and a commit fills the
reserved slot, so the frame in flight is live. -/
theorem stepKeepsSendQueueOk : Obligations.StepKeepsSendQueueOk := by
  intro s t hs h
  obtain ⟨hwf, -⟩ := step_next_cases h
  obtain ⟨hcfg, -⟩ := step_keeps h
  exact (step_bdChange h).sendQueueOk hcfg hwf hs

/-- Settles O52: only a drain's delivery opens a delivery and only `bd.ack` ends one, and both write the
port. -/
theorem stepKeepsPortOk : Obligations.StepKeepsPortOk := by
  intro s t hs h
  rcases step_control_cases h with ⟨hstack, -, hbd⟩ | ⟨v, -, -, -, hstack, -, hbd⟩ |
    ⟨-, v, pos, below, hisr, hstack, -, hbd⟩ | ⟨-, -, p, -, hstack, -, hbd⟩ |
    ⟨i, u, -, hstack, -, -, hbd, hexec⟩
  · exact portOk_of_samePort hs (samePort_of_eq hbd) (by rw [hstack])
  · exact portOk_of_samePort hs (samePort_of_eq hbd) (by rw [hstack]; rfl)
  · exact portOk_of_samePort (isrStep_keeps_portOk hs hisr) (samePort_of_eq hbd) (by rw [hstack])
  · exact portOk_of_samePort hs (samePort_of_eq hbd) (by rw [hstack, innermostDelivery_setProgress])
  · have hu : u.PortOk := portOk_of_samePort hs (samePort_of_eq hbd) (by rw [hstack])
    exact exec_keeps_portOk hu hexec

/-- Settles O53. -/
theorem runningHaltsOnlyByFaultInterrupt : Obligations.RunningHaltsOnlyByFaultInterrupt := by
  intro s t h
  have hte := step_teChange h
  exact ⟨hte.fault_of_running_cleared, hte.start_of_running_set⟩

/-- Settles O54. -/
theorem goWrittenOnlyByStartAndFault : Obligations.GoWrittenOnlyByStartAndFault := by
  intro s t h
  have hte := step_teChange h
  exact ⟨hte.release_of_go_set, hte.fault_of_go_cleared⟩

/-- Settles O55, one list of the table at a time. -/
theorem tableWrittenOnlyByItsCommands : Obligations.TableWrittenOnlyByItsCommands := by
  intro s t h
  obtain ⟨hwf, -⟩ := step_next_cases h
  have hte := step_teChange h
  refine ⟨hte.teWr_of_msg_ne, hte.teSpeed_of_spd_ne, hte.teOneshot_of_os_ne,
    fun j hoff hon => ?_, fun j hon hoff => ?_⟩
  · rcases hte.en_cases hwf j with hsame | ⟨-, hen⟩ | ⟨hclr, -⟩
    · exact nomatch hon.symm.trans (hsame.trans hoff)
    · exact hen
    · exact nomatch hon.symm.trans hclr
  · rcases hte.en_cases hwf j with hsame | ⟨hset, -⟩ | ⟨-, hclears⟩
    · exact nomatch hoff.symm.trans (hsame.trans hon)
    · exact nomatch hoff.symm.trans hset
    · exact hclears

/-- Settles O56: every case of a step but the start and the running tick keeps all seven registers. -/
theorem cursorMovedOnlyByStartAndTick : Obligations.CursorMovedOnlyByStartAndTick := by
  intro s t h hmoved
  have hte := step_teChange h
  generalize t.te = e at hmoved hte
  cases hte with
  | start hi hstop => exact .inl ⟨hstop, hi⟩
  | tick below hs =>
    cases hrun : s.te.running with
    | true => exact .inr ⟨rfl, below, hs⟩
    | false => simp [tick_of_stopped hrun] at hmoved
  | _ => simp at hmoved

/-- Settles O57, from what an interrupt entry, an interrupt context's step and a command do to IE. -/
theorem ieWrittenOnlyByItsWriters : Obligations.IeWrittenOnlyByItsWriters := by
  intro s t h hne
  rcases step_control_cases h with ⟨-, hie, -⟩ | ⟨v, rest, hmoves, -, -, hie, -⟩ |
    ⟨hcore, v, pos, below, hisr, hstack, hie, -⟩ | ⟨-, -, -, -, -, hie, -⟩ |
    ⟨i, u, hi, -, hie, -, -, hexec⟩
  · exact absurd hie hne
  · exact .inl ⟨hie, v, rest, hmoves⟩
  · refine .inr (.inl ⟨hcore, v, pos, below, hisr, ?_⟩)
    rw [hie, hstack]
    exact (isrStep_ie hisr).resolve_left (hie ▸ hne)
  · exact absurd hie hne
  · exact .inr (.inr ⟨i, hi, (exec_ie hexec).resolve_left (hie ▸ hne)⟩)

/-- Settles O58. -/
theorem stickyStateStays : Obligations.StickyStateStays := by
  intro s t h
  obtain ⟨hcfg, hmfault, htrace⟩ := step_keeps h
  exact ⟨hmfault, (step_teChange h).timerArmed, (step_bdChange h).intAttached, htrace, hcfg⟩

end Sys2Proof.Machine
end

section
/-! PROOFS. Record pointers (20_memory.md R36): what the field commands answer for a pointer outside the
queue and for a code that names no field of the record. -/

namespace Sys2Proof.Machine

/-! ## The refusals of the field commands -/

section
variable {s : State} {p f : Byte}

/-- The pointer is checked before the field code: `f` is any code (60_exceptions.md R118). -/
theorem execBdFw_badIdx (hp : s.cfg.mQueue ≤ p.toNat) :
    execBdFw p f s = .next (s.ret .badIdx 0#32) :=
  if_pos hp

theorem execBdFr_badIdx (hp : s.cfg.mQueue ≤ p.toNat) :
    execBdFr p f s = .next (s.ret .badIdx 0#32) :=
  if_pos hp

theorem execBdFw_badFld (hp : p.toNat < s.cfg.mQueue) (hf : heldField s.cfg f = none) :
    execBdFw p f s = .next (s.ret .badFld 0#32) := by
  rw [execBdFw, if_neg (Nat.not_le.mpr hp), hf]

theorem execBdFr_badFld (hp : p.toNat < s.cfg.mQueue) (hf : heldField s.cfg f = none) :
    execBdFr p f s = .next (s.ret .badFld 0#32) := by
  rw [execBdFr, if_neg (Nat.not_le.mpr hp), hf]

end

/-! ## The statement -/

/-- Settles O34: the pointer decides first, and a code outside the table of masks names no field the record
holds. -/
theorem badPointerOrFieldRefused : Obligations.BadPointerOrFieldRefused := by
  intro s p f
  refine ⟨fun hp => ⟨execBdFw_badIdx hp, execBdFr_badIdx hp⟩, fun hp hcode => ?_⟩
  have hf : heldField s.cfg f = none := heldField_not_mem hcode
  exact ⟨execBdFw_badFld hp hf, execBdFr_badFld hp hf⟩

end Sys2Proof.Machine
end

section
/-! PROOFS. Encoding (30_encoding.md): the operands a command word holds, the bits its format marks 0, and the
decoder said once in these terms. -/

namespace Sys2Proof

/-! ## The bits a format marks 0 -/

/-- The lowest bit a format marks 0 (30_encoding.md R57). -/
def Format.zeroStart : Format → Nat
  | .n | .k | .ka | .ab | .kf => 0
  | .kv => 1
  | .h => 2

/-- How many bits, from the lowest on, a format marks 0 (30_encoding.md R57). -/
def Format.zeroLength : Format → Nat
  | .n | .ab => 24
  | .k | .ka => 16
  | .kv => 15
  | .kf => 8
  | .h => 22

theorem Format.getLsbD_zeroMask (f : Format) (i : Nat) (hi : i < 32) :
    f.zeroMask.getLsbD i = decide (f.zeroStart ≤ i ∧ i < f.zeroStart + f.zeroLength) := by
  cases f <;> revert i <;> decide

theorem Format.zeroStart_add_zeroLength_le (f : Format) : f.zeroStart + f.zeroLength ≤ 24 := by
  cases f <;> decide

/-- The format check reads one field of the word (30_encoding.md R57). -/
theorem and_zeroMask_eq_zero_iff (w : Word) (f : Format) :
    w &&& f.zeroMask = 0#32 ↔ w.extractLsb' f.zeroStart f.zeroLength = 0#f.zeroLength := by
  have hle := f.zeroStart_add_zeroLength_le
  constructor
  · intro h
    apply BitVec.eq_of_getLsbD_eq
    intro i hi
    have hbit : (w &&& f.zeroMask).getLsbD (f.zeroStart + i) = false := by rw [h]; simp
    rw [BitVec.getLsbD_and, f.getLsbD_zeroMask _ (by omega)] at hbit
    rw [BitVec.getLsbD_extractLsb']
    simpa [hi] using hbit
  · intro h
    apply BitVec.eq_of_getLsbD_eq
    intro i hi
    rw [BitVec.getLsbD_and, f.getLsbD_zeroMask i hi, BitVec.getLsbD_zero]
    by_cases hin : f.zeroStart ≤ i ∧ i < f.zeroStart + f.zeroLength
    · have hbit : (w.extractLsb' f.zeroStart f.zeroLength).getLsbD (i - f.zeroStart) = false := by
        rw [h]; simp
      rw [BitVec.getLsbD_extractLsb', show f.zeroStart + (i - f.zeroStart) = i by omega] at hbit
      simpa [hin, show i - f.zeroStart < f.zeroLength by omega] using hbit
    · simp [hin]

theorem checkFormat_of_and_eq_zero {w : Word} {i : Instr} (h : w &&& i.format.zeroMask = 0#32) :
    checkFormat w i = .ok i :=
  if_pos h

theorem checkFormat_eq_error_iff {w : Word} {i : Instr} :
    (∃ e, checkFormat w i = .error e) ↔ w &&& i.format.zeroMask ≠ 0#32 := by
  by_cases h : w &&& i.format.zeroMask = 0#32
  · simp [checkFormat_of_and_eq_zero h, h]
  · exact ⟨fun _ => h, fun _ => ⟨_, if_neg h⟩⟩

/-! ## Operands -/

/-- The word holds the operands of `i` where 30_encoding.md R58 places them. -/
def HoldsOperands (w : Word) : Instr → Prop
  | .teWr k | .teRd k | .teEn k | .teDis k | .bdCommit k => idxField w = k
  | .teSpeed k v | .teOneshot k v => idxField w = k ∧ w.getLsbD 0 = v
  | .bdStart hm he => w.getLsbD 0 = hm ∧ w.getLsbD 1 = he
  | .bdFw p f | .bdFr p f => idxField w = p ∧ fldField w = f
  | .teStart | .bdFiltStd | .bdFiltExt | .bdFiltClr | .bdPrep | .bdAck | .ieSet | .ieClr => True

theorem immBits_getLsbD_zero (b0 b1 : Bool) : (immBits b0 b1).getLsbD 0 = b0 := by
  cases b0 <;> cases b1 <;> rfl

theorem immBits_getLsbD_one (b0 b1 : Bool) : (immBits b0 b1).getLsbD 1 = b1 := by
  cases b0 <;> cases b1 <;> rfl

/-- The low bits of an assembled word are IMM's (30_encoding.md R56). -/
theorem commandWord_getLsbD_imm (op idx fld imm : Byte) {i : Nat} (h : i < 8) :
    (commandWord op idx fld imm).getLsbD i = imm.getLsbD i := by
  rw [commandWord_getLsbD, if_pos h]

theorem encode_holdsOperands (i : Instr) : HoldsOperands (encode i) i := by
  cases i with
  | teWr k | teRd k | teEn k | teDis k | bdCommit k => exact idxField_commandWord ..
  | teSpeed k v | teOneshot k v =>
    exact ⟨idxField_commandWord ..,
      (commandWord_getLsbD_imm _ _ _ _ (by decide)).trans (immBits_getLsbD_zero v false)⟩
  | bdStart hm he =>
    exact ⟨(commandWord_getLsbD_imm _ _ _ _ (by decide)).trans (immBits_getLsbD_zero hm he),
      (commandWord_getLsbD_imm _ _ _ _ (by decide)).trans (immBits_getLsbD_one hm he)⟩
  | bdFw p f | bdFr p f => exact ⟨idxField_commandWord .., fldField_commandWord ..⟩
  | teStart | bdFiltStd | bdFiltExt | bdFiltClr | bdPrep | bdAck | ieSet | ieClr => trivial

/-- Every command's word keeps its format: the laws of the single commands together. -/
theorem encode_keepsFormat : ∀ i : Instr, Laws.EncodeFormat.Statement i
  | .teStart => Laws.EncodeFormat.teStart
  | .teWr k => Laws.EncodeFormat.teWr k
  | .teRd k => Laws.EncodeFormat.teRd k
  | .teEn k => Laws.EncodeFormat.teEn k
  | .teDis k => Laws.EncodeFormat.teDis k
  | .teSpeed k v => Laws.EncodeFormat.teSpeed k v
  | .teOneshot k v => Laws.EncodeFormat.teOneshot k v
  | .bdStart hm he => Laws.EncodeFormat.bdStart hm he
  | .bdFiltStd => Laws.EncodeFormat.bdFiltStd
  | .bdFiltExt => Laws.EncodeFormat.bdFiltExt
  | .bdFiltClr => Laws.EncodeFormat.bdFiltClr
  | .bdPrep => Laws.EncodeFormat.bdPrep
  | .bdFw p f => Laws.EncodeFormat.bdFw p f
  | .bdFr p f => Laws.EncodeFormat.bdFr p f
  | .bdCommit p => Laws.EncodeFormat.bdCommit p
  | .bdAck => Laws.EncodeFormat.bdAck
  | .ieSet => Laws.EncodeFormat.ieSet
  | .ieClr => Laws.EncodeFormat.ieClr

/-! ## A word from its opcode, its operands and its zero bits -/

/-- A byte that is zero under a mask of all ones. -/
theorem byte_eq_zero_of_and_ones {x m : Byte} (h : x &&& m = 0#8) (hm : m = BitVec.allOnes 8) :
    x = 0#8 := by
  rwa [hm, BitVec.and_allOnes] at h

/-- IMM in format KV holds bit 0 alone (30_encoding.md R57). -/
theorem immBits_of_and_kv : ∀ x : Byte, x &&& 0xFE#8 = 0#8 → x = immBits (x.getLsbD 0) false := by
  decide

/-- IMM in format H holds bits 0 and 1 alone (30_encoding.md R57). -/
theorem immBits_of_and_h :
    ∀ x : Byte, x &&& 0xFC#8 = 0#8 → x = immBits (x.getLsbD 0) (x.getLsbD 1) := by
  decide

section
variable {w : Word}

/-- Formats N and AB: the opcode alone (30_encoding.md R57). -/
theorem commandWord_of_n (h : w &&& Format.n.zeroMask = 0#32) :
    commandWord (opField w) 0#8 0#8 0#8 = w := by
  obtain ⟨hidx, hfld, himm⟩ := fields_of_and_eq_zero h
  have hw := commandWord_fields w
  rwa [byte_eq_zero_of_and_ones hidx rfl, byte_eq_zero_of_and_ones hfld rfl,
    byte_eq_zero_of_and_ones himm rfl] at hw

/-- Formats K and KA: opcode and IDX (30_encoding.md R57). -/
theorem commandWord_of_k (h : w &&& Format.k.zeroMask = 0#32) :
    commandWord (opField w) (idxField w) 0#8 0#8 = w := by
  obtain ⟨-, hfld, himm⟩ := fields_of_and_eq_zero h
  have hw := commandWord_fields w
  rwa [byte_eq_zero_of_and_ones hfld rfl, byte_eq_zero_of_and_ones himm rfl] at hw

/-- Format KV: opcode, IDX and bit 0 (30_encoding.md R57). -/
theorem commandWord_of_kv (h : w &&& Format.kv.zeroMask = 0#32) :
    commandWord (opField w) (idxField w) 0#8 (immBits (w.getLsbD 0) false) = w := by
  obtain ⟨-, hfld, himm⟩ := fields_of_and_eq_zero h
  have hw := commandWord_fields w
  rwa [byte_eq_zero_of_and_ones hfld rfl, immBits_of_and_kv _ himm,
    ← getLsbD_immField w (by decide)] at hw

/-- Format KF: opcode, IDX and FLD (30_encoding.md R57). -/
theorem commandWord_of_kf (h : w &&& Format.kf.zeroMask = 0#32) :
    commandWord (opField w) (idxField w) (fldField w) 0#8 = w := by
  obtain ⟨-, -, himm⟩ := fields_of_and_eq_zero h
  have hw := commandWord_fields w
  rwa [byte_eq_zero_of_and_ones himm rfl] at hw

/-- Format H: opcode and bits 0 and 1 (30_encoding.md R57). -/
theorem commandWord_of_h (h : w &&& Format.h.zeroMask = 0#32) :
    commandWord (opField w) 0#8 0#8 (immBits (w.getLsbD 0) (w.getLsbD 1)) = w := by
  obtain ⟨hidx, hfld, himm⟩ := fields_of_and_eq_zero h
  have hw := commandWord_fields w
  rwa [byte_eq_zero_of_and_ones hidx rfl, byte_eq_zero_of_and_ones hfld rfl, immBits_of_and_h _ himm,
    ← getLsbD_immField w (by decide), ← getLsbD_immField w (by decide)] at hw

/-- Opcode, operands and zero bits leave no bit of a command's word open (30_encoding.md R56 to R59). -/
theorem encode_eq_of_fields {i : Instr} (hop : opField w = Laws.opcode i) (hargs : HoldsOperands w i)
    (hzero : w &&& i.format.zeroMask = 0#32) : encode i = w := by
  cases i with
  | teStart | bdFiltStd | bdFiltExt | bdFiltClr | bdPrep | bdAck | ieSet | ieClr =>
    have hw := commandWord_of_n hzero
    rwa [hop] at hw
  | teWr k | teRd k | teEn k | teDis k | bdCommit k =>
    have hw := commandWord_of_k hzero
    obtain rfl := hargs
    rwa [hop] at hw
  | teSpeed k v | teOneshot k v =>
    have hw := commandWord_of_kv hzero
    obtain ⟨rfl, rfl⟩ := hargs
    rwa [hop] at hw
  | bdStart hm he =>
    have hw := commandWord_of_h hzero
    obtain ⟨rfl, rfl⟩ := hargs
    rwa [hop] at hw
  | bdFw p f | bdFr p f =>
    have hw := commandWord_of_kf hzero
    obtain ⟨rfl, rfl⟩ := hargs
    rwa [hop] at hw

end

/-! ## The decoder -/

/-- The opcodes 30_encoding.md R60 reserves. -/
def ReservedOpcode (op : Nat) : Prop :=
  op = 0x00 ∨ (0x08 ≤ op ∧ op ≤ 0x0F) ∨ (0x19 ≤ op ∧ op ≤ 0x1F) ∨ 0x22 ≤ op

section
variable {w : Word}

/-- A word of a command's opcode that holds the command's operands is decided by the format check. -/
theorem decode_of_opcode {i : Instr} (hop : opField w = Laws.opcode i) (hargs : HoldsOperands w i) :
    decode w = checkFormat w i := by
  rw [decode, hop]
  cases i with
  | teStart | bdFiltStd | bdFiltExt | bdFiltClr | bdPrep | bdAck | ieSet | ieClr => rfl
  | teWr k | teRd k | teEn k | teDis k | bdCommit k =>
    obtain rfl := hargs
    rfl
  | teSpeed k v | teOneshot k v | bdStart hm he | bdFw p f | bdFr p f =>
    obtain ⟨rfl, rfl⟩ := hargs
    rfl

/-- What the decoder does with a word: the format check of a command of the word's opcode and operands, or
the refusal of a reserved opcode. -/
theorem decode_cases (w : Word) :
    (∃ i, opField w = Laws.opcode i ∧ HoldsOperands w i ∧ decode w = checkFormat w i) ∨
    (ReservedOpcode (opField w).toNat ∧ decode w = .error (.reservedOpcode (opField w))) := by
  unfold decode
  split
  case h_19 =>
    refine .inr ⟨?_, rfl⟩
    unfold ReservedOpcode
    simp only [imp_false] at *
    omega
  all_goals
    rename_i hop
    refine .inl ⟨_, ?_, ?_, rfl⟩
    · exact BitVec.eq_of_toNat_eq hop
    · simp [HoldsOperands]

/-- A word decodes to a command exactly when it has its opcode, its operands and its format's zero bits. -/
theorem decode_eq_ok_iff {i : Instr} :
    decode w = .ok i ↔
      opField w = Laws.opcode i ∧ HoldsOperands w i ∧ w &&& i.format.zeroMask = 0#32 := by
  constructor
  · intro h
    rcases decode_cases w with ⟨j, hop, hargs, hd⟩ | ⟨-, hd⟩
    · obtain ⟨rfl, hzero⟩ := checkFormat_eq_ok (hd ▸ h)
      exact ⟨hop, hargs, hzero⟩
    · rw [hd] at h
      cases h
  · rintro ⟨hop, hargs, hzero⟩
    rw [decode_of_opcode hop hargs, checkFormat_of_and_eq_zero hzero]

/-- Among the words of a command's opcode the format decides which are illegal (30_encoding.md R60). -/
theorem illegalWord_iff_of_opcode {i : Instr} (hop : opField w = Laws.opcode i) :
    Machine.IllegalWord w ↔ w &&& i.format.zeroMask ≠ 0#32 := by
  rw [Ne, and_zeroMask_eq_zero_iff, Machine.IllegalWord, ← opField, hop]
  cases i <;> simp [Machine.IllegalFields, Laws.opcode, Instr.format, Format.zeroStart, Format.zeroLength]

theorem illegalWord_of_reserved (h : ReservedOpcode (opField w).toNat) : Machine.IllegalWord w :=
  .inl h

/-- The decoder refuses exactly the illegal words (30_encoding.md R60). -/
theorem decode_eq_error_iff : (∃ e, decode w = .error e) ↔ Machine.IllegalWord w := by
  rcases decode_cases w with ⟨i, hop, -, hd⟩ | ⟨hres, hd⟩
  · rw [hd, checkFormat_eq_error_iff, illegalWord_iff_of_opcode hop]
  · exact ⟨fun _ => illegalWord_of_reserved hres, fun _ => ⟨_, hd⟩⟩

/-- Issuing a refused word writes STATUS and R beside W (30_encoding.md R60). -/
theorem issue_of_decode_error {e : DecodeError} (h : decode w = .error e) (s : Machine.State) :
    Machine.issue w s = .next { s with w := w, status := 0x01#8, r := 0#32 } := by
  rw [Machine.issue, h]
  rfl

end

/-! ## The statements -/

/-- Settles O1: a command's word has its opcode, its operands and its format's zero bits. -/
theorem decodeInvertsEncode : Obligations.DecodeInvertsEncode := by
  intro i
  obtain ⟨hop, hzero⟩ := encode_keepsFormat i
  exact decode_eq_ok_iff.mpr ⟨hop, encode_holdsOperands i, hzero⟩

/-- Settles O2. -/
theorem encodeInvertsDecode : Obligations.EncodeInvertsDecode := by
  intro w i h
  obtain ⟨hop, hargs, hzero⟩ := decode_eq_ok_iff.mp h
  exact encode_eq_of_fields hop hargs hzero

/-- Settles O3, by the words the decoder refuses and the one move that issues such a word. -/
theorem illegalWordChangesOnlyStatus : Obligations.IllegalWordChangesOnlyStatus := by
  intro s w rest hwf ha hm
  refine ⟨decode_eq_error_iff, fun hill => ?_⟩
  obtain ⟨e, he⟩ := decode_eq_error_iff.mpr hill
  rw [Machine.step_of_awaiting hwf ha hm]
  exact issue_of_decode_error he _

/-- Settles O4: eight fixed words, each evaluated by the decoder. -/
theorem sampleWordsDecode : Obligations.SampleWordsDecode := by
  unfold Obligations.SampleWordsDecode
  decide

end Sys2Proof
end

section
/-! PROOFS. The message word (30_encoding.md R62 to R67): a byte as four trits, the address code digit by
digit, and the three fields of a word. -/

namespace Sys2Proof.Machine

/-! ## A byte of four trits -/

/-- The j-th of four 2-bit groups stands at bits 2j+1:2j (30_encoding.md R64, R65). -/
theorem extractLsb'_fourGroups (g : Fin 4 → BitVec 2) (j : Fin 4) :
    (g 3 ++ g 2 ++ g 1 ++ g 0).extractLsb' (2 * j) 2 = g j :=
  match j with
  | 0 => BitVec.extractLsb'_append_eq_right
  | 1 => (BitVec.extractLsb'_append_eq_of_le (by decide)).trans BitVec.extractLsb'_append_eq_right
  | 2 => (BitVec.extractLsb'_append_eq_of_le (by decide)).trans
      ((BitVec.extractLsb'_append_eq_of_le (by decide)).trans BitVec.extractLsb'_append_eq_right)
  | 3 => (BitVec.extractLsb'_append_eq_of_le (by decide)).trans
      ((BitVec.extractLsb'_append_eq_of_le (by decide)).trans BitVec.extractLsb'_append_eq_left)

theorem addressCode_group (v : Nat) {j : Nat} (hj : j < 4) :
    (addressCode v).extractLsb' (2 * j) 2 = trit (v / 3 ^ j % 3) := by
  have h := extractLsb'_fourGroups (fun j => trit (v / 3 ^ (j : Nat) % 3)) ⟨j, hj⟩
  simpa [addressCode] using h

theorem nibbleField_group (n : BitVec 4) {j : Nat} (hj : j < 4) :
    (nibbleField n).extractLsb' (2 * j) 2 = doubled (n.getLsbD j) :=
  extractLsb'_fourGroups (fun j => doubled (n.getLsbD j)) ⟨j, hj⟩

/-- The symbol 10 has its high bit set and its low bit not (30_encoding.md R63). -/
theorem group_ne_ten_iff :
    ∀ x : BitVec 2, (x.getLsbD 1 && !x.getLsbD 0) = false ↔ x ≠ 0b10#2 := by
  decide

theorem hasTritTen_eq_false_iff (v : Byte) (j : Nat) :
    hasTritTen v j = false ↔ v.extractLsb' (2 * j) 2 ≠ 0b10#2 := by
  rw [← group_ne_ten_iff, BitVec.getLsbD_extractLsb', BitVec.getLsbD_extractLsb']
  rfl

theorem tritsOk_of_groups {v : Byte} (h : ∀ j < 4, v.extractLsb' (2 * j) 2 ≠ 0b10#2) :
    tritsOk v = true := by
  have hgroup (j : Nat) (hj : j < 4) : hasTritTen v j = false :=
    (hasTritTen_eq_false_iff v j).mpr (h j hj)
  simp [tritsOk, hgroup]

/-! ## The symbols -/

theorem trit_ne_ten (d : Nat) : trit d ≠ 0b10#2 := by
  unfold trit
  split <;> decide

/-- The three digits have three symbols (30_encoding.md R64). -/
theorem trit_injOn : ∀ d < 3, ∀ e < 3, trit d = trit e → d = e := by decide

/-- Four base-3 digits determine a number up to 80. -/
theorem eq_of_digits {a b : Nat} (ha : a < 3 ^ 4) (hb : b < 3 ^ 4)
    (h : ∀ j < 4, a / 3 ^ j % 3 = b / 3 ^ j % 3) : a = b := by
  have h0 := h 0 (by decide)
  have h1 := h 1 (by decide)
  have h2 := h 2 (by decide)
  have h3 := h 3 (by decide)
  norm_num at ha hb h0 h1 h2 h3
  omega

/-! ## The address field -/

section
variable {c : Config} {a : Int}

theorem addressField_of_le (h0 : 0 ≤ a) (h79 : a ≤ 79) : addressField c a = addressCode a.toNat := by
  rw [addressField, if_neg (by omega), if_pos ⟨h0, h79⟩]

theorem addressField_natCast {n : Nat} (h : n ≤ 79) : addressField c n = addressCode n :=
  addressField_of_le (by omega) (by omega)

theorem addressField_eighty : addressField c 80 = addressField c 0 := rfl

theorem addressField_of_out (h : a < 0 ∨ 80 < a) : addressField c a = c.addrInvalidCode := by
  rw [addressField, if_neg (by omega), if_neg (by omega)]

end

/-- No address code holds the symbol 10 (30_encoding.md R63). -/
theorem tritsOk_addressCode (v : Nat) : tritsOk (addressCode v) = true := by
  refine tritsOk_of_groups fun j hj => ?_
  rw [addressCode_group v hj]
  exact trit_ne_ten _

theorem wf_addr {c : Config} (h : c.wf = true) : tritsOk c.addrInvalidCode = true := by
  simp only [Config.wf, Config.addrOk, Bool.and_eq_true] at h
  obtain ⟨⟨-, haddr⟩, -⟩ := h
  exact haddr

theorem tritsOk_addressField {c : Config} (h : c.wf = true) (a : Int) :
    tritsOk (addressField c a) = true := by
  unfold addressField
  split
  · exact tritsOk_addressCode 0
  split
  · exact tritsOk_addressCode a.toNat
  · exact wf_addr h

/-- The code of 0..79 can be read back digit by digit (30_encoding.md R64). -/
theorem addressCode_injOn {a b : Nat} (ha : a ≤ 79) (hb : b ≤ 79)
    (h : addressCode a = addressCode b) : a = b := by
  refine eq_of_digits (by omega) (by omega) fun j hj => ?_
  refine trit_injOn _ (Nat.mod_lt _ (by decide)) _ (Nat.mod_lt _ (by decide)) ?_
  rw [← addressCode_group a hj, ← addressCode_group b hj, h]

/-! ## The fields of a message word -/

/-- A message word from its data, function and address fields (30_encoding.md R62). -/
def messageWord (data : Byte) (fn : BitVec 2) (addr : Byte) : Word :=
  (data ++ fn ++ addr).setWidth 32

theorem trainWord_eq_messageWord (c : Config) (a : Int) (v : Nat) (f : Bool) :
    trainWord c a v f = messageWord (speedField v) (doubled f) (addressField c a) := rfl

theorem switchWord_eq_messageWord (c : Config) (a : Int) (u : BitVec 3) (t : Bool) :
    switchWord c a u t =
      messageWord (nibbleField (BitVec.ofBool t ++ u)) 0b00#2 (addressField c a) := rfl

section
variable (data : Byte) (fn : BitVec 2) (addr : Byte)

theorem messageWord_address : (messageWord data fn addr).extractLsb' 0 8 = addr := by
  rw [messageWord, BitVec.extractLsb'_setWidth_of_le (by decide), BitVec.extractLsb'_append_eq_right]

theorem messageWord_function : (messageWord data fn addr).extractLsb' 8 2 = fn := by
  rw [messageWord, BitVec.extractLsb'_setWidth_of_le (by decide),
    BitVec.extractLsb'_append_eq_of_le (by decide), BitVec.extractLsb'_append_eq_right]

/-- The 2-bit group of data trit i (30_encoding.md R65). -/
theorem messageWord_group {i : Nat} (hi : i < 4) :
    (messageWord data fn addr).extractLsb' (10 + 2 * i) 2 = data.extractLsb' (2 * i) 2 := by
  rw [messageWord, BitVec.extractLsb'_setWidth_of_le (by omega),
    BitVec.extractLsb'_append_eq_of_le (by omega), BitVec.extractLsb'_append_eq_of_le (by omega),
    show 10 + 2 * i - 8 - 2 = 2 * i by omega]

theorem messageWord_high : (messageWord data fn addr).extractLsb' 18 14 = 0#14 := by
  rw [messageWord, BitVec.setWidth_eq_append (by decide), BitVec.extractLsb'_cast]
  exact BitVec.extractLsb'_append_eq_left

theorem messageWord_nibble (n : BitVec 4) {i : Nat} (hi : i < 4) :
    (messageWord (nibbleField n) fn addr).extractLsb' (10 + 2 * i) 2 = doubled (n.getLsbD i) := by
  rw [messageWord_group _ _ _ hi, nibbleField_group n hi]

end

/-- The nibble of a switch command: the sub-address below the state (30_encoding.md R67). -/
theorem switchNibble_getLsbD_sub (t : Bool) (u : BitVec 3) {i : Nat} (hi : i < 3) :
    (BitVec.ofBool t ++ u).getLsbD i = u.getLsbD i := by
  rw [BitVec.getLsbD_append, if_pos hi]

theorem switchNibble_getLsbD_state (t : Bool) (u : BitVec 3) :
    (BitVec.ofBool t ++ u).getLsbD 3 = t := by
  rw [BitVec.getLsbD_append, if_neg (by decide), BitVec.getLsbD_ofBool]
  rfl

theorem speedNibble_getLsbD (v : Nat) {i : Nat} (hi : i < 4) :
    (BitVec.ofNat 4 (min v 15)).getLsbD i = (min v 15).testBit i := by
  rw [BitVec.getLsbD_ofNat, decide_eq_true hi, Bool.true_and]

/-! ## The statements -/

/-- Settles O59, from the digits of the code: each is a trit, and together they determine the address. -/
theorem addressCodeProperties : Obligations.AddressCodeProperties := by
  intro c hwf
  refine ⟨fun a j ha hj => ?_, tritsOk_addressField hwf, fun a b ha ha' hb hb' h => ?_,
    addressField_eighty, fun a => addressField_of_out⟩
  · rw [addressField_natCast ha, addressCode_group a hj]
    exact ⟨fun hd => by rw [hd]; rfl, fun hd => by rw [hd]; rfl, fun hd => by rw [hd]; rfl⟩
  · rw [addressField_of_le ha ha', addressField_of_le hb hb'] at h
    have hnat := addressCode_injOn (by omega) (by omega) h
    omega

/-- Settles O60: both words are message words, and the data field of each is a doubled nibble. -/
theorem messageWordFields : Obligations.MessageWordFields := by
  intro c a v f t u
  rw [trainWord_eq_messageWord, switchWord_eq_messageWord, speedField]
  refine ⟨messageWord_address .., messageWord_high .., messageWord_function .., fun i hi => ?_,
    messageWord_address .., messageWord_function .., messageWord_high .., fun i hi => ?_, ?_⟩
  · rw [messageWord_nibble _ _ _ hi, speedNibble_getLsbD v hi, doubled]
  · rw [messageWord_nibble _ _ _ (by omega), switchNibble_getLsbD_sub t u hi, doubled]
  · rw [messageWord_nibble _ _ _ (i := 3) (by decide), switchNibble_getLsbD_state, doubled]

end Sys2Proof.Machine
end

section
/-! PROOFS. The Timing Engine commands (40_te_commands.md): the words of the slot commands, the meaning of each as
one equation over the slot its index resolves to, and the two steps of `te.start`. -/

namespace Sys2Proof

/-! ## The words of the slot commands -/

/-- The four fields of a word written as opcode, IDX and its low half (30_encoding.md R56). -/
theorem commandWord_halfBytes (op k : Byte) (x : BitVec 16) :
    commandWord op k (x.extractLsb' 8 8) (x.extractLsb' 0 8) = op ++ k ++ x := by
  have hop : opField (op ++ k ++ x) = op :=
    (BitVec.extractLsb'_append_eq_of_le (by decide)).trans BitVec.extractLsb'_append_eq_left
  have hidx : idxField (op ++ k ++ x) = k :=
    (BitVec.extractLsb'_append_eq_of_le (by decide)).trans BitVec.extractLsb'_append_eq_right
  have hfld : fldField (op ++ k ++ x) = x.extractLsb' 8 8 :=
    BitVec.extractLsb'_append_eq_of_add_le (by decide)
  have himm : immField (op ++ k ++ x) = x.extractLsb' 0 8 :=
    BitVec.extractLsb'_append_eq_of_add_le (by decide)
  have hw := commandWord_fields (op ++ k ++ x)
  rwa [hop, hidx, hfld, himm] at hw

/-- Formats K and KA (30_encoding.md R57). -/
theorem append_zero_eq_commandWord (op k : Byte) : op ++ k ++ 0#16 = commandWord op k 0#8 0#8 :=
  (commandWord_halfBytes op k 0#16).symm

/-- Format KV (30_encoding.md R57). -/
theorem append_ofBool_eq_commandWord (op k : Byte) (v : Bool) :
    op ++ k ++ 0#15 ++ BitVec.ofBool v = commandWord op k 0#8 (immBits v false) := by
  rw [BitVec.append_assoc, BitVec.cast_eq, ← commandWord_halfBytes]
  cases v <;> rfl

end Sys2Proof

namespace Sys2Proof.Machine

/-! ## A list of the message table written at a resolved slot -/

/-- The list with `x` as the entry of the slot; NONE writes nothing (40_te_commands.md R75). -/
def writeSlot {α : Type} (l : List α) (x : α) : Option Nat → List α
  | some j => l.set j x
  | none => l

section
variable {α : Type} (l : List α) (x : α)

@[simp] theorem writeSlot_some (j : Nat) : writeSlot l x (some j) = l.set j x := rfl

@[simp] theorem writeSlot_none : writeSlot l x none = l := rfl

theorem length_writeSlot (slot : Option Nat) : (writeSlot l x slot).length = l.length := by
  cases slot with
  | some j => exact List.length_set
  | none => rfl

theorem getD_writeSlot (slot : Option Nat) {n : Nat} (h : n < l.length) (d : α) :
    (writeSlot l x slot).getD n d = if slot = some n then x else l.getD n d := by
  cases slot with
  | some j =>
    by_cases hj : j = n
    · subst hj
      simp [h]
    · simp [hj]
  | none => rfl

end

/-! ## The meaning of each slot command -/

section
variable (k : Byte) (v : Bool) (s : State)

theorem exec_teWr : exec (.teWr k) s = .next { s with
    te.msg := writeSlot s.te.msg s.a (resolve s.cfg k), status := 0x00#8, r := 0#32 } := by
  rw [exec, execTeWr, onSlot_eq]
  cases resolve s.cfg k <;> rfl

theorem exec_teRd : exec (.teRd k) s = .next { s with
    status := 0x00#8, r := ((resolve s.cfg k).map (s.te.msg.getD · 0#32)).getD 0#32 } := by
  rw [exec, execTeRd, onSlot_eq]
  cases resolve s.cfg k <;> rfl

theorem exec_teEn : exec (.teEn k) s = .next { s with
    te.en := writeSlot s.te.en true (resolve s.cfg k), status := 0x00#8, r := 0#32 } := by
  rw [exec, execTeEn, onSlot_eq]
  cases resolve s.cfg k <;> rfl

theorem exec_teDis : exec (.teDis k) s = .next { s with
    te.en := writeSlot s.te.en false (resolve s.cfg k), status := 0x00#8, r := 0#32 } := by
  rw [exec, execTeDis, onSlot_eq]
  cases resolve s.cfg k <;> rfl

theorem exec_teSpeed : exec (.teSpeed k v) s = .next { s with
    te.spd := writeSlot s.te.spd v (resolve s.cfg k), status := 0x00#8, r := 0#32 } := by
  rw [exec, execTeSpeed, onSlot_eq]
  cases resolve s.cfg k <;> rfl

theorem exec_teOneshot : exec (.teOneshot k v) s = .next { s with
    te.os := writeSlot s.te.os v (resolve s.cfg k), status := 0x00#8, r := 0#32 } := by
  rw [exec, execTeOneshot, onSlot_eq]
  cases resolve s.cfg k <;> rfl

end

/-- A slot command writes the table, STATUS and R, and nothing else (40_te_commands.md R76). -/
theorem exec_slotCommand_frame {i : Instr} (hi : isSlotCommand i = true) (s : State) :
    ∃ msg en spd os x, exec i s = .next { s with
      te := { s.te with msg := msg, en := en, spd := spd, os := os }, status := 0x00#8, r := x } := by
  cases i with
  | teWr k => exact ⟨_, _, _, _, _, exec_teWr k s⟩
  | teRd k => exact ⟨_, _, _, _, _, exec_teRd k s⟩
  | teEn k => exact ⟨_, _, _, _, _, exec_teEn k s⟩
  | teDis k => exact ⟨_, _, _, _, _, exec_teDis k s⟩
  | teSpeed k v => exact ⟨_, _, _, _, _, exec_teSpeed k v s⟩
  | teOneshot k v => exact ⟨_, _, _, _, _, exec_teOneshot k v s⟩
  | _ => cases hi

/-- Under CLAMP an index at or above N_SLOTS resolves as the index N_SLOTS - 1 does (40_te_commands.md R75). -/
theorem resolve_eq_resolve_last {c : Config} {k : Byte} (hwf : c.wf = true) (h : c.nSlots ≤ k.toNat)
    (hp : c.slotOorPolicy = .clamp) : resolve c k = resolve c (BitVec.ofNat 8 (c.nSlots - 1)) := by
  have hn := wf_slots hwf
  have hlast : (BitVec.ofNat 8 (c.nSlots - 1)).toNat = c.nSlots - 1 := by
    rw [BitVec.toNat_ofNat]
    omega
  rw [resolve_of_ge_clamp h hp, resolve_of_lt (by omega), hlast]

/-! ## The two steps of `te.start` -/

theorem exec_teStart_of_running {s : State} (h : s.te.running = true) :
    exec .teStart s = .next { s with
      mfault := s.mfault.insert .teRestartRunning, status := 0x00#8, r := 0#32 } :=
  if_pos h

/-- The state after step 1 of a `te.start` that finds the engine stopped, its context apart
(40_te_commands.md R77). -/
def State.engineStarted (s : State) : State :=
  { s with te := s.te.start s.cfg s.env.faultPin, ie := true }

theorem exec_teStart_of_stopped {s : State} (h : s.te.running = false) :
    exec .teStart s = .next (s.engineStarted.setProgress [.releaseGo]) := by
  simp [exec, execTeStart, State.engineStarted, h]

/-- Step 1 stores the period and the mark of symbol 0 whole: in a well-formed configuration the generator's
registers hold both (40_te_commands.md R77, 41_te_sequencer.md R87 (e)). -/
theorem start_eq_of_wf {c : Config} (hwf : c.wf = true) (level : Bool) (e : TimingEngine) :
    e.start c level =
      let l := TimingEngine.load c { e with curSlot := BitVec.ofNat 8 (c.nSlots - 1) }
      { l with
        curBit := 0#9
        curHalf := false
        wgPeriod := c.unitTicks * (if l.curSpd then 2 else 1)
        wgDuty := (if l.curMsg.getLsbD 0 then c.longMarkTicks else c.shortMarkTicks)
          * (if l.curSpd then 2 else 1)
        tickPend := false
        faultPend := false
        faultPrev := level
        timerArmed := true
        running := true } := by
  rw [TimingEngine.start, wgStore_scaled hwf le_rfl, wgStore_scaled hwf (markOf_le hwf _ _)]
  rfl

theorem awaiting_iff {s : State} : s.awaiting = true ↔ s.progress = some [] := beq_iff_eq

/-- What a context has left to do is kept in the foreground's progress and on the stack. -/
theorem setProgress_frame (s : State) (p : Progress) :
    s.setProgress p = { s with fg := (s.setProgress p).fg, stack := (s.setProgress p).stack } := by
  apply State.ext <;> simp

/-- Step 2 releases GO, answers (OK, 0) and leaves its context waiting as before the command
(40_te_commands.md R77). -/
theorem coreStep_releaseGo {s : State} (h : s.awaiting = true) :
    (s.setProgress [.releaseGo]).coreStep = { s with
      te.go := true, trace := .go true :: s.trace, status := 0x00#8, r := 0#32 } := by
  rw [coreStep_setProgress (awaiting_iff.mp h), State.runMicro, goOn_nil]
  rcases awaiting_stack h with ⟨hstack, hfg⟩ | ⟨rec, below, hstack⟩
  · simp [State.setProgress, State.ret, State.emitTrace, StatusCode.code, hstack, hfg]
  · simp [State.setProgress, State.ret, State.emitTrace, StatusCode.code, hstack]

/-! ## The statements -/

/-- Settles O11: the start leaves its second step to the context that issued it, and that step is the
context's next. -/
theorem teStartTwoSteps : Obligations.TeStartTwoSteps := by
  refine ⟨decodeInvertsEncode .teStart, fun s hwf ha => ⟨fun hstop => ?_, fun hrun => ?_⟩⟩
  · have hwait : s.engineStarted.awaiting = true := ha
    have hstarted := setProgress_frame s.engineStarted [.releaseGo]
    refine ⟨_, exec_teStart_of_stopped hstop, setProgress_progress (awaiting_iff.mp hwait) _, ?_, ?_, ?_⟩
    · rw [hstarted]
      rfl
    · rw [State.setProgress_te]
      exact start_eq_of_wf hwf s.env.faultPin s.te
    · rw [coreStep_releaseGo hwait, hstarted]
      rfl
  · exact ⟨_, exec_teStart_of_running hrun, List.mem_insert_self, fun _ => List.mem_insert_of_mem, rfl⟩

/-- Settles O12. -/
theorem teWrStoresWord : Obligations.TeWrStoresWord := by
  intro s k _ ⟨⟨hmsg, _⟩, _⟩
  rw [append_zero_eq_commandWord]
  exact ⟨decodeInvertsEncode (.teWr k), _, exec_teWr k s, length_writeSlot ..,
    fun n hn => getD_writeSlot _ _ _ (hmsg ▸ hn) _, rfl⟩

/-- Settles O13. -/
theorem teRdReturnsWord : Obligations.TeRdReturnsWord := by
  intro s k
  rw [append_zero_eq_commandWord]
  refine ⟨decodeInvertsEncode (.teRd k), fun n hn => ?_, fun hnone => ?_⟩
  · rw [exec_teRd, hn]
    rfl
  · rw [exec_teRd, hnone]
    rfl

/-- Settles O14. -/
theorem teEnTeDisWriteEnableBit : Obligations.TeEnTeDisWriteEnableBit := by
  intro s k _ ⟨⟨_, hen, _⟩, _⟩
  rw [append_zero_eq_commandWord, append_zero_eq_commandWord]
  refine ⟨decodeInvertsEncode (.teEn k), decodeInvertsEncode (.teDis k),
    ⟨_, exec_teEn k s, length_writeSlot .., fun n hn => ?_, rfl⟩,
    ⟨_, exec_teDis k s, length_writeSlot .., fun n hn => ?_, rfl⟩⟩
  · rw [getD_writeSlot _ _ _ (hen ▸ hn)]
    by_cases h : resolve s.cfg k = some n <;> simp [h]
  · rw [getD_writeSlot _ _ _ (hen ▸ hn)]
    by_cases h : resolve s.cfg k = some n <;> simp [h]

/-- Settles O15. -/
theorem teSpeedTeOneshotWriteModeBit : Obligations.TeSpeedTeOneshotWriteModeBit := by
  intro s k v _ ⟨⟨_, _, hspd, hos, _⟩, _⟩
  rw [append_ofBool_eq_commandWord, append_ofBool_eq_commandWord]
  exact ⟨decodeInvertsEncode (.teSpeed k v), decodeInvertsEncode (.teOneshot k v),
    ⟨_, exec_teSpeed k v s, length_writeSlot .., fun n hn => getD_writeSlot _ _ _ (hspd ▸ hn) _, rfl⟩,
    ⟨_, exec_teOneshot k v s, length_writeSlot .., fun n hn => getD_writeSlot _ _ _ (hos ▸ hn) _, rfl⟩⟩

/-- Settles O16: the meaning of a slot command depends on its index through the slot it resolves to alone. -/
theorem outOfRangeSlotPolicy : Obligations.OutOfRangeSlotPolicy := by
  intro s k v hwf
  refine ⟨resolve_of_lt, fun hge => ⟨fun hignore => ?_, fun hclamp => ?_⟩⟩
  · have hnone := resolve_of_ge_ignore hge hignore
    refine ⟨hnone, ?_⟩
    simp [exec_teWr, exec_teRd, exec_teEn, exec_teDis, exec_teSpeed, exec_teOneshot, hnone]
  · have hlast := resolve_eq_resolve_last hwf hge hclamp
    refine ⟨resolve_of_ge_clamp hge hclamp, ?_⟩
    simp only [exec_teWr, exec_teRd, exec_teEn, exec_teDis, exec_teSpeed, exec_teOneshot, hlast,
      and_self]

/-- Settles O17. -/
theorem slotCommandsKeepSnapshot : Obligations.SlotCommandsKeepSnapshot := by
  intro i s t hi h
  obtain ⟨msg, en, spd, os, x, hexec⟩ := exec_slotCommand_frame hi s
  rw [hexec] at h
  injection h with h
  subst h
  exact ⟨rfl, rfl, rfl, rfl, rfl⟩

end Sys2Proof.Machine
end

section
/-! PROOFS. The sequencer (41_te_sequencer.md): the slot a load picks, the three kinds of tick, the symbols of one
cycle, and the generator with its two pins. -/

namespace Sys2Proof.Machine

/-! ## The load -/

/-- CUR_SLOT holds every slot of the table (00_scope.md R8, 10_state.md R22). -/
theorem toNat_ofNat_slot {c : Config} (hwf : c.wf = true) {k : Nat} (hk : k < c.nSlots) :
    (BitVec.ofNat 8 k).toNat = k := by
  have hn := wf_slots hwf
  rw [BitVec.toNat_ofNat]
  omega

section
variable {c : Config} {e : TimingEngine} {k : Nat}

theorem load_of_nextEnabled_some (h : e.nextEnabled c = some k) : e.load c = { e with
    curSlot := BitVec.ofNat 8 k
    curMsg := e.msg.getD k 0#32
    curSpd := e.spd.getD k false
    en := if e.os.getD k false then e.en.set k false else e.en } := by
  rw [TimingEngine.load, h]

theorem load_of_nextEnabled_none (h : e.nextEnabled c = none) :
    e.load c = { e with curMsg := c.idleMsg, curSpd := c.idleSpeed } := by
  rw [TimingEngine.load, h]

/-- A load looks only at the table and the current slot, and carries the cursor and the programmed period
along. -/
theorem load_cursor_programmed (c : Config) (e : TimingEngine) (b : BitVec 9) (h : Bool) (p d : Nat) :
    TimingEngine.load c { e with curBit := b, curHalf := h, wgPeriod := p, wgDuty := d } =
      { e.load c with curBit := b, curHalf := h, wgPeriod := p, wgDuty := d } := by
  cases hk : e.nextEnabled c with
  | some k =>
    rw [load_of_nextEnabled_some hk]
    exact load_of_nextEnabled_some hk
  | none =>
    rw [load_of_nextEnabled_none hk]
    exact load_of_nextEnabled_none hk

/-- The scan visits every slot of the table (41_te_sequencer.md R86). -/
theorem mem_scanOrder {n k : Nat} (hk : k < n) (cur : Nat) : k ∈ scanOrder n cur := by
  have hr : (cur + 1) % n < n := Nat.mod_lt _ (by omega)
  have hdiv := Nat.div_add_mod (cur + 1) n
  refine List.mem_map.mpr ⟨(k + n - (cur + 1) % n) % n, List.mem_range.mpr (Nat.mod_lt _ (by omega)), ?_⟩
  calc (cur + ((k + n - (cur + 1) % n) % n + 1)) % n
      = (cur + 1 + (k + n - (cur + 1) % n) % n) % n := by congr 1; omega
    _ = (cur + 1 + (k + n - (cur + 1) % n)) % n := Nat.add_mod_mod ..
    _ = (k + n * ((cur + 1) / n + 1)) % n := by rw [Nat.mul_add]; congr 1; omega
    _ = k := by rw [Nat.add_mul_mod_self_left, Nat.mod_eq_of_lt hk]

/-- A lone enabled slot is picked wherever the scan starts (41_te_sequencer.md R93 item 1). -/
theorem nextEnabled_of_lone (hk : k < c.nSlots)
    (hlone : ∀ j, j < c.nSlots → e.en.getD j false = decide (j = k)) : e.nextEnabled c = some k := by
  cases hpick : e.nextEnabled c with
  | some j =>
    obtain ⟨hj, hen⟩ := nextEnabled_some hpick
    rw [hlone j hj, decide_eq_true_eq] at hen
    rw [hen]
  | none =>
    have hon : e.en.getD k false = true := by simp only [hlone k hk, decide_true]
    exact absurd hon (List.find?_eq_none.mp hpick k (mem_scanOrder hk _))

end

/-! ## The tick -/

section
variable {c : Config} {e : TimingEngine}

/-- The tick at the wait-boundary loads (41_te_sequencer.md R87). -/
theorem tick_of_wait_end (hrun : e.running = true)
    (hend : e.curBit.toNat = lastSignalBit c + e.pause c) (hhalf : e.curHalf = true) :
    e.tick c = TimingEngine.program c e.curSpd { e.load c with curBit := 0#9, curHalf := false } := by
  rw [tick_of_running hrun, TimingEngine.advance, if_pos hend, if_pos hhalf, load_cursor]

/-- The tick after the last symbol of half-cycle 0 begins half-cycle 1 (41_te_sequencer.md R87). -/
theorem tick_of_gap_end (hrun : e.running = true)
    (hend : e.curBit.toNat = lastSignalBit c + e.pause c) (hhalf : e.curHalf = false) :
    e.tick c = TimingEngine.program c e.curSpd { e with curBit := 0#9, curHalf := true } := by
  rw [tick_of_running hrun, TimingEngine.advance, if_pos hend, if_neg (by simp [hhalf])]

/-- Every other tick goes on to the next symbol of the half-cycle (41_te_sequencer.md R87). -/
theorem tick_of_ne_end (hrun : e.running = true)
    (hend : e.curBit.toNat ≠ lastSignalBit c + e.pause c) :
    e.tick c = TimingEngine.program c e.curSpd { e with curBit := e.curBit + 1#9 } := by
  rw [tick_of_running hrun, TimingEngine.advance, if_neg hend]

theorem tick_curBit (hwf : c.wf = true) (hrun : e.running = true)
    (hbit : e.curBit.toNat ≤ lastSignalBit c + e.pause c) :
    (e.tick c).curBit.toNat =
      if e.curBit.toNat = lastSignalBit c + e.pause c then 0 else e.curBit.toNat + 1 := by
  split_ifs with hend
  · cases hhalf : e.curHalf with
    | true => rw [tick_of_wait_end hrun hend hhalf]; rfl
    | false => rw [tick_of_gap_end hrun hend hhalf]; rfl
  · rw [tick_of_ne_end hrun hend]
    exact curBit_succ hwf hbit

theorem tick_curHalf (hrun : e.running = true) :
    (e.tick c).curHalf =
      if e.curBit.toNat = lastSignalBit c + e.pause c then !e.curHalf else e.curHalf := by
  split_ifs with hend
  · cases hhalf : e.curHalf with
    | true => rw [tick_of_wait_end hrun hend hhalf]; rfl
    | false => rw [tick_of_gap_end hrun hend hhalf]; rfl
  · rw [tick_of_ne_end hrun hend]
    rfl

/-- The tick at the wait-boundary takes slot, snapshots and enable bits of its load. -/
theorem tick_snapshot_of_wait_end (hrun : e.running = true)
    (hend : e.curBit.toNat = lastSignalBit c + e.pause c ∧ e.curHalf = true) :
    (e.tick c).curSlot = (e.load c).curSlot ∧ (e.tick c).curMsg = (e.load c).curMsg ∧
      (e.tick c).curSpd = (e.load c).curSpd ∧ (e.tick c).en = (e.load c).en := by
  rw [tick_of_wait_end hrun hend.1 hend.2]
  exact ⟨rfl, rfl, rfl, rfl⟩

/-- Every other tick keeps slot, snapshots and enable bits: a change of the table is never seen mid-message. -/
theorem tick_snapshot_of_not_wait_end (hrun : e.running = true)
    (hend : ¬ (e.curBit.toNat = lastSignalBit c + e.pause c ∧ e.curHalf = true)) :
    (e.tick c).curSlot = e.curSlot ∧ (e.tick c).curMsg = e.curMsg ∧
      (e.tick c).curSpd = e.curSpd ∧ (e.tick c).en = e.en := by
  by_cases hlast : e.curBit.toNat = lastSignalBit c + e.pause c
  · rw [tick_of_gap_end hrun hlast (Bool.eq_false_iff.mpr fun hhalf => hend ⟨hlast, hhalf⟩)]
    exact ⟨rfl, rfl, rfl, rfl⟩
  · rw [tick_of_ne_end hrun hlast]
    exact ⟨rfl, rfl, rfl, rfl⟩

/-- The speed snapshot that scales the period of a tick, of the two before and after its load
(00_scope.md R7 `PERIOD_SPEED_SOURCE`). -/
def periodSpeed (c : Config) (before after : Bool) : Bool :=
  match c.periodSpeedSource with
  | .beforeLoad => before
  | .afterLoad => after

theorem periodSpeed_self (c : Config) (b : Bool) : periodSpeed c b b = b := by
  unfold periodSpeed
  split <;> rfl

/-- Period and mark are stored whole: the generator's registers hold both (41_te_sequencer.md R87 (e)). -/
theorem program_of_wf (hwf : c.wf = true) (before : Bool) (e : TimingEngine) :
    e.program c before = { e with
      wgPeriod := c.unitTicks * speedScale (periodSpeed c before e.curSpd)
      wgDuty := markOf c e.curMsg e.curBit.toNat * speedScale e.curSpd } := by
  rw [TimingEngine.program, wgStore_scaled hwf le_rfl, wgStore_scaled hwf (markOf_le hwf _ _)]
  rfl

theorem tick_wgPeriod (hwf : c.wf = true) (hrun : e.running = true) :
    (e.tick c).wgPeriod = c.unitTicks * speedScale (periodSpeed c e.curSpd (e.tick c).curSpd) := by
  rw [tick_of_running hrun, program_of_wf hwf]

theorem tick_wgDuty (hwf : c.wf = true) (hrun : e.running = true) :
    (e.tick c).wgDuty = markOf c (e.tick c).curMsg (e.tick c).curBit.toNat
      * speedScale (e.tick c).curSpd := by
  rw [tick_of_running hrun, program_of_wf hwf]

theorem markOf_zero (c : Config) (m : Word) :
    markOf c m 0 = if m.getLsbD 0 then c.longMarkTicks else c.shortMarkTicks :=
  if_pos (Nat.zero_le _)

/-- `MarkOf` over the signal bits counted from 0 (41_te_sequencer.md R84). -/
theorem markOf_of_wf (hwf : c.wf = true) (m : Word) (b : Nat) :
    markOf c m b = if b < c.signalBits then
      (if m.getLsbD b then c.longMarkTicks else c.shortMarkTicks) else 0 := by
  obtain ⟨hpos, -⟩ := wf_layout hwf
  have hiff : b ≤ lastSignalBit c ↔ b < c.signalBits := by
    unfold lastSignalBit
    omega
  simp only [markOf, hiff]

end

/-! ## One cycle -/

section
variable {c : Config} {e : TimingEngine} {n : Nat}

/-- The cursor of symbol `n` of a cycle, over an engine that is otherwise `e` but for the programmed period
(41_te_sequencer.md R85). -/
def TimingEngine.atSymbol (c : Config) (n : Nat) (e : TimingEngine) (p d : Nat) : TimingEngine :=
  { e with
    curBit := BitVec.ofNat 9 (symbolBit c n)
    curHalf := symbolHalf c n
    wgPeriod := p
    wgDuty := d }

theorem atSymbol_curSpd (p d : Nat) : (e.atSymbol c n p d).curSpd = e.curSpd := rfl

/-- The signal index holds every symbol of a cycle (41_te_sequencer.md R87 (e)). -/
theorem atSymbol_curBit (hwf : c.wf = true) (hn : n < cycleLength c) (p d : Nat) :
    (e.atSymbol c n p d).curBit.toNat = symbolBit c n := by
  have hpauses := wf_pauses hwf
  have hlayout := wf_layout hwf
  rw [TimingEngine.atSymbol, BitVec.toNat_ofNat]
  unfold cycleLength at hn
  unfold symbolBit
  split <;> omega

/-- A half-cycle ends at the last symbol of the gap and at the last of the wait, and nowhere else
(41_te_sequencer.md R85). -/
theorem atSymbol_last_iff (hwf : c.wf = true) (hn : n < cycleLength c) (p d : Nat) :
    (e.atSymbol c n p d).curBit.toNat = lastSignalBit c + (e.atSymbol c n p d).pause c ↔
      n + 1 = c.signalBits + c.gapUnits ∨ n + 1 = cycleLength c := by
  obtain ⟨hpos, -⟩ := wf_layout hwf
  rw [atSymbol_curBit hwf hn, TimingEngine.pause, TimingEngine.atSymbol]
  unfold cycleLength at *
  unfold symbolBit symbolHalf lastSignalBit
  simp only [decide_eq_true_eq]
  split_ifs <;> omega

/-- Inside a cycle the cursor goes from symbol `n` to symbol `n + 1` (41_te_sequencer.md R87). -/
theorem advance_atSymbol (hwf : c.wf = true) (hn : n + 1 < cycleLength c) (p d : Nat) :
    (e.atSymbol c n p d).advance c = e.atSymbol c (n + 1) p d := by
  have hlast := atSymbol_last_iff (e := e) hwf (Nat.lt_of_succ_lt hn) p d
  rcases advance_cases c (e.atSymbol c n p d) with ⟨hend, hhalf, -⟩ | ⟨hend, -, ha⟩ | ⟨hend, ha⟩
  · have hsecond : c.signalBits + c.gapUnits ≤ n := of_decide_eq_true hhalf
    have hnext := hlast.mp hend
    omega
  · have hgap : n + 1 = c.signalBits + c.gapUnits := (hlast.mp hend).resolve_right (by omega)
    have hhalf : symbolHalf c (n + 1) = true := decide_eq_true (by omega)
    have hbit : symbolBit c (n + 1) = 0 := by simp [symbolBit, hgap]
    rw [ha, TimingEngine.atSymbol, TimingEngine.atSymbol, hhalf, hbit]
  · have hne := mt hlast.mpr hend
    have hhalf : symbolHalf c (n + 1) = symbolHalf c n := by
      simp only [symbolHalf, decide_eq_decide]
      omega
    have hbit : symbolBit c (n + 1) = symbolBit c n + 1 := by
      unfold symbolBit
      split_ifs <;> omega
    rw [ha, TimingEngine.atSymbol, TimingEngine.atSymbol, hhalf, hbit, BitVec.ofNat_add]

/-- Inside a cycle the tick at symbol `n` programs symbol `n + 1` (41_te_sequencer.md R88). -/
theorem tick_atSymbol (hwf : c.wf = true) (hrun : e.running = true) (hn : n + 1 < cycleLength c)
    (p d : Nat) : (e.atSymbol c n p d).tick c = e.atSymbol c (n + 1)
      (c.unitTicks * speedScale e.curSpd)
      (markOf c e.curMsg (symbolBit c (n + 1)) * speedScale e.curSpd) := by
  rw [tick_of_running (e := e.atSymbol c n p d) hrun, advance_atSymbol hwf hn, program_of_wf hwf,
    atSymbol_curBit hwf hn, atSymbol_curSpd, atSymbol_curSpd, periodSpeed_self]
  rfl

/-- From the start of a cycle, `n` ticks lead to its symbol `n`, and the last of them programs it
(41_te_sequencer.md R85, R88). -/
theorem ticks_eq_atSymbol (hwf : c.wf = true) (hrun : e.running = true) (hbit : e.curBit = 0#9)
    (hhalf : e.curHalf = false) (hn : n < cycleLength c) :
    ∃ p d, ticks c n e = e.atSymbol c n p d ∧ (1 ≤ n →
      p = c.unitTicks * speedScale e.curSpd ∧
      d = markOf c e.curMsg (symbolBit c n) * speedScale e.curSpd) := by
  induction n with
  | zero =>
    obtain ⟨hpos, -⟩ := wf_layout hwf
    have hfirst : symbolHalf c 0 = false := decide_eq_false (by omega)
    have hzero : symbolBit c 0 = 0 := by simp [symbolBit]
    refine ⟨e.wgPeriod, e.wgDuty, ?_, by omega⟩
    rw [TimingEngine.atSymbol, hfirst, hzero, ← hbit, ← hhalf]
    rfl
  | succ n ih =>
    obtain ⟨p, d, hticks, -⟩ := ih (Nat.lt_of_succ_lt hn)
    exact ⟨_, _, by rw [ticks, hticks, tick_atSymbol hwf hrun hn], fun _ => ⟨rfl, rfl⟩⟩

/-- The tick after the last wait symbol loads for the next cycle (41_te_sequencer.md R87, R88). -/
theorem ticks_cycleLength (hwf : c.wf = true) (hrun : e.running = true) (hbit : e.curBit = 0#9)
    (hhalf : e.curHalf = false) : ∃ p d, ticks c (cycleLength c) e =
      TimingEngine.program c e.curSpd { e.load c with
        curBit := 0#9, curHalf := false, wgPeriod := p, wgDuty := d } := by
  obtain ⟨hpos, -⟩ := wf_layout hwf
  obtain ⟨n, hlen⟩ : ∃ n, cycleLength c = n + 1 :=
    Nat.exists_eq_succ_of_ne_zero (by unfold cycleLength; omega)
  have hn : n < cycleLength c := by omega
  obtain ⟨p, d, hticks, -⟩ := ticks_eq_atSymbol hwf hrun hbit hhalf hn
  have hlast := (atSymbol_last_iff (e := e) hwf hn p d).mpr (.inr hlen.symm)
  have hsecond : symbolHalf c n = true := decide_eq_true (by unfold cycleLength at hlen; omega)
  refine ⟨p, d, ?_⟩
  rw [hlen, ticks, hticks, tick_of_wait_end (e := e.atSymbol c n p d) hrun hlast hsecond,
    TimingEngine.atSymbol, load_cursor_programmed]

end

/-! ## Slot playback -/

section
variable {c : Config} {e : TimingEngine} {k : Nat}

/-- A lone slot that is not one-shot is loaded and stays enabled (41_te_sequencer.md R86). -/
theorem load_of_lone (hk : k < c.nSlots)
    (hlone : ∀ j, j < c.nSlots → e.en.getD j false = decide (j = k))
    (hos : e.os.getD k false = false) : e.load c = { e with
      curSlot := BitVec.ofNat 8 k, curMsg := e.msg.getD k 0#32, curSpd := e.spd.getD k false } := by
  rw [load_of_nextEnabled_some (nextEnabled_of_lone hk hlone), hos]
  rfl

/-- Every load of a lone slot that is not one-shot leaves the same engine (41_te_sequencer.md R93 item 1). -/
theorem loads_of_lone (hk : k < c.nSlots)
    (hlone : ∀ j, j < c.nSlots → e.en.getD j false = decide (j = k))
    (hos : e.os.getD k false = false) (n : Nat) : loads c (n + 1) e = { e with
      curSlot := BitVec.ofNat 8 k, curMsg := e.msg.getD k 0#32, curSpd := e.spd.getD k false } := by
  induction n with
  | zero => exact load_of_lone hk hlone hos
  | succ n ih =>
    rw [loads, ih]
    exact load_of_lone hk hlone hos

theorem loads_succ_eq_loads_load (c : Config) (n : Nat) (e : TimingEngine) :
    loads c (n + 1) e = loads c n (e.load c) := by
  induction n with
  | zero => rfl
  | succ n ih => rw [loads, ih, loads]

/-- With no slot enabled every load is the idle message's (41_te_sequencer.md R86). -/
theorem loads_of_none_enabled (h : ∀ j, j < c.nSlots → e.en.getD j false = false) (n : Nat) :
    loads c (n + 1) e = { e with curMsg := c.idleMsg, curSpd := c.idleSpeed } := by
  induction n with
  | zero => exact load_of_nextEnabled_none (nextEnabled_eq_none h)
  | succ n ih =>
    rw [loads, ih]
    exact load_of_nextEnabled_none (nextEnabled_eq_none h)

/-- The engine plays the idle message and has no slot to leave it for (41_te_sequencer.md R93 item 3). -/
def TimingEngine.Idle (c : Config) (e : TimingEngine) : Prop :=
  (∀ j, j < c.nSlots → e.en.getD j false = false) ∧ e.curMsg = c.idleMsg ∧ e.curSpd = c.idleSpeed

theorem TimingEngine.Idle.tick (h : e.Idle c) : (e.tick c).Idle c := by
  have hen := h.1
  cases hrun : e.running with
  | false => rwa [tick_of_stopped hrun]
  | true =>
    rw [tick_of_running hrun]
    rcases advance_cases c e with ⟨-, -, ha⟩ | ⟨-, -, ha⟩ | ⟨-, ha⟩ <;> rw [ha]
    · rw [load_of_nextEnabled_none (nextEnabled_eq_none hen)]
      exact ⟨hen, rfl, rfl⟩
    · exact h
    · exact h

theorem TimingEngine.Idle.ticks (h : e.Idle c) (n : Nat) : (ticks c n e).Idle c := by
  induction n with
  | zero => exact h
  | succ n ih => exact ih.tick

end

/-! ## The generator and its pins -/

/-- A move that is not the host's is made whatever the contexts do (60_exceptions.md R121). -/
theorem step_of_not_isHost {s : State} {m : Move} {rest : List Move} (hwf : s.cfg.wf = true)
    (hm : s.env.moves = m :: rest) (h : m.isHost = false) :
    step s = applyMove m { s with env.moves := rest } := by
  simp [step, hwf, hm, h]

theorem filter_lt_range {m n : Nat} (h : m ≤ n) :
    (List.range n).filter (fun i => decide (i < m)) = List.range m := by
  obtain ⟨k, rfl⟩ := Nat.exists_eq_add_of_le h
  rw [List.range_add, List.filter_append, List.filter_eq_self.mpr (by simp),
    List.filter_eq_nil_iff.mpr (by simp), List.append_nil]

theorem dataMark_of_armed {s : State} (h : s.te.timerArmed = true) :
    s.dataMark = fun n => decide (n < min s.te.wgLDuty s.te.wgLPeriod) := by
  funext n
  rw [State.dataMark, h, Bool.true_and]

/-! ## The statements -/

/-- Settles O18. -/
theorem loadTakesNextEnabledSlot : Obligations.LoadTakesNextEnabledSlot := by
  intro c e hwf
  refine ⟨fun j hpos hj hno hyes => ?_, fun h => load_of_nextEnabled_none (nextEnabled_eq_none h)⟩
  have hload := load_of_nextEnabled_some (nextEnabled_eq_some hpos hj hno hyes)
  have hk : (e.curSlot.toNat + j) % c.nSlots < c.nSlots := Nat.mod_lt _ (wf_slots hwf).1
  exact ⟨by rw [hload]; exact toNat_ofNat_slot hwf hk, by rw [hload]⟩

/-- Settles O19, from the three kinds of tick. -/
theorem tickAdvancesAndPrograms : Obligations.TickAdvancesAndPrograms := by
  rintro c e hwf ⟨-, -, -, -, -, hbit, -⟩
  refine ⟨tick_of_stopped, fun hrun => ?_⟩
  have hduty := tick_wgDuty hwf hrun
  rw [markOf_of_wf hwf] at hduty
  exact ⟨tick_curBit hwf hrun hbit, tick_curHalf hrun, tick_snapshot_of_wait_end hrun,
    tick_snapshot_of_not_wait_end hrun, tick_wgPeriod hwf hrun, hduty, tick_frame c e⟩

/-- Settles O20: inside the cycle the engine is at symbol `n` of it, and programs that symbol by the tick that
reaches it. -/
theorem cycleOfOneMessage : Obligations.CycleOfOneMessage := by
  intro c e hwf _ hrun hbit hhalf
  refine ⟨fun n hn => ?_, ?_⟩
  · obtain ⟨p, d, hticks, hprogrammed⟩ := ticks_eq_atSymbol hwf hrun hbit hhalf hn
    rw [markOf_of_wf hwf] at hprogrammed
    rw [hticks]
    exact ⟨rfl, atSymbol_curBit hwf hn p d, rfl, rfl, rfl, rfl, hprogrammed⟩
  · obtain ⟨p, d, hticks⟩ := ticks_cycleLength hwf hrun hbit hhalf
    rw [hticks, program_of_wf hwf, BitVec.toNat_zero, markOf_zero]
    exact ⟨rfl, rfl, rfl, rfl, rfl, rfl, rfl⟩

/-- Settles O21. -/
theorem slotPlaybackProperties : Obligations.SlotPlaybackProperties := by
  rintro c e hwf ⟨-, hlen, -⟩
  refine ⟨fun k hk hlone => ⟨fun hos n => ?_, fun hos => ?_⟩, fun hen hmsg hspd n => ?_⟩
  · rw [loads_of_lone hk hlone hos]
    exact ⟨toNat_ofNat_slot hwf hk, rfl, rfl⟩
  · have hload := load_of_nextEnabled_some (nextEnabled_of_lone hk hlone)
    rw [if_pos hos] at hload
    have hoff : ∀ j, j < c.nSlots → (e.load c).en.getD j false = false := by
      intro j hj
      rw [hload, ← writeSlot_some, getD_writeSlot _ _ _ (hlen ▸ hj), hlone j hj]
      by_cases hjk : j = k <;> simp [hjk]
    refine ⟨?_, ?_, hoff, fun n => ?_⟩
    · rw [loads, loads, hload]
      exact toNat_ofNat_slot hwf hk
    · rw [loads, loads, hload]
    · rw [loads_succ_eq_loads_load, loads_of_none_enabled hoff]
      exact ⟨rfl, rfl⟩
  · exact (TimingEngine.Idle.ticks ⟨hen, hmsg, hspd⟩ n).2

/-- Settles O22. -/
theorem emitLatchesAndRaisesTick : Obligations.EmitLatchesAndRaisesTick := by
  intro s rest hwf hm
  rw [step_of_not_isHost hwf hm rfl, applyMove]
  refine ⟨fun harmed => ?_, fun hstopped => ?_⟩
  · rw [State.emit, if_pos harmed]
    cases s.te.tickPend <;> rfl
  · rw [State.emit, if_neg (by simp [hstopped])]

/-- Settles O23. -/
theorem dataOutputMarksPeriod : Obligations.DataOutputMarksPeriod := by
  intro s harmed
  rw [dataMark_of_armed harmed, filter_lt_range (Nat.min_le_right ..), List.length_range]
  refine ⟨fun n _ => decide_eq_true_iff, rfl, fun hzero n => ?_, fun hfull n hn => ?_⟩
  · simp [hzero]
  · simp [hn, hn.trans_le hfull]

/-- Settles O24. -/
theorem faultEdgeRequestsOnlyWhileRunning : Obligations.FaultEdgeRequestsOnlyWhileRunning := by
  intro s x rest hwf hm
  rw [step_of_not_isHost hwf hm rfl, applyMove]
  refine ⟨_, rfl, rfl, rfl, fun ⟨hlow, hx, hrun⟩ => ?_, fun hno => ?_, rfl⟩
  · exact if_pos (by simp [hlow, hx, hrun])
  · exact if_neg (by simpa [and_assoc] using hno)

end Sys2Proof.Machine
end

section
/-! PROOFS. The Bus Driver commands (42_bd_commands.md): the mode change and the sequences made of it, the
reservation with its commit, the record fields, the end of a handler, and the identifier bytes. -/

namespace Sys2Proof.Machine

/-! ## One poll of a mode change -/

/-- A context that goes on has the rest of its command left. -/
theorem goOn_progress {s : State} {q : Progress} (h : s.progress = some q) (rest : Progress) :
    (s.goOn rest).progress = some rest := by
  cases rest <;> exact setProgress_progress h _

section
variable (s : State) (mode : BitVec 3) (n : Nat) (rest : Progress)

theorem pollAgain_of_capped (h : s.cfg.modePollCap = some n) :
    s.pollAgain mode n rest = (s.setProgress []).ret .timeout 0#32 :=
  if_pos h

theorem pollAgain_of_not_capped (h : s.cfg.modePollCap ≠ some n) :
    s.pollAgain mode n rest = s.setProgress (.pollMode mode n :: rest) :=
  if_neg h

theorem runMicro_pollMode_confirmed (h : (s.answer 2).extractLsb' 5 3 = mode) :
    s.runMicro (.pollMode mode n) rest = (s.spi (readTx s.cfg s.cfg.regmap.canstat 1)).goOn rest :=
  if_pos h

theorem runMicro_pollMode_unconfirmed (h : (s.answer 2).extractLsb' 5 3 ≠ mode) :
    s.runMicro (.pollMode mode n) rest =
      (s.spi (readTx s.cfg s.cfg.regmap.canstat 1)).pollAgain mode (n + 1) rest :=
  if_neg h

/-- A poll is one READ of CANSTAT, whatever the controller answers (42_bd_commands.md R95). -/
theorem runMicro_pollMode_trace :
    (s.runMicro (.pollMode mode n) rest).trace =
      .spi (readTx s.cfg s.cfg.regmap.canstat 1) :: s.trace := by
  by_cases h : (s.answer 2).extractLsb' 5 3 = mode
  · rw [runMicro_pollMode_confirmed s mode n rest h, State.goOn_trace, State.spi_trace]
  · rw [runMicro_pollMode_unconfirmed s mode n rest h, State.pollAgain_trace, State.spi_trace]

/-- A poll leaves GO alone: it releases nothing. -/
theorem runMicro_pollMode_frame :
    let t := s.runMicro (.pollMode mode n) rest
    t = { s with
      fg := t.fg, stack := t.stack, env := t.env, trace := t.trace, status := t.status, r := t.r } := by
  have hgo : (s.runMicro (.pollMode mode n) rest).te.go = s.te.go := by
    rw [runMicro_go]
    rfl
  have hframe := runMicro_frame s (.pollMode mode n) rest
  rwa [hgo] at hframe

end

/-- A step of a command stays in its context: the contexts below are as before. -/
theorem runMicro_stack_tail {s : State} {q : Progress} (h : s.progress = some q) (m : MicroStep)
    (rest : Progress) : (s.runMicro m rest).stack.tail = s.stack.tail := by
  obtain ⟨p, hstack, -⟩ := runMicro_stack s m rest
  rw [hstack]
  rcases setProgress_stack_of_progress h p with ⟨hs, hp⟩ | ⟨rec, below, hs, hp⟩ <;> rw [hs, hp]
  rfl

/-! ## A sequence of transactions and mode changes -/

/-- The transactions of a command whose mode changes are each confirmed at their first poll: `ModeChange` is
the WRITE of CANCTRL and one READ of CANSTAT (42_bd_commands.md R95, R96, R97). -/
def transactions (c : Config) : Progress → List (List Byte)
  | [] => []
  | .transact out :: rest => out :: transactions c rest
  | .requestMode mode :: rest =>
    writeTx c c.regmap.canctrl [modeByte c mode] :: readTx c c.regmap.canstat 1 :: transactions c rest
  | .releaseGo :: rest | .pollMode _ _ :: rest => transactions c rest

/-- The state after a list of transactions. -/
def State.sendAll (s : State) (outs : List (List Byte)) : State := outs.foldl State.spi s

/-- The two transactions of `ModeChange(mode)` when its first poll confirms it (42_bd_commands.md R95). -/
def State.modeChanged (s : State) (mode : BitVec 3) : State :=
  (s.spi (writeTx s.cfg s.cfg.regmap.canctrl [modeByte s.cfg mode])).spi
    (readTx s.cfg s.cfg.regmap.canstat 1)

@[simp] theorem modeChanged_cfg (s : State) (mode : BitVec 3) : (s.modeChanged mode).cfg = s.cfg := rfl

@[simp] theorem modeChanged_progress (s : State) (mode : BitVec 3) :
    (s.modeChanged mode).progress = s.progress := rfl

/-- Six bytes are answered to a mode change of one poll: three to the WRITE and three to the READ. -/
@[simp] theorem answer_modeChanged (s : State) (mode : BitVec 3) (j : Nat) :
    (s.modeChanged mode).answer j = s.answer (6 + j) := by
  rw [State.modeChanged, answer_spi, answer_spi, ← Nat.add_assoc]
  rfl

/-- The controller confirms each mode change of a command at its first poll; the answer to the poll is the
last of the three bytes of the READ, after the three of the WRITE (42_bd_commands.md R95). A command with
another kind of step is none of these. -/
def State.Confirms : Progress → State → Prop
  | [], _ => True
  | .transact out :: rest, s => (s.spi out).Confirms rest
  | .requestMode mode :: rest, s =>
    (s.answer 5).extractLsb' 5 3 = mode ∧ (s.modeChanged mode).Confirms rest
  | .releaseGo :: _, _ | .pollMode _ _ :: _, _ => False

/-- Transactions write the trace and draw answers, and nothing else (43_bd_interrupt.md R106). -/
theorem sendAll_frame (s : State) (outs : List (List Byte)) :
    s.sendAll outs = { s with
      trace := (outs.map .spi).reverse ++ s.trace, env := (s.sendAll outs).env } := by
  induction outs generalizing s with
  | nil => rfl
  | cons out outs ih =>
    have hrest : s.sendAll (out :: outs) = (s.spi out).sendAll outs := rfl
    rw [hrest, ih]
    simp [spi_eq]

/-- What the context had left before it goes on does not matter. -/
theorem goOn_setProgress (s : State) (p rest : Progress) : (s.setProgress p).goOn rest = s.goOn rest := by
  simp [State.goOn]

section
variable {s : State} (h : s.progress = some [])
include h

theorem coreStep_transact (out : List Byte) (rest : Progress) :
    (s.goOn (.transact out :: rest)).coreStep = (s.spi out).goOn rest := by
  rw [goOn_cons, coreStep_setProgress h, State.runMicro, spi_setProgress, goOn_setProgress]

theorem coreStep_requestMode (hwf : s.cfg.wf = true) (mode : BitVec 3) (rest : Progress) :
    (s.goOn (.requestMode mode :: rest)).coreStep =
      (s.spi (writeTx s.cfg s.cfg.regmap.canctrl [modeByte s.cfg mode])).goOn
        (.pollMode mode 0 :: rest) := by
  rw [goOn_cons, coreStep_setProgress h, runMicro_requestMode hwf, goOn_cons]

/-- A mode change inside a command takes two steps when its first poll confirms it. -/
theorem coreStep_modeChange (hwf : s.cfg.wf = true) {mode : BitVec 3}
    (hc : (s.answer 5).extractLsb' 5 3 = mode) (rest : Progress) :
    (s.goOn (.requestMode mode :: rest)).coreStep.coreStep = (s.modeChanged mode).goOn rest := by
  rw [coreStep_requestMode h hwf, goOn_cons, coreStep_setProgress, runMicro_pollMode_confirmed,
    State.setProgress_cfg, spi_setProgress, goOn_setProgress]
  · rfl
  · rwa [answer_setProgress, answer_spi]
  · exact h

/-- A command that opens with a mode request is issued as if its context ran the request. -/
theorem begin_requestMode (hwf : s.cfg.wf = true) (mode : BitVec 3) (rest : Progress) :
    s.begin (.requestMode mode :: rest) = (s.goOn (.requestMode mode :: rest)).coreStep := by
  have hrun := runMicro_requestMode hwf [] mode rest
  rw [setProgress_self h] at hrun
  rw [coreStep_requestMode h hwf, goOn_cons]
  exact hrun

end

/-- A command made of transactions and of mode changes that the controller confirms sends its transactions
in order, one a step, and ends with (OK, 0), its context waiting again. -/
theorem coreSteps_transactions {s : State} (h : s.progress = some []) (hwf : s.cfg.wf = true)
    {prog : Progress} (hc : s.Confirms prog) :
    coreSteps (transactions s.cfg prog).length (s.goOn prog) =
      (s.sendAll (transactions s.cfg prog)).ret .ok 0#32 := by
  induction prog generalizing s with
  | nil =>
    rw [goOn_nil, setProgress_self h]
    rfl
  | cons m rest ih =>
    cases m with
    | transact out =>
      have hrest := ih (s := s.spi out) h hwf hc
      rw [State.spi_cfg] at hrest
      simp only [transactions, List.length_cons, coreSteps]
      rw [coreStep_transact h, hrest]
      rfl
    | requestMode mode =>
      obtain ⟨hmode, hc⟩ := hc
      have hrest := ih (s := s.modeChanged mode) h hwf hc
      rw [modeChanged_cfg] at hrest
      simp only [transactions, List.length_cons, coreSteps]
      rw [coreStep_modeChange h hwf hmode, hrest]
      rfl
    | releaseGo | pollMode => exact hc.elim

/-! ## The sequences of the filter commands and of `bd.start` -/

/-- The second poll's answer is the 28th byte: 22 were answered before the second mode change, for filter
and mask bytes of four each (42_bd_commands.md R96). -/
theorem confirms_filterSeq {s : State} {fb mb : List Byte} (hfb : fb.length = 4) (hmb : mb.length = 4)
    (hconfig : (s.answer 5).extractLsb' 5 3 = s.cfg.regmap.modeConfig)
    (hnormal : (s.answer 27).extractLsb' 5 3 = s.cfg.regmap.modeNormal) :
    s.Confirms (filterSeq s.cfg fb mb) := by
  simp [filterSeq, State.Confirms, writeTx, hfb, hmb, hconfig, hnormal]

/-- The polls' answers are the 23rd and the 37th byte: 17 were answered before the first mode change and 31
before the second (42_bd_commands.md R97). -/
theorem confirms_startSeq {s : State}
    (hconfig : (s.answer 22).extractLsb' 5 3 = s.cfg.regmap.modeConfig)
    (hnormal : (s.answer 36).extractLsb' 5 3 = s.cfg.regmap.modeNormal) :
    s.Confirms (startSeq s.cfg) := by
  simp [startSeq, State.Confirms, writeTx, resetTx, stdBytes, stdMask, hconfig, hnormal]

/-- The bytes of the identifier 0 and of its mask (42_bd_commands.md R97, R100). -/
theorem stdBytes_zero : stdBytes 0#32 = [0#8, 0#8, 0#8, 0#8] := by decide

theorem stdMask_zero : stdMask 0#32 = [0#8, 0#8, 0#8, 0#8] := by decide

/-- A filter command is `FilterSeq` of the bytes its identifier and its mask have (42_bd_commands.md R98, R99,
R100). -/
theorem exec_filter {s : State} {i : Instr} {fb mb : List Byte}
    (h : i = .bdFiltStd ∧ fb = stdBytes (lowBits s.cfg.stdIdBits s.a) ∧
        mb = stdMask (lowBits s.cfg.stdIdBits s.b) ∨
      i = .bdFiltExt ∧ fb = extBytes (lowBits s.cfg.extIdBits s.a) ∧
        mb = extMask (lowBits s.cfg.extIdBits s.b) ∨
      i = .bdFiltClr ∧ fb = [0#8, 0#8, 0#8, 0#8] ∧ mb = [0#8, 0#8, 0#8, 0#8]) :
    exec i s = .next (s.begin (filterSeq s.cfg fb mb)) ∧ fb.length = 4 ∧ mb.length = 4 := by
  rcases h with ⟨rfl, rfl, rfl⟩ | ⟨rfl, rfl, rfl⟩ | ⟨rfl, hfb, hmb⟩
  · exact ⟨rfl, rfl, rfl⟩
  · exact ⟨rfl, rfl, rfl⟩
  · rw [← stdBytes_zero] at hfb
    rw [← stdMask_zero] at hmb
    subst hfb hmb
    exact ⟨rfl, rfl, rfl⟩

/-- The state after step 1 of `bd.start`, its context apart (42_bd_commands.md R97). -/
def State.busStarted (s : State) (hm he : Bool) : State := { s with bd := s.bd.start hm he }

theorem exec_bdStart (s : State) (hm he : Bool) :
    exec (.bdStart hm he) s = .next ((s.busStarted hm he).setProgress (startSeq s.cfg)) := rfl

/-! ## The reservation and its commit -/

theorem exec_bdPrep_of_full {s : State}
    (h : queueFull s.bd.sqNext s.bd.sqFree s.cfg.mQueue = true) :
    exec .bdPrep s = .next (s.ret .full nullPointer) :=
  if_pos h

/-- The saved IE bit after a `bd.prep` that reserves (42_bd_commands.md R101). -/
def State.prepSavedIe (s : State) : Bool :=
  if !s.bd.resvValid || s.cfg.prepareNestSave = .overwrite then s.ie else s.bd.savedIe

theorem prepSavedIe_of_saves {s : State}
    (h : s.bd.resvValid = false ∨ s.cfg.prepareNestSave = .overwrite) : s.prepSavedIe = s.ie := by
  rcases h with h | h <;> simp [State.prepSavedIe, h]

theorem prepSavedIe_of_keeps {s : State}
    (h : s.bd.resvValid = true ∧ s.cfg.prepareNestSave = .keepFirst) :
    s.prepSavedIe = s.bd.savedIe := by
  simp [State.prepSavedIe, h]

theorem exec_bdPrep_of_room {s : State}
    (h : ¬ queueFull s.bd.sqNext s.bd.sqFree s.cfg.mQueue = true) :
    exec .bdPrep s = .next { s with
      ie := false
      bd.savedIe := s.prepSavedIe
      bd.resvValid := true
      status := 0x00#8
      r := s.bd.sqFree.setWidth 32 } :=
  if_neg h

section
variable {s : State} (hresv : s.bd.resvValid = true)
include hresv

/-- A frame in flight: the committed one waits in its slot (42_bd_commands.md R104). -/
theorem exec_bdCommit_of_inFlight (hfly : s.bd.inFlight = true) :
    exec (.bdCommit s.bd.sqFree) s = .next { s with
      bd.sqFree := bump s.bd.sqFree s.cfg.mQueue
      bd.resvValid := false
      ie := s.bd.savedIe
      status := 0x00#8
      r := 0#32 } := by
  simp [exec, execBdCommit, hresv, hfly, State.ret, StatusCode.code]

/-- No frame in flight: the oldest entry is transmitted (42_bd_commands.md R104, 43_bd_interrupt.md R108). -/
theorem exec_bdCommit_of_idle (hidle : s.bd.inFlight = false) :
    exec (.bdCommit s.bd.sqFree) s = .next { s with
      bd.sqFree := bump s.bd.sqFree s.cfg.mQueue
      bd.resvValid := false
      bd.inFlight := true
      ie := s.bd.savedIe
      env := (s.transmit s.bd.sqNext).env
      trace := (s.transmit s.bd.sqNext).trace
      status := 0x00#8
      r := 0#32 } := by
  simp only [exec, execBdCommit, hresv, hidle, beq_self_eq_true, Bool.and_self, if_true,
    Bool.false_eq_true, if_false]
  rfl

end

/-! ## The record fields -/

/-- Outbound record `p` (20_memory.md R36). -/
def State.outbound (s : State) (p : Byte) : MessageEvent := s.bd.sq.getD p.toNat MessageEvent.zero

/-- The state with the bits of A stored in a field of outbound record `p` (42_bd_commands.md R102). -/
def State.fieldWritten (s : State) (p : Byte) (F : Field) : State :=
  { s with bd.sq := s.bd.sq.set p.toNat ((s.outbound p).write s.cfg s.a F) }

/-- A field of the record that was written reads as the bits of A it takes, every other field of every record
as before. -/
theorem read_outbound_fieldWritten {s : State} {q : Byte} (hq : q.toNat < s.bd.sq.length) (p : Byte)
    (F G : Field) :
    ((s.fieldWritten p F).outbound q).read G =
      if q = p ∧ G = F then s.a &&& F.mask s.cfg else (s.outbound q).read G := by
  have hget : (s.fieldWritten p F).outbound q =
      if q = p then (s.outbound p).write s.cfg s.a F else s.outbound q := by
    have hset := getD_writeSlot s.bd.sq ((s.outbound p).write s.cfg s.a F) (some p.toNat) hq
      MessageEvent.zero
    simp only [Option.some.injEq, BitVec.toNat_inj, eq_comm (a := p)] at hset
    exact hset
  rw [hget]
  by_cases hpq : q = p
  · subst hpq
    by_cases hFG : G = F
    · subst hFG
      simp [read_write]
    · simp [hFG, read_write_ne _ _ _ (Ne.symm hFG)]
  · simp [hpq]

section
variable {s : State} {p f : Byte} {F : Field} (hp : p.toNat < s.cfg.mQueue)
include hp

theorem exec_bdFw_of_held (hf : heldField s.cfg f = some F) :
    exec (.bdFw p f) s = .next ((s.fieldWritten p F).ret .ok 0#32) := by
  rw [exec, execBdFw, if_neg (Nat.not_le.mpr hp), hf]
  rfl

theorem exec_bdFr_of_held (hf : heldField s.cfg f = some F) :
    exec (.bdFr p f) s = .next (s.ret .ok ((s.outbound p).read F)) := by
  rw [exec, execBdFr, if_neg (Nat.not_le.mpr hp), hf]
  rfl

/-- A read that answers OK is of a field the record holds. -/
theorem held_of_exec_bdFr {x : Word} (h : exec (.bdFr p f) s = .next (s.ret .ok x)) :
    ∃ F, heldField s.cfg f = some F ∧ (s.outbound p).read F = x := by
  cases hf : heldField s.cfg f with
  | none =>
    rw [exec, execBdFr_badFld hp hf] at h
    injection h with h
    exact absurd (congrArg State.status h) (by simp [StatusCode.code])
  | some F =>
    rw [exec_bdFr_of_held hp hf] at h
    injection h with h
    exact ⟨F, rfl, congrArg State.r h⟩

end

/-- A read after a write of a field of any record (42_bd_commands.md R102, R103). -/
theorem exec_bdFr_after_write {s : State} {q g : Byte} {G : Field} (hq : q.toNat < s.cfg.mQueue)
    (hlen : q.toNat < s.bd.sq.length) (hg : heldField s.cfg g = some G) (p : Byte) (F : Field) :
    exec (.bdFr q g) ((s.fieldWritten p F).ret .ok 0#32) =
      .next (((s.fieldWritten p F).ret .ok 0#32).ret .ok
        (if q = p ∧ G = F then s.a &&& F.mask s.cfg else (s.outbound q).read G)) := by
  rw [← read_outbound_fieldWritten hlen]
  exact exec_bdFr_of_held (s := (s.fieldWritten p F).ret .ok 0#32) hq hg

/-! ## The end of a handler -/

theorem restorePort_of_delivery {s : State} {rec : EventRecord}
    (h : innermostDelivery s.stack = some rec) :
    s.restorePort = { s with bd.evtValid := true, bd.evtKind := rec.kind, bd.evtRec := rec } := by
  simp [State.restorePort, h]

theorem restorePort_of_no_delivery {s : State} (h : innermostDelivery s.stack = none) :
    s.restorePort = { s with bd.evtValid := false } := by
  simp [State.restorePort, h]

/-- Restoring the port writes the port only (42_bd_commands.md R105). -/
theorem restorePort_frame (s : State) :
    s.restorePort = { s with
      bd.evtValid := s.restorePort.bd.evtValid
      bd.evtKind := s.restorePort.bd.evtKind
      bd.evtRec := s.restorePort.bd.evtRec } := by
  cases h : innermostDelivery s.stack with
  | some rec => rw [restorePort_of_delivery h]
  | none => rw [restorePort_of_no_delivery h]

theorem execBdAck_of_not_handler {s : State}
    (h : ∀ rec prog below, s.stack ≠ .handler rec prog :: below) :
    execBdAck s = .next (s.ret .illegal 0#32) := by
  unfold execBdAck
  split
  · exact absurd ‹_› (h _ _ _)
  · rfl

/-! ## The identifier bytes -/

/-- A byte of an identifier, bit by bit, its index counted from the identifier's bit `k`. -/
theorem getLsbD_identifierByte (id : Word) (k : Nat) {i : Nat} (h : i < 8) :
    (id.extractLsb' k 8).getLsbD i = id.getLsbD (i + k) := by
  rw [getLsbD_byteAt id k h, Nat.add_comm]

/-- The SIDL byte of a standard identifier: its bits 2:0 above zeros (30_encoding.md R69). -/
theorem sidl_standard_getLsbD (id : Word) {i : Nat} (h : i < 8) :
    (sidl (id.extractLsb' 0 3) false 0b00#2).getLsbD i =
      (decide (5 ≤ i) && id.getLsbD (i - 5)) := by
  rw [sidl_getLsbD _ _ _ i h]
  interval_cases i <;> simp

/-- The SIDL byte of an extended identifier or mask: bits 20:18, EXIDE, bits 17:16 (30_encoding.md R69). -/
theorem sidl_extended_getLsbD (id : Word) (exide : Bool) {i : Nat} (h : i < 8) :
    (sidl (id.extractLsb' 18 3) exide (id.extractLsb' 16 2)).getLsbD i =
      if 5 ≤ i then id.getLsbD (i + 13)
      else if i = 3 then exide
      else (decide (i < 2) && id.getLsbD (i + 16)) := by
  rw [sidl_getLsbD _ _ _ i h]
  interval_cases i <;> simp

/-! ## The statements -/

/-- Settles O27: from step 1 on, the context that issued the command runs the start sequence. -/
theorem bdStartResetsAndSendsSequence : Obligations.BdStartResetsAndSendsSequence := by
  intro s hm he hwf ha
  have hwait : (s.busStarted hm he).progress = some [] := awaiting_iff.mp ha
  have hframe := setProgress_frame (s.busStarted hm he) (startSeq s.cfg)
  refine ⟨_, exec_bdStart s hm he, State.setProgress_bd .., ?_, fun hconfig hnormal => ?_⟩
  · rw [hframe]
    rfl
  · have hsent := coreSteps_transactions hwait hwf
      (confirms_startSeq (s := s.busStarted hm he) hconfig hnormal)
    rw [sendAll_frame] at hsent
    refine ⟨_, hsent, ha, rfl, ?_⟩
    rw [hframe]
    rfl

/-- Settles O28: the issue is the first of the six steps, so five are left. -/
theorem filterCommandsSendSequence : Obligations.FilterCommandsSendSequence := by
  intro s i fb mb hwf ha hcommand
  have hwait := awaiting_iff.mp ha
  obtain ⟨hexec, hfb, hmb⟩ := exec_filter hcommand
  have hissue : s.begin (filterSeq s.cfg fb mb) = (s.goOn (filterSeq s.cfg fb mb)).coreStep :=
    begin_requestMode hwait hwf ..
  have hrequest := hissue.trans (coreStep_requestMode hwait hwf ..)
  refine ⟨_, hexec, begin_filterSeq_trace .., ?_, ?_, fun hconfig hnormal => ?_⟩
  · rw [hrequest, goOn_progress (s := s.spi _) hwait]
    simp [writeTx]
  · rw [hrequest, goOn_cons, setProgress_frame]
    rfl
  · have hsent := coreSteps_transactions hwait hwf (confirms_filterSeq hfb hmb hconfig hnormal)
    rw [sendAll_frame] at hsent
    refine ⟨_, (congrArg (coreSteps 5) hissue).trans hsent, ha, ?_, rfl⟩
    simp [transactions, filterSeq, writeTx, readTx, modeByte]

/-- Settles O29: the poll's answer decides, and where it does not confirm the mode, the cap. -/
theorem modeChangePollsUntilConfirmed : Obligations.ModeChangePollsUntilConfirmed := by
  intro s mode n rest h
  refine ⟨_, coreStep_of_progress h, runMicro_pollMode_trace .., runMicro_pollMode_frame ..,
    runMicro_stack_tail h .., fun hconfirmed => ?_, fun hno => ⟨fun hcap => ?_, fun hcap => ?_⟩⟩
  · rw [runMicro_pollMode_confirmed _ _ _ _ hconfirmed]
    refine ⟨goOn_progress (s := s.spi _) h rest, fun hmore => ?_, fun hlast => ?_⟩
    · obtain ⟨m, rest, rfl⟩ := List.exists_cons_of_ne_nil hmore
      simp [goOn_cons]
    · subst hlast
      exact ⟨rfl, rfl⟩
  · rw [runMicro_pollMode_unconfirmed _ _ _ _ hno, pollAgain_of_capped (s.spi _) _ _ _ hcap]
    exact ⟨setProgress_progress (s := s.spi _) h _, rfl, rfl⟩
  · rw [runMicro_pollMode_unconfirmed _ _ _ _ hno, pollAgain_of_not_capped (s.spi _) _ _ _ hcap]
    exact ⟨setProgress_progress (s := s.spi _) h _, State.setProgress_status .., State.setProgress_r ..⟩

/-- Settles O30. -/
theorem bdPrepReservesFreeSlot : Obligations.BdPrepReservesFreeSlot := by
  refine ⟨decodeInvertsEncode .bdPrep, fun s => ⟨fun hfull => ?_, fun hroom => ?_⟩⟩
  · exact exec_bdPrep_of_full ((queueFull_iff ..).mpr hfull)
  · exact ⟨_, exec_bdPrep_of_room (mt (queueFull_iff ..).mp hroom), prepSavedIe_of_saves,
      prepSavedIe_of_keeps, rfl⟩

/-- Settles O32: a field of the table is written and read through the field its code names, and two codes
name two fields. -/
theorem fieldWriteThenRead : Obligations.FieldWriteThenRead := by
  rintro s p f m ⟨-, hsq, -⟩ hp hmask
  obtain ⟨F, hF, rfl⟩ := heldField_mem hmask
  refine ⟨_, exec_bdFw_of_held hp hF, rfl, List.length_set, ?_, fun q g x hq hne hread => ?_⟩
  · rw [exec_bdFr_after_write hp (hsq ▸ hp) hF p F, if_pos ⟨rfl, rfl⟩]
    rfl
  · obtain ⟨G, hG, rfl⟩ := held_of_exec_bdFr hq hread
    have hother : ¬ (q = p ∧ G = F) := fun ⟨hqp, hGF⟩ =>
      hne.elim (absurd hqp) fun hgf => field_ne hG hF hgf hGF
    rw [exec_bdFr_after_write hq (hsq ▸ hq) hG p F, if_neg hother]
    rfl

/-- Settles O33. -/
theorem fieldReadZeroExtends : Obligations.FieldReadZeroExtends := by
  intro s p f m x hp hm hx
  obtain ⟨F, hF, rfl⟩ := heldField_value hx
  have hrec : s.outbound p = m := by rw [State.outbound, List.getD_eq_getElem?_getD, hm, Option.getD_some]
  rw [exec_bdFr_of_held hp hF, hrec]
  rfl

/-- Settles O35: the in-flight flag alone decides whether the oldest frame is sent now. -/
theorem bdCommitQueuesAndSends : Obligations.BdCommitQueuesAndSends := by
  intro s p
  rw [append_zero_eq_commandWord]
  refine ⟨decodeInvertsEncode (.bdCommit p), fun ⟨hresv, hp⟩ => ?_, fun hno => ?_⟩
  · subst hp
    cases hfly : s.bd.inFlight with
    | true =>
      refine ⟨_, exec_bdCommit_of_inFlight hresv hfly, rfl, fun _ => rfl, ?_⟩
      simp [bump, hfly]
    | false => exact ⟨_, exec_bdCommit_of_idle hresv hfly, rfl, nofun, rfl⟩
  · refine execBdCommit_fail fun ⟨hresv, hp⟩ => ?_
    simp [hresv, hp] at hno

/-- Settles O36. -/
theorem bdAckEndsHandler : Obligations.BdAckEndsHandler := by
  refine ⟨decodeInvertsEncode .bdAck, fun s => ⟨fun rec prog below h => ?_, execBdAck_of_not_handler⟩⟩
  refine ⟨_, execBdAck_of_handler h, fun outer houter => ?_, fun hnone => ?_, ?_⟩
  · rw [restorePort_of_delivery houter]
    exact ⟨rfl, rfl, rfl⟩
  · rw [restorePort_of_no_delivery hnone]
    rfl
  · rw [restorePort_frame]
    rfl

/-- Settles O38. -/
theorem identifierBytesLayout : Obligations.IdentifierBytesLayout := by
  refine fun id => ⟨⟨_, _, rfl, rfl, fun i hi => ?_⟩, ⟨_, _, _, _, _, rfl, rfl, fun i hi => ?_⟩⟩
  · exact ⟨getLsbD_identifierByte id 3 hi, sidl_standard_getLsbD id hi⟩
  · refine ⟨getLsbD_identifierByte id 21 hi, sidl_extended_getLsbD id true hi, ?_,
      getLsbD_identifierByte id 8 hi, getLsbD_identifierByte id 0 hi⟩
    rw [sidl_extended_getLsbD id false hi]
    by_cases h3 : i = 3 <;> simp [h3]

end Sys2Proof.Machine
end

section
/-! PROOFS. The frames on the wire and the CAN interrupt handler (43_bd_interrupt.md): the bytes a record is
sent as and what is received from them, the three branches of the handler's first step, and the steps of the
two drains. -/

namespace Sys2Proof.Machine

/-! ## The bytes of a record -/

theorem length_idBytes (c : Config) (m : MessageEvent) : (m.idBytes c).length = 4 := by
  cases hext : m.ext <;> simp [MessageEvent.idBytes, hext, stdBytes, extBytes]

/-- A frame is four identifier bytes, the DLC byte and the payload (43_bd_interrupt.md R108). -/
theorem length_txBytes {c : Config} (hwf : c.wf = true) (m : MessageEvent) :
    (m.txBytes c).length = frameBytes c := by
  obtain ⟨-, -, hpayload, -⟩ := wf_layout hwf
  simp [MessageEvent.txBytes, length_idBytes, Payload.toList, frameBytes, hpayload]
  omega

/-- The identifier bytes by the EXT tag, of the identifier cut to its tag's width (43_bd_interrupt.md R108). -/
theorem idBytes_eq (c : Config) (m : MessageEvent) :
    m.idBytes c = if m.ext then extBytes (lowBits c.extIdBits (m.id.setWidth 32))
      else stdBytes (lowBits c.stdIdBits (m.id.setWidth 32)) := by
  cases hext : m.ext <;> simp [MessageEvent.idBytes, idWidth, hext]

/-- `Transmit(i)` adds two chip-select frames to the link (43_bd_interrupt.md R106, R108). -/
theorem transmit_spiEvents (s : State) (i : BitVec 8) :
    (s.transmit i).spiEvents =
      s.spiEvents ++ spiFrame (writeTx s.cfg s.cfg.regmap.txb0 ((s.outbound i).txBytes s.cfg))
        ++ spiFrame (rts0Tx s.cfg) := by
  rw [State.transmit, State.spi_spiEvents, State.spi_spiEvents]
  rfl

/-! ## A frame received -/

/-- The identifier of an extended frame, bit by bit (30_encoding.md R69). -/
theorem receivedId_getLsbD_extended {b : Nat → Byte} (hext : (b 1).getLsbD 3 = true) {i : Nat}
    (hi : i < 29) :
    (receivedId b).getLsbD i =
      if i < 8 then (b 3).getLsbD i else if i < 16 then (b 2).getLsbD (i - 8)
      else if i < 18 then (b 1).getLsbD (i - 16) else if i < 21 then (b 1).getLsbD (i - 13)
      else (b 0).getLsbD (i - 21) := by
  simp only [receivedId, hext, if_true, BitVec.getLsbD_append, BitVec.getLsbD_extractLsb']
  interval_cases i <;> rfl

/-- The identifier of a standard frame, bit by bit (30_encoding.md R69). -/
theorem receivedId_getLsbD_standard {b : Nat → Byte} (hstd : (b 1).getLsbD 3 = false) {i : Nat}
    (hi : i < 11) :
    (receivedId b).getLsbD i = if i < 3 then (b 1).getLsbD (i + 5) else (b 0).getLsbD (i - 3) := by
  simp only [receivedId, hstd, Bool.false_eq_true, if_false, BitVec.getLsbD_setWidth, BitVec.getLsbD_append,
    BitVec.getLsbD_extractLsb']
  interval_cases i <;> rfl

/-- A received identifier keeps the bits of the width its EXT tag selects (00_scope.md R6). -/
theorem receivedEvent_id_getLsbD (c : Config) (b : Nat → Byte) (t : Word) {i : Nat} (hi : i < 29) :
    (receivedEvent c b t).id.getLsbD i =
      (decide (i < idWidth c ((b 1).getLsbD 3)) && (receivedId b).getLsbD i) := by
  have hi32 : i < 32 := by omega
  simp only [receivedEvent, BitVec.getLsbD_setWidth, lowBits_getLsbD _ _ hi32, hi, hi32, decide_true,
    Bool.true_and]

/-- The payload bytes in order, zero from MAX_PAYLOAD on (00_scope.md R6, 10_state.md R27). -/
theorem payloadOf_getD (c : Config) (b : Nat → Byte) {j : Nat} (hj : j < 8) :
    (payloadOf c b).toList.getD j 0x00#8 = if j < c.maxPayload then b j else 0x00#8 := by
  interval_cases j <;> rfl

/-! ## A record sent and received -/

/-- The controller's buffer once a record is written to it: the frame's bytes from SIDH on. -/
def MessageEvent.buffer (c : Config) (m : MessageEvent) (j : Nat) : Byte := (m.txBytes c).getD j 0x00#8

section
variable (c : Config) (m : MessageEvent)

/-- The first four bytes of the buffer are the identifier's. -/
theorem buffer_id {j : Nat} (hj : j < 4) : m.buffer c j = (m.idBytes c).getD j 0x00#8 := by
  have hlen := length_idBytes c m
  rw [MessageEvent.buffer, MessageEvent.txBytes, List.append_assoc, List.getD_append _ _ _ _ (by omega)]

theorem buffer_dlc : m.buffer c 4 = m.dlc := by
  have hlen := length_idBytes c m
  rw [MessageEvent.buffer, MessageEvent.txBytes, List.append_assoc, List.getD_append_right _ _ _ _ (by omega),
    hlen]
  rfl

theorem buffer_data {j : Nat} (hj : j < c.maxPayload) :
    m.buffer c (5 + j) = m.data.toList.getD j 0x00#8 := by
  have hlen : (m.idBytes c ++ [m.dlc]).length = 5 := by rw [List.length_append, length_idBytes]; rfl
  rw [MessageEvent.buffer, MessageEvent.txBytes, List.getD_append_right _ _ _ _ (by omega), hlen,
    Nat.add_sub_cancel_left]
  simp [List.getD_eq_getElem?_getD, hj]

/-- SIDL bit 3 of a sent record is its EXT tag (30_encoding.md R69). -/
theorem buffer_exide : (m.buffer c 1).getLsbD 3 = m.ext := by
  rw [buffer_id c m (by omega), idBytes_eq]
  cases m.ext <;> exact sidl_exide ..

/-- SIDL bit 4 of a sent record is 0 (30_encoding.md R69). -/
theorem buffer_srr : (m.buffer c 1).getLsbD 4 = false := by
  rw [buffer_id c m (by omega), idBytes_eq]
  cases m.ext <;> exact sidl_srr ..

variable {c} {i : Nat}

/-- The identifier comes back from the bytes it is sent as, as far as its width goes. -/
theorem receivedId_buffer (hwf : c.wf = true) (hi : i < idWidth c m.ext) :
    (receivedId (m.buffer c)).getLsbD i = m.id.getLsbD i := by
  obtain ⟨-, -, -, hstdBits, hextBits, -⟩ := wf_layout hwf
  cases hext : m.ext with
  | true =>
    have hw : i < c.extIdBits := by simpa [idWidth, hext] using hi
    have hid : ∀ j < 4, m.buffer c j = (extBytes (lowBits c.extIdBits (m.id.setWidth 32))).getD j 0x00#8 := by
      intro j hj
      rw [buffer_id c m hj, idBytes_eq, hext, if_pos rfl]
    rw [receivedId_extended (hid 0 (by omega)) (hid 1 (by omega)) (hid 2 (by omega)) (hid 3 (by omega)),
      BitVec.getLsbD_setWidth, lowBits_getLsbD _ _ (by omega), BitVec.getLsbD_setWidth]
    simp [hw, show i < 29 by omega, show i < 32 by omega]
  | false =>
    have hw : i < c.stdIdBits := by simpa [idWidth, hext] using hi
    have hid : ∀ j < 4, m.buffer c j = (stdBytes (lowBits c.stdIdBits (m.id.setWidth 32))).getD j 0x00#8 := by
      intro j hj
      rw [buffer_id c m hj, idBytes_eq, hext, if_neg (by decide)]
    have hmask : (0x7FF#29).getLsbD i = true := by
      have hi11 : i < 11 := by omega
      interval_cases i <;> rfl
    rw [receivedId_standard (hid 0 (by omega)) (hid 1 (by omega)), BitVec.getLsbD_and, hmask,
      BitVec.getLsbD_setWidth, lowBits_getLsbD _ _ (by omega), BitVec.getLsbD_setWidth]
    simp [hw, show i < 29 by omega, show i < 32 by omega]

/-- A sent record is received with the identifier of its width. -/
theorem receivedEvent_buffer_id (hwf : c.wf = true) (t : Word) :
    (receivedEvent c (m.buffer c) t).id = m.id &&& BitVec.ofNat 29 (2 ^ idWidth c m.ext - 1) := by
  apply BitVec.eq_of_getLsbD_eq
  intro i hi
  rw [receivedEvent_id_getLsbD c _ t hi, buffer_exide, BitVec.getLsbD_and, BitVec.getLsbD_ofNat,
    Nat.testBit_two_pow_sub_one]
  by_cases hw : i < idWidth c m.ext
  · rw [receivedId_buffer m hwf hw]
    simp [hw, hi]
  · simp [hw]

/-- A sent record keeps its RTR flag in an extended frame only (30_encoding.md R69, R70). -/
theorem receivedEvent_buffer_rtr (t : Word) : (receivedEvent c (m.buffer c) t).rtr = (m.ext && m.rtr) := by
  simp only [receivedEvent, buffer_exide, buffer_srr, buffer_dlc, MessageEvent.dlc, dlcByte_rtr]
  cases m.ext <;> rfl

theorem receivedEvent_buffer_len (t : Word) : (receivedEvent c (m.buffer c) t).len = m.len := by
  simp only [receivedEvent, buffer_dlc, MessageEvent.dlc, dlcByte_len]

/-- A sent record is received with the payload bytes a record holds (00_scope.md R6). -/
theorem receivedEvent_buffer_data (t : Word) :
    (receivedEvent c (m.buffer c) t).data = payloadOf c fun j => m.data.toList.getD j 0x00#8 :=
  payloadOf_congr fun _ hj => buffer_data c m hj

end

/-! ## The first step of the CAN handler -/

/-- In a well-formed configuration a cursor holds every index of its queue (00_scope.md R8). -/
theorem bump_eQueue_toNat {c : Config} (hwf : c.wf = true) (x : BitVec 8) :
    (bump x c.eQueue).toNat = (x.toNat + 1) % c.eQueue := by
  obtain ⟨-, -, hcap, hcap256⟩ := wf_queues hwf
  exact bump_toNat x (by omega) hcap256

theorem bump_mQueue_toNat {c : Config} (hwf : c.wf = true) (x : BitVec 8) :
    (bump x c.mQueue).toNat = (x.toNat + 1) % c.mQueue := by
  obtain ⟨hcap, hcap255, -⟩ := wf_queues hwf
  exact bump_toNat x (by omega) (by omega)

/-- The state after the READ and the WRITE of CANINTF and EFLG (43_bd_interrupt.md R110). -/
def State.flagsCleared (s : State) : State :=
  (s.spi (readTx s.cfg s.cfg.regmap.canintf 2)).spi (writeTx s.cfg s.cfg.regmap.canintf [0x00#8, 0x00#8])

/-- The two transfers answer four bytes each, so the next READ's answers begin at the ninth. -/
theorem answer_flagsCleared (s : State) (j : Nat) : s.flagsCleared.answer j = s.answer (8 + j) := by
  rw [State.flagsCleared, answer_spi, answer_spi, ← Nat.add_assoc]
  rfl

/-- The handler's first step takes its branch and leaves the error queue's drain to the next. -/
theorem coreStep_canStart {s : State} {below : List Context} (h : s.stack = .isr .can .start :: below) :
    s.coreStep = { s.canPhase1 with stack := .isr .can (.guard .error) :: below } := by
  have hstack : s.canPhase1.stack = .isr .can .start :: below := by rw [canPhase1_frame]; exact h
  rw [coreStep_of_isr h]
  exact setIsrPos_of_isr hstack _

/-- With a sample of TIME scripted, that one is drawn (60_exceptions.md R125). -/
theorem time_of_cons {s : State} {x : Word} {xs : List Word} (h : s.env.times = x :: xs) :
    s.time = x ∧ s.timeDrawn.env.times = xs := by
  simp [State.time, h]

section
variable {s : State}

theorem canPhase1_of_error (he : errorFlag (s.answer 2) = true) :
    s.canPhase1 = s.flagsCleared.errorBranch (s.answer 3) :=
  if_pos he

theorem canPhase1_of_transmit (he : errorFlag (s.answer 2) = false) (ht : transmitFlag (s.answer 2) = true) :
    s.canPhase1 = s.flagsCleared.transmitBranch := by
  simp only [State.canPhase1, he, ht, Bool.false_eq_true, if_false, if_true]
  rfl

theorem canPhase1_of_receive (he : errorFlag (s.answer 2) = false) (ht : transmitFlag (s.answer 2) = false)
    (hr : receiveFlag (s.answer 2) = true) : s.canPhase1 = s.flagsCleared.receiveBranch := by
  simp only [State.canPhase1, he, ht, hr, Bool.false_eq_true, if_false, if_true]
  rfl

theorem canPhase1_of_no_flag (he : errorFlag (s.answer 2) = false) (ht : transmitFlag (s.answer 2) = false)
    (hr : receiveFlag (s.answer 2) = false) : s.canPhase1 = s.flagsCleared := by
  simp only [State.canPhase1, he, ht, hr, Bool.false_eq_true, if_false]
  rfl

theorem errorBranch_of_full (h : queueFull s.bd.eqNext s.bd.eqFree s.cfg.eQueue = true) (eflg : Byte) :
    s.errorBranch eflg = s :=
  if_pos h

theorem errorBranch_of_room (h : ¬ queueFull s.bd.eqNext s.bd.eqFree s.cfg.eQueue = true) (eflg : Byte) :
    s.errorBranch eflg = { s with
      bd.eq := s.bd.eq.set s.bd.eqFree.toNat ⟨s.time, eflg⟩
      bd.eqFree := bump s.bd.eqFree s.cfg.eQueue
      env := s.timeDrawn.env } :=
  if_neg h

theorem transmitBranch_of_idle (h : s.bd.inFlight = false) : s.transmitBranch = s := by
  simp [State.transmitBranch, h]

/-- The completed frame was the last one queued. -/
theorem transmitBranch_of_last (h : s.bd.inFlight = true)
    (hlast : bump s.bd.sqNext s.cfg.mQueue = s.bd.sqFree) :
    s.transmitBranch = { s with bd.sqNext := s.bd.sqFree, bd.inFlight := false } := by
  simp [State.transmitBranch, h, hlast, queueEmpty_iff]

/-- Another frame is queued behind the completed one; it stays in flight in its place. -/
theorem transmitBranch_of_more (h : s.bd.inFlight = true)
    (hmore : bump s.bd.sqNext s.cfg.mQueue ≠ s.bd.sqFree) :
    s.transmitBranch = { s with
      bd.sqNext := bump s.bd.sqNext s.cfg.mQueue
      env := (s.transmit (bump s.bd.sqNext s.cfg.mQueue)).env
      trace := (s.transmit (bump s.bd.sqNext s.cfg.mQueue)).trace } := by
  have hlive : queueEmpty (bump s.bd.sqNext s.cfg.mQueue) s.bd.sqFree ≠ true :=
    mt (queueEmpty_iff ..).mp hmore
  exact (if_pos h).trans (if_neg hlive)

theorem receiveBranch_of_full (h : queueFull s.bd.rqNext s.bd.rqFree s.cfg.mQueue = true) :
    s.receiveBranch = s :=
  if_pos h

/-- The state after the READ of receive buffer 0 (43_bd_interrupt.md R109). -/
def State.bufferRead (s : State) : State :=
  s.spi (readTx s.cfg s.cfg.regmap.rxb0 (frameBytes s.cfg))

theorem receiveBranch_of_room (h : ¬ queueFull s.bd.rqNext s.bd.rqFree s.cfg.mQueue = true) :
    s.receiveBranch = { s with
      bd.rq := s.bd.rq.set s.bd.rqFree.toNat
        (receivedEvent s.cfg (fun j => s.answer (2 + j)) s.bufferRead.time)
      bd.rqFree := bump s.bd.rqFree s.cfg.mQueue
      env := s.bufferRead.timeDrawn.env
      trace := s.bufferRead.trace } :=
  if_neg h

end

/-! ## The steps of a drain -/

section
variable {s : State} {below : List Context} {q : EventKind}

theorem coreStep_guard_of_draining (h : s.stack = .isr .can (.guard q) :: below)
    (hguard : s.bd.draining q = true) : s.coreStep = s.drainDone q := by
  rw [coreStep_of_isr h, State.isrStep, drainGuard_eq h, if_pos hguard]

theorem coreStep_guard_of_free (h : s.stack = .isr .can (.guard q) :: below)
    (hguard : s.bd.draining q = false) :
    s.coreStep = { s with
      bd := s.bd.setDraining q true, stack := .isr .can (.check q) :: below } := by
  rw [coreStep_of_isr h, State.isrStep, drainGuard_eq h, if_neg (Bool.eq_false_iff.mp hguard)]

theorem coreStep_check_of_empty (h : s.stack = .isr .can (.check q) :: below)
    (hempty : s.bd.next q = s.bd.free q) :
    s.coreStep = ({ s with ie := false, bd := s.bd.setDraining q false } : State).drainDone q := by
  rw [coreStep_of_isr h, State.isrStep, drainCheck_eq h, if_pos ((queueEmpty_iff ..).mpr hempty)]

/-- With no handler registered the event is consumed (43_bd_interrupt.md R112). -/
theorem coreStep_check_of_no_handler (h : s.stack = .isr .can (.check q) :: below)
    (hlive : s.bd.next q ≠ s.bd.free q) (hnone : s.bd.present q = false) :
    s.coreStep = { s with ie := false, stack := .isr .can (.advance q) :: below } := by
  rw [coreStep_of_isr h, State.isrStep, drainCheck_eq h, if_neg (mt (queueEmpty_iff ..).mp hlive),
    if_neg (Bool.eq_false_iff.mp hnone)]

/-- With a handler registered the oldest event is delivered (43_bd_interrupt.md R112, R113). -/
theorem coreStep_check_of_handler (h : s.stack = .isr .can (.check q) :: below)
    (hlive : s.bd.next q ≠ s.bd.free q) (hhandler : s.bd.present q = true) :
    s.coreStep = { s with
      ie := true
      bd.evtValid := true
      bd.evtKind := q
      bd.evtRec := s.bd.oldest q
      stack := .handler (s.bd.oldest q) [] :: .isr .can (.advance q) :: below } := by
  rw [coreStep_of_isr h, State.isrStep, drainCheck_eq h, if_neg (mt (queueEmpty_iff ..).mp hlive),
    if_pos hhandler, oldest_kind]

theorem coreStep_advance (h : s.stack = .isr .can (.advance q) :: below) :
    s.coreStep = { s with
      ie := false, bd := s.bd.advanceNext s.cfg q, stack := .isr .can (.check q) :: below } := by
  rw [coreStep_of_isr h, State.isrStep, drainAdvance_eq h]

end

/-- The oldest event of the error queue stands in the queue's storage (10_state.md R28). -/
theorem oldest_error {c : Config} {d : BusDriver} (h : d.Sized c) :
    ∃ rec, d.eq[d.eqNext.toNat]? = some rec ∧ d.oldest .error = .error rec := by
  obtain ⟨-, -, hlen, -, -, -, -, hnext, -⟩ := h
  have hlt : d.eqNext.toNat < d.eq.length := hlen ▸ hnext
  exact ⟨_, List.getElem?_eq_getElem hlt, congrArg EventRecord.error (List.getD_eq_getElem _ _ hlt)⟩

/-- The oldest event of the inbound queue stands in the queue's storage (10_state.md R28). -/
theorem oldest_message {c : Config} {d : BusDriver} (h : d.Sized c) :
    ∃ rec, d.rq[d.rqNext.toNat]? = some rec ∧ d.oldest .message = .message rec := by
  obtain ⟨-, hlen, -, -, -, hnext, -⟩ := h
  have hlt : d.rqNext.toNat < d.rq.length := hlen ▸ hnext
  exact ⟨_, List.getElem?_eq_getElem hlt, congrArg EventRecord.message (List.getD_eq_getElem _ _ hlt)⟩

/-! ## The statements -/

/-- Settles O31: the first call leaves the cursors alone, clears IE and sets RESV_VALID, so the second one finds
the same slot free and saves IE = 0 or nothing. -/
theorem prepTwiceReturnsSamePointer : Obligations.PrepTwiceReturnsSamePointer := by
  intro s t u hroom ht hu
  obtain rfl := Host.Outcome.next.inj (ht.symm.trans (exec_bdPrep_of_room (mt (queueFull_iff ..).mp hroom)))
  obtain rfl := Host.Outcome.next.inj (hu.symm.trans (exec_bdPrep_of_room (mt (queueFull_iff ..).mp hroom)))
  exact ⟨rfl, rfl, rfl, rfl, fun hoverwrite => prepSavedIe_of_saves (.inr hoverwrite),
    fun hkeep => prepSavedIe_of_keeps ⟨rfl, hkeep⟩⟩

/-- Settles O39: the two frames of the link are the two transactions', each laid out bit by bit. -/
theorem transmitSendsWholeFrame : Obligations.TransmitSendsWholeFrame := by
  rintro s i m hwf rfl
  obtain ⟨hlength, hselect, hdeselect, hbits⟩ :=
    spiFrame_spec (writeTx s.cfg s.cfg.regmap.txb0 ((s.outbound i).txBytes s.cfg))
  refine ⟨⟨_, rfl, ?_, ?_, transmit_spiEvents s i, hlength, hselect, hdeselect, hbits⟩, rfl⟩
  · simp only [writeTx, List.length_append, length_txBytes hwf, frameBytes, List.length_cons, List.length_nil]
    omega
  · rw [writeTx, MessageEvent.txBytes, idBytes_eq, MessageEvent.dlc, dlcByte_eq]
    simp only [List.append_assoc]
    rfl

/-- Settles O40: bit by bit, and for a record sent field by field through the bytes of the buffer. -/
theorem receiveInvertsTransmit : Obligations.ReceiveInvertsTransmit := by
  refine fun c hwf => ⟨fun b t => ⟨rfl, rfl, fun hext => ⟨if_pos hext, fun i hi => ?_⟩,
    fun hstd => ⟨if_neg (Bool.eq_false_iff.mp hstd), fun i hi => ?_⟩, fun i hi => ?_,
    fun j hj => payloadOf_getD c _ hj⟩, fun m t => ?_⟩
  · have hext : (b 1).getLsbD 3 = true := hext
    rw [receivedEvent_id_getLsbD c b t hi, receivedId_getLsbD_extended hext hi, hext]
    rfl
  · have hstd : (b 1).getLsbD 3 = false := hstd
    obtain ⟨-, -, -, hbits, -⟩ := wf_layout hwf
    rw [receivedEvent_id_getLsbD c b t hi, hstd]
    by_cases hw : i < c.stdIdBits
    · rw [receivedId_getLsbD_standard hstd (hw.trans_le hbits)]
      rfl
    · simp [idWidth, hw]
  · simp [receivedEvent, hi]
  · exact (MessageEvent.mk.injEq ..).mpr ⟨rfl, receivedEvent_buffer_id m hwf t, buffer_exide c m,
      receivedEvent_buffer_rtr m t, receivedEvent_buffer_len m t, receivedEvent_buffer_data m t⟩

/-- Settles O41: with the error flag set, room in the queue decides. -/
theorem canErrorBranch : Obligations.CanErrorBranch := by
  intro s below _ hwf h he
  have hstep := coreStep_canStart h
  rw [canPhase1_of_error he] at hstep
  by_cases hfull : (s.bd.eqFree.toNat + 1) % s.cfg.eQueue = s.bd.eqNext.toNat
  · rw [errorBranch_of_full (s := s.flagsCleared) ((queueFull_iff ..).mpr hfull)] at hstep
    exact ⟨_, hstep, rfl, rfl, absurd hfull, fun _ => ⟨rfl, rfl⟩⟩
  · rw [errorBranch_of_room (s := s.flagsCleared) (mt (queueFull_iff ..).mp hfull)] at hstep
    exact ⟨_, hstep, rfl, rfl,
      fun _ => ⟨⟨_, rfl, fun x xs htimes => time_of_cons (s := s.flagsCleared) htimes⟩,
        bump_eQueue_toNat hwf _⟩, fun h => absurd h hfull⟩

/-- Settles O42: the in-flight flag decides, then whether another frame is queued. -/
theorem canTransmitBranch : Obligations.CanTransmitBranch := by
  intro s below h he ht
  have hstep := coreStep_canStart h
  rw [canPhase1_of_transmit he ht] at hstep
  cases hfly : s.bd.inFlight with
  | false =>
    rw [transmitBranch_of_idle (s := s.flagsCleared) hfly] at hstep
    exact ⟨_, [], hstep, rfl, rfl, fun _ => ⟨rfl, rfl⟩, nofun⟩
  | true =>
    by_cases hlast : bump s.bd.sqNext s.cfg.mQueue = s.bd.sqFree
    · rw [transmitBranch_of_last (s := s.flagsCleared) hfly hlast] at hstep
      refine ⟨_, [], hstep, rfl, rfl, nofun, fun _ => ⟨absurd hlast, fun hnext => ?_⟩⟩
      exact ⟨by rw [hnext]; rfl, rfl⟩
    · rw [transmitBranch_of_more (s := s.flagsCleared) hfly hlast] at hstep
      exact ⟨_, [_, _], hstep, rfl, rfl, nofun, fun _ => ⟨fun _ => ⟨rfl, rfl⟩, fun h => absurd h hlast⟩⟩

/-- Settles O43: the receive flag decides, then room in the queue. -/
theorem canReceiveBranch : Obligations.CanReceiveBranch := by
  intro s below _ hwf h he ht
  have hstep := coreStep_canStart h
  cases hr : (s.answer 2).getLsbD 0 with
  | false =>
    rw [canPhase1_of_no_flag he ht hr] at hstep
    exact ⟨_, [], hstep, rfl, rfl, nofun, nofun, fun _ => ⟨rfl, rfl, rfl⟩⟩
  | true =>
    rw [canPhase1_of_receive he ht hr] at hstep
    by_cases hfull : (s.bd.rqFree.toNat + 1) % s.cfg.mQueue = s.bd.rqNext.toNat
    · rw [receiveBranch_of_full (s := s.flagsCleared) ((queueFull_iff ..).mpr hfull)] at hstep
      exact ⟨_, [], hstep, rfl, rfl, fun _ => absurd hfull, fun _ _ => ⟨rfl, rfl, rfl⟩, nofun⟩
    · rw [receiveBranch_of_room (s := s.flagsCleared) (mt (queueFull_iff ..).mp hfull)] at hstep
      simp only [answer_flagsCleared, ← Nat.add_assoc] at hstep
      exact ⟨_, [_], hstep, rfl, rfl,
        fun _ _ => ⟨rfl,
          ⟨_, rfl, fun x xs htimes => time_of_cons (s := s.flagsCleared.bufferRead) htimes⟩,
          bump_mQueue_toNat hwf _⟩,
        fun _ h => absurd h hfull, nofun⟩

/-- Settles O44. -/
theorem errorDrainSteps : Obligations.ErrorDrainSteps := by
  intro s below hwf ⟨_, hsized⟩
  refine ⟨fun h => ⟨fun hguard => ?_, coreStep_guard_of_free h⟩,
    fun h => ⟨fun hempty => ?_, coreStep_check_of_no_handler h, fun hlive hhandler => ?_⟩, fun h => ?_⟩
  · exact (coreStep_guard_of_draining h hguard).trans (drainDone_error h)
  · exact (coreStep_check_of_empty h hempty).trans (drainDone_error h)
  · obtain ⟨rec, hrec, holdest⟩ := oldest_error hsized
    have hstep := coreStep_check_of_handler h hlive hhandler
    rw [holdest] at hstep
    exact ⟨rec, hrec, hstep⟩
  · exact ⟨_, coreStep_advance h, bump_eQueue_toNat hwf _, rfl⟩

/-- Settles O45. -/
theorem inboundDrainSteps : Obligations.InboundDrainSteps := by
  intro s below hwf ⟨_, hsized⟩
  refine ⟨fun h => ⟨fun hguard => ?_, coreStep_guard_of_free h⟩,
    fun h => ⟨fun hempty => ?_, coreStep_check_of_no_handler h, fun hlive hhandler => ?_⟩, fun h => ?_⟩
  · exact (coreStep_guard_of_draining h hguard).trans (drainDone_message h)
  · exact (coreStep_check_of_empty h hempty).trans (drainDone_message h)
  · obtain ⟨rec, hrec, holdest⟩ := oldest_message hsized
    have hstep := coreStep_check_of_handler h hlive hhandler
    rw [holdest] at hstep
    exact ⟨rec, hrec, hstep⟩
  · exact ⟨_, coreStep_advance h, bump_mQueue_toNat hwf _, rfl⟩

end Sys2Proof.Machine
end

section
/-! PROOFS. The core interrupt-enable commands (44_core_commands.md): what each does in every state, and the step
that issues its word. -/

namespace Sys2Proof.Machine

/-- `ie.set` writes IE and the command's result, and nothing else (44_core_commands.md R115). -/
theorem exec_ieSet (s : State) :
    exec .ieSet s = .next { s with ie := true, status := 0x00#8, r := 0#32 } := rfl

/-- `ie.clr` writes IE and the command's result, and nothing else (44_core_commands.md R116). -/
theorem exec_ieClr (s : State) :
    exec .ieClr s = .next { s with ie := false, status := 0x00#8, r := 0#32 } := rfl

/-- Settles O37: each word is its command's encoding, so the step is `exec` of that command with the move consumed
and W written. -/
theorem ieSetIeClrWriteIe : Obligations.IeSetIeClrWriteIe := by
  intro s rest
  refine ⟨exec_ieSet s, exec_ieClr s, fun hwf ha => ⟨fun hm => ?_, fun hm => ?_⟩⟩
  · rw [stepRunsDecodedCommand s _ rest .ieSet hwf ha hm (decodeInvertsEncode .ieSet), exec_ieSet]
  · rw [stepRunsDecodedCommand s _ rest .ieClr hwf ha hm (decodeInvertsEncode .ieClr), exec_ieClr]

end Sys2Proof.Machine
end

section
/-! PROOFS. Exceptions (60_exceptions.md): the discipline of the context stack and why every step keeps it, then
interrupt entry, the handlers that return at once, and the port that holds a host move. -/

namespace Sys2Proof.Machine

/-! ## The discipline of the context stack -/

section
variable {below : List Context}

/-- A handler context stands on the CAN handler, where the drain of its event's kind is to advance its cursor
(60_exceptions.md R124). -/
theorem stackOk_handler_iff {rec : EventRecord} {prog : Progress} :
    stackOk (.handler rec prog :: below) = true ↔
      (∃ base, below = .isr .can (.advance rec.kind) :: base) ∧ stackOk below = true := by
  rcases below with _ | ⟨⟨v, _ | _ | _ | q⟩ | _, base⟩ <;> simp [stackOk]

/-- An interrupt context past its first step is the CAN handler's, and what it interrupted could be interrupted
(60_exceptions.md R123, R124). -/
theorem stackOk_isr_iff {v : Irq} {pos : IsrPos} :
    stackOk (.isr v pos :: below) = true ↔
      (pos = .start ∨ v = .can) ∧ interruptible below = true ∧ stackOk below = true := by
  simp [stackOk, stepPosOk, and_assoc]

end

/-- A waiting context is the foreground or a handler, which an interrupt may interrupt (60_exceptions.md R121). -/
theorem interruptible_of_awaiting {s : State} (h : s.awaiting = true) : interruptible s.stack = true := by
  rcases awaiting_stack h with ⟨hstack, -⟩ | ⟨rec, below, hstack⟩ <;> rw [hstack] <;> rfl

/-- What a context has left of its command is no part of the discipline. -/
@[simp] theorem stackOk_setProgress (s : State) (p : Progress) :
    stackOk (s.setProgress p).stack = stackOk s.stack := by
  rcases hs : s.stack with _ | ⟨_ | _, below⟩ <;> simp [State.setProgress, hs, stackOk]

@[simp] theorem interruptible_setProgress (s : State) (p : Progress) :
    interruptible (s.setProgress p).stack = interruptible s.stack := by
  rcases hs : s.stack with _ | ⟨_ | _, below⟩ <;> simp [State.setProgress, hs, interruptible]

section
variable {s t : State}

/-- Nothing is asked of IE while the innermost context may be interrupted. -/
theorem contextsOk_of_interruptible (hstack : stackOk s.stack = true)
    (hint : interruptible s.stack = true) : s.ContextsOk :=
  ⟨hstack, fun hnot => nomatch hint.symm.trans hnot⟩

theorem contextsOk_of_ie_clear (hstack : stackOk s.stack = true) (hie : s.ie = false) : s.ContextsOk :=
  ⟨hstack, fun _ => hie⟩

/-- With IE = 1 an interrupt falls on a context that may be interrupted. -/
theorem interruptible_of_ie (hs : s.ContextsOk) (hie : s.ie = true) : interruptible s.stack = true := by
  obtain ⟨-, hclear⟩ := hs
  by_contra hnot
  exact nomatch hie.symm.trans (hclear (Bool.eq_false_iff.mpr hnot))

/-- The discipline is about the stack and IE only. -/
theorem contextsOk_of_eq (hs : s.ContextsOk) (hstack : t.stack = s.stack) (hie : t.ie = s.ie) :
    t.ContextsOk := by
  simpa only [State.ContextsOk, hstack, hie] using hs

/-! ## Every step keeps it -/

/-- An interrupt context returns to one that may be interrupted, goes on as the CAN handler with IE = 0, or opens
a handler context on its own drain (60_exceptions.md R123, 43_bd_interrupt.md R112, R113). -/
theorem isrStep_keeps_contextsOk {v : Irq} {pos : IsrPos} {below : List Context} (hs : s.ContextsOk)
    (h : s.stack = .isr v pos :: below) : (s.isrStep v pos).ContextsOk := by
  obtain ⟨hok, hclear⟩ := hs
  rw [h] at hok
  obtain ⟨hpos, hint, hbelow⟩ := stackOk_isr_iff.mp hok
  rcases isrStep_control h with ⟨hstack, -⟩ | ⟨pos', hcan, hstack, hie, -⟩ | ⟨q, rfl, hstack, -⟩
  · exact contextsOk_of_interruptible (by rw [hstack, hbelow]) (by rw [hstack, hint])
  · have hv : v = .can := hcan.elim id fun hne => hpos.resolve_left hne
    refine contextsOk_of_ie_clear ?_ ?_
    · rw [hstack, stackOk_isr_iff]
      exact ⟨.inr hv, hint, hbelow⟩
    · exact hie.elim (fun ⟨hnot, hsame⟩ => hsame.trans (hclear hnot)) id
  · have hv : v = .can := hpos.resolve_left (by simp)
    refine contextsOk_of_interruptible ?_ (by rw [hstack]; rfl)
    rw [hstack, stackOk_handler_iff, stackOk_isr_iff, oldest_kind]
    exact ⟨⟨below, by rw [hv]⟩, .inr hv, hint, hbelow⟩

/-- A command runs in a context that may be interrupted and leaves one: its own, or, for `bd.ack`, the drain that
delivered the event (42_bd_commands.md R105). -/
theorem exec_keeps_contextsOk {i : Instr} (hok : stackOk s.stack = true)
    (hint : interruptible s.stack = true) (h : exec i s = .next t) : t.ContextsOk := by
  rcases exec_stack h with hstack | ⟨p, hstack⟩ | ⟨rec, prog, below, -, hhandler, hstack⟩
  · exact contextsOk_of_interruptible (by rw [hstack, hok]) (by rw [hstack, hint])
  · exact contextsOk_of_interruptible (by rw [hstack, stackOk_setProgress, hok])
      (by rw [hstack, interruptible_setProgress, hint])
  · rw [hhandler] at hok
    obtain ⟨⟨base, hdrain⟩, hbelow⟩ := stackOk_handler_iff.mp hok
    exact contextsOk_of_interruptible (by rw [hstack, hbelow]) (by rw [hstack, hdrain]; rfl)

/-! ## Interrupt entry and the handlers that return at once -/

/-- An interrupt that may be taken is entered: its pending bit alone is cleared (60_exceptions.md R121, R122). -/
theorem take_of_mayTake {v : Irq} (h : s.mayTake v = true) :
    s.take v = { s with
      stack := .isr v .start :: s.stack
      ie := false
      te.faultPend := s.te.faultPend && decide (v ≠ .fault)
      te.tickPend := s.te.tickPend && decide (v ≠ .tick) } := by
  rw [State.take, if_pos h]
  cases v <;> simp [State.enter]

/-- An interrupt that may not be taken is held (60_exceptions.md R121). -/
theorem take_of_not_mayTake {v : Irq} (h : s.mayTake v = false) : s.take v = s := by
  simp [State.take, h]

/-- The fault handler stops a running engine and its output (41_te_sequencer.md R92). -/
theorem faultHandler_of_running (h : s.te.running = true) :
    s.faultHandler = { s with te.running := false, te.go := false, trace := .go false :: s.trace } := by
  rw [State.faultHandler, if_pos h]
  rfl

theorem faultHandler_of_stopped (h : s.te.running = false) : s.faultHandler = s := by
  simp [State.faultHandler, h]

theorem coreStep_tickStart {below : List Context} (h : s.stack = .isr .tick .start :: below) :
    s.coreStep = s.tick.interruptReturn := coreStep_of_isr h

theorem coreStep_faultStart {below : List Context} (h : s.stack = .isr .fault .start :: below) :
    s.coreStep = s.faultHandler.interruptReturn := coreStep_of_isr h

/-! ## The port -/

/-- A host move that no context waits for is held while the core runs (60_exceptions.md R121, R126). -/
theorem step_of_held {m : Move} {rest : List Move} (hwf : s.cfg.wf = true)
    (hbusy : s.awaiting = false) (hm : s.env.moves = m :: rest) (hhost : m.isHost = true) :
    step s = .next s.coreStep := by
  simp [step, hwf, hm, hbusy, hhost]

end

/-! ## The statements -/

/-- Settles O51: an entry falls only where IE = 1, so on a context that may be interrupted, and clears IE; what
else writes the stack or IE is a step of an interrupt context or a command. -/
theorem stepKeepsContextsOk : Obligations.StepKeepsContextsOk := by
  intro s t hs h
  rcases step_control_cases h with ⟨hstack, hie, -⟩ | ⟨v, -, -, htake, hstack, hie, -⟩ |
    ⟨-, v, pos, below, hisr, hstack, hie, -⟩ | ⟨-, -, p, -, hstack, hie, -⟩ |
    ⟨i, u, ⟨-, -, ha, -⟩, hstack, -, -, -, hexec⟩
  · exact contextsOk_of_eq hs hstack hie
  · have hon : s.ie = true := (Bool.and_eq_true_iff.mp htake).1
    refine contextsOk_of_ie_clear ?_ hie
    rw [hstack, stackOk_isr_iff]
    exact ⟨.inl rfl, interruptible_of_ie hs hon, hs.1⟩
  · exact contextsOk_of_eq (isrStep_keeps_contextsOk hs hisr) hstack hie
  · have hprog : (s.setProgress p).ContextsOk := by simpa [State.ContextsOk] using hs
    exact contextsOk_of_eq hprog hstack (by rw [hie, State.setProgress_ie])
  · exact exec_keeps_contextsOk (by rw [hstack, hs.1])
      (by rw [hstack, interruptible_of_awaiting ha]) hexec

/-- Settles O25: the move is applied whatever the contexts do, and R121's condition decides between entry and
nothing. -/
theorem interruptEntry : Obligations.InterruptEntry := by
  intro s v rest hwf hm
  rw [step_of_not_isHost hwf hm rfl]
  refine ⟨fun hie hav => ?_, fun hheld => ?_⟩
  · have hmay : ({ s with env.moves := rest } : State).mayTake v = true :=
      Bool.and_eq_true_iff.mpr ⟨hie, hav⟩
    rw [applyMove, take_of_mayTake hmay]
  · have hmay : ({ s with env.moves := rest } : State).mayTake v = false :=
      Bool.and_eq_false_iff.mpr hheld
    rw [applyMove, take_of_not_mayTake hmay]

/-- Settles O26: the handler's only step is its work, then the return. -/
theorem tickAndFaultHandlersReturn : Obligations.TickAndFaultHandlersReturn := by
  refine fun s below => ⟨fun h => ?_, fun h => ⟨fun hrun => ?_, fun hstop => ?_⟩⟩
  · rw [coreStep_tickStart h, State.interruptReturn, State.tick_stack, h]
    rfl
  · rw [coreStep_faultStart h, State.interruptReturn, State.faultHandler_stack, h,
      faultHandler_of_running hrun]
    rfl
  · rw [coreStep_faultStart h, State.interruptReturn, State.faultHandler_stack, h,
      faultHandler_of_stopped hstop]
    rfl

/-- Settles O6: the three moves are the host's, so each is held, and the core's step reads no move. -/
theorem busyPortHoldsHostMove : Obligations.BusyPortHoldsHostMove := by
  intro s m rest hwf hbusy hm hkind
  have hhost : m.isHost = true := by
    rcases hkind with ⟨x, rfl | rfl⟩ | ⟨w, rfl⟩ <;> rfl
  exact ⟨_, step_of_held hwf hbusy hm hhost, rfl, by rw [coreStep_moves, hm]⟩

/-- Settles O7. -/
theorem everyCommandCompletes : Obligations.EveryCommandCompletes := exec_eq_next

end Sys2Proof.Machine
end

section
/-! PROOFS. Reset (70_reset_and_hazards.md R130): the value of every element, and why the machine starts inside
every invariant that a step keeps. -/

namespace Sys2Proof.Machine

/-- A storage array after reset: as many cells as the configuration gives it, each of them the zero of its type
(70_reset_and_hazards.md R130). -/
theorem replicate_holds {α : Type} (n : Nat) (z : α) :
    (List.replicate n z).length = n ∧ ∀ k, (List.replicate n z).getD k z = z :=
  ⟨List.length_replicate, fun _ => by
    rw [List.getD_eq_getElem?_getD, List.getElem?_getD_replicate_default_eq]⟩

section
variable {c : Config}

/-- The table has a cell per slot, CUR_SLOT = 0 names one, and 0 fits the generator's registers. -/
theorem reset_te_sized (hwf : c.wf = true) : (TimingEngine.reset c).Sized c := by
  obtain ⟨hslots, -⟩ := wf_slots hwf
  have hfits : 0 < 2 ^ c.wgWidth := Nat.two_pow_pos _
  exact ⟨List.length_replicate, List.length_replicate, List.length_replicate, List.length_replicate,
    hslots, Nat.zero_le _, hfits, hfits, hfits, hfits⟩

/-- Each queue has its capacity, and a cursor of 0 is below it. -/
theorem reset_bd_sized (hwf : c.wf = true) : (BusDriver.reset c).Sized c := by
  obtain ⟨hm, -, he, -⟩ := wf_queues hwf
  have hmessage : 0 < c.mQueue := by omega
  have herror : 0 < c.eQueue := by omega
  exact ⟨List.length_replicate, List.length_replicate, List.length_replicate,
    hmessage, hmessage, hmessage, hmessage, herror, herror⟩

/-- The engine is stopped and no request is pending, so nothing asks for an armed generator. -/
theorem reset_generatorArmed : (State.resetWith c).GeneratorArmed :=
  ⟨nofun, nofun, nofun⟩

/-- No frame is in flight and no slot is reserved; both cursors of the outbound queue are 0. -/
theorem reset_sendQueueOk (hwf : c.wf = true) : (State.resetWith c).SendQueueOk := by
  obtain ⟨-, -, -, hnext, hfree, -⟩ := reset_bd_sized hwf
  exact ⟨hnext, hfree, nofun, nofun⟩

/-- Only the foreground is there. -/
theorem reset_contextsOk : (State.resetWith c).ContextsOk := contextsOk_of_interruptible rfl rfl

/-- No delivery is open, and EVT_KIND is the kind of the zero Message Event. -/
theorem reset_portOk : (State.resetWith c).PortOk := ⟨rfl, rfl⟩

end

/-! ## The statements -/

/-- Settles O46: each register is read off the reset state, each array is a run of zeros. -/
theorem resetValues : Obligations.ResetValues := fun c =>
  ⟨State.resetWith c, rfl,
    -- the configuration, the host port, IE, the contexts, MFAULT and the trace
    rfl, rfl, rfl, rfl, rfl, rfl, rfl, rfl, rfl, rfl, rfl,
    -- the message table
    replicate_holds _ _, replicate_holds _ _, replicate_holds _ _, replicate_holds _ _,
    -- the cursor and its snapshots, then the rest of the Timing Engine
    rfl, rfl, rfl, rfl, rfl,
    rfl, rfl, rfl, rfl, rfl, rfl, rfl, rfl, rfl, rfl,
    -- the queues
    replicate_holds _ _, replicate_holds _ _, replicate_holds _ _,
    -- the cursors, the Bus Driver's flags and the event port
    rfl, rfl, rfl, rfl, rfl, rfl,
    rfl, rfl, rfl, rfl, rfl, rfl, rfl, rfl, rfl, rfl, rfl⟩

/-- Settles O47: the well-formed configuration is needed for the sizes and cursors alone. -/
theorem resetMeetsInvariants : Obligations.ResetMeetsInvariants := fun c hwf =>
  ⟨State.resetWith c, rfl, ⟨reset_te_sized hwf, reset_bd_sized hwf⟩, reset_generatorArmed,
    reset_sendQueueOk hwf, reset_contextsOk, reset_portOk, rfl⟩

end Sys2Proof.Machine
end
